-- ==== Sys2Proof/Word.lean ====
section
/-! DEFINITION. The two word types of the core (00_scope.md R4): every register but PC, every memory cell and
every instruction byte is a `Byte`; PC and every effective address is an `Addr`. -/

namespace Sys2Proof

/-- The data width: 8 bits, unsigned unless a rule says signed (00_scope.md R4, R6). -/
abbrev Byte := BitVec 8

/-- The address width: 16 bits, the source's Word with high byte in bits 15 to 8 (00_scope.md R4, R6). -/
abbrev Addr := BitVec 16

end Sys2Proof
end

