-- ==== Sys2Proof/Syntax.lean ====
section
/-! DEFINITION. The operations, addressing modes, decoder entries and operand variants of 30_encoding.md R72, R74 and
R75, the content of the instruction latch (10_state.md R33), and `Instr`: one constructor per row of
spec/opcode_table.json (its 205 `UNIMPLEMENTED` rows are one constructor that holds the raw byte). -/

namespace Sys2Proof

/-- The closed operation set of the decoder table (30_encoding.md R75). -/
inductive Operation where
  | and | asl | bcc | bcs | beq | bne | bpl | cld | cmp | cpx | cpy | dec | dex | dey | inc | inx | iny
  | jmp | jsr | lda | ldx | ldy | lsr | pha | rts | sei | sta | stx | sty | tax | txs
  | unimplemented
deriving DecidableEq, Repr

/-- The closed set of seven addressing modes (30_encoding.md R75). -/
inductive Mode where
  | absolute | accumulator | immediate | implied | indirect | relative | zeropage
deriving DecidableEq, Repr, Inhabited

/-- One entry of the decoder table: the source's `OpCode` (30_encoding.md R74). -/
structure OpCode where
  op   : Operation
  mode : Mode
deriving DecidableEq, Repr

/-- The operand variant of an instruction (30_encoding.md R72): nothing, one byte, or a Word. -/
inductive Operand where
  | nothing
  | byte (b : Byte)
  | word (w : Addr)
deriving DecidableEq, Repr

/-- The content of the instruction latch IR: `{op, mode, operand}` (10_state.md R33). -/
structure Ir where
  op      : Operation
  mode    : Mode
  operand : Operand
deriving DecidableEq, Repr

/-- The instructions, one constructor per (operation, mode) pair of 30_encoding.md R76 and R79. An operand `b` is
the immediate byte, the zero-page address or the raw displacement byte; an operand `w` is the Word `{hi, lo}`. -/
inductive Instr where
  -- 43_shift_logic.md
  | aslAcc
  | lsrAcc
  | andImm (b : Byte)
  | andZp  (b : Byte)
  | andAbs (w : Addr)
  -- 44_load_store.md
  | ldaImm (b : Byte)
  | ldaZp  (b : Byte)
  | ldaAbs (w : Addr)
  | ldxImm (b : Byte)
  | ldxZp  (b : Byte)
  | ldxAbs (w : Addr)
  | ldyImm (b : Byte)
  | ldyZp  (b : Byte)
  | ldyAbs (w : Addr)
  | staZp  (b : Byte)
  | staAbs (w : Addr)
  | stxZp  (b : Byte)
  | stxAbs (w : Addr)
  | styZp  (b : Byte)
  | styAbs (w : Addr)
  -- 45_compare.md
  | cmpImm (b : Byte)
  | cmpZp  (b : Byte)
  | cmpAbs (w : Addr)
  | cpxImm (b : Byte)
  | cpxZp  (b : Byte)
  | cpxAbs (w : Addr)
  | cpyImm (b : Byte)
  | cpyZp  (b : Byte)
  | cpyAbs (w : Addr)
  -- 46_incdec.md
  | incZp  (b : Byte)
  | incAbs (w : Addr)
  | decZp  (b : Byte)
  | decAbs (w : Addr)
  | inx
  | dex
  | iny
  | dey
  -- 41_control_transfer.md
  | bcc (b : Byte)
  | bcs (b : Byte)
  | beq (b : Byte)
  | bne (b : Byte)
  | bpl (b : Byte)
  | jmpAbs (w : Addr)
  | jmpInd (w : Addr)
  | jsr (w : Addr)
  | rts
  -- 42_stack.md
  | pha
  -- 47_flag_transfer.md
  | cld
  | sei
  | tax
  | txs
  -- 30_encoding.md R80: the sentinel of the 205 unpopulated entries, with the raw opcode byte
  | unimplemented (b : Byte)
deriving DecidableEq, Repr

end Sys2Proof
end

