-- ==== Sys2Proof/Config.lean ====
section
/-! DEFINITION. What the spec leaves to the implementation: the named parameters of 00_scope.md R4 that this model
fixes, and the one free value. -/

namespace Sys2Proof

/-- DESIGN CHOICE (log 1, unsafe): RESET_PC is open (10_state.md R35, 92_eei_decisions.md D2); the model starts at the
first address of the PRG window, where every program of 95_test_vectors.md starts. -/
def Config.resetPC : Addr := 0x8000

/-- PRESUMED (log 2, unsafe): RESET_A is open; the family's value, from the note column of 10_state.md R35. -/
def Config.resetA : Byte := 0x00

/-- PRESUMED (log 2, unsafe): RESET_X, as `Config.resetA`. -/
def Config.resetX : Byte := 0x00

/-- PRESUMED (log 2, unsafe): RESET_Y, as `Config.resetA`. -/
def Config.resetY : Byte := 0x00

/-- PRESUMED (log 2, unsafe): RESET_SP is open; the family's value, from the note column of 10_state.md R35. -/
def Config.resetSP : Byte := 0xFD

/-- PRESUMED (log 2, unsafe): RESET_S is open; the family's value, from the note column of 10_state.md R35. -/
def Config.resetS : Byte := 0x34

/-- DESIGN CHOICE (log 3, unsafe): RAM_INIT, PPUREG_INIT and APUREG_INIT are open (20_memory.md R62,
92_eei_decisions.md D4); every cell that memory does not list holds this byte. -/
def Config.unlistedByte : Byte := 0x00

/-- FREE VALUE (log 8, safe): the addressing mode stored in an `unimplemented` decoder entry "is never used and is not
specified" (30_encoding.md R80; 93_implementation_defined.md U12). No body: nothing can be proved of it. -/
opaque Config.unimplementedMode : Byte → Mode

end Sys2Proof
end

