-- ==== Sys2Proof/Decode.lean ====
section
/-! DEFINITION. The decoder table OPTABLE (30_encoding.md R74 to R80), the total decoder from bytes to an instruction
and, after it, the encoder written from the same tables (R71 to R73, R79). -/

namespace Sys2Proof

/-! ## Byte order (00_scope.md R6, 20_memory.md R43) -/

/-- `{high, low}`: the Word with `high` in bits 15 to 8 (00_scope.md R6). -/
def wordOf (high low : Byte) : Addr := high ++ low

/-- `w[15:8]` (00_scope.md R6). -/
def highByte (w : Addr) : Byte := w.extractLsb' 8 8

/-- `w[7:0]` (00_scope.md R6). -/
def lowByte (w : Addr) : Byte := w.extractLsb' 0 8

/-! ## The decoder table -/

/-- The populated entries of rows 0x0A to 0x78 (30_encoding.md R79). -/
def optableRows0 : List (Byte × OpCode) :=
  [ (0x0A, ⟨.asl, .accumulator⟩), (0x10, ⟨.bpl, .relative⟩), (0x20, ⟨.jsr, .absolute⟩), (0x25, ⟨.and, .zeropage⟩),
    (0x29, ⟨.and, .immediate⟩), (0x2D, ⟨.and, .absolute⟩), (0x48, ⟨.pha, .implied⟩), (0x4A, ⟨.lsr, .accumulator⟩),
    (0x4C, ⟨.jmp, .absolute⟩), (0x60, ⟨.rts, .implied⟩), (0x6C, ⟨.jmp, .indirect⟩), (0x78, ⟨.sei, .implied⟩) ]

/-- The populated entries of rows 0x84 to 0x9A (30_encoding.md R79). -/
def optableRows8 : List (Byte × OpCode) :=
  [ (0x84, ⟨.sty, .zeropage⟩), (0x85, ⟨.sta, .zeropage⟩), (0x86, ⟨.stx, .zeropage⟩), (0x88, ⟨.dey, .implied⟩),
    (0x8C, ⟨.sty, .absolute⟩), (0x8D, ⟨.sta, .absolute⟩), (0x8E, ⟨.stx, .absolute⟩), (0x90, ⟨.bcc, .relative⟩),
    (0x9A, ⟨.txs, .implied⟩) ]

/-- The populated entries of rows 0xA0 to 0xB0 (30_encoding.md R79). -/
def optableRowsA : List (Byte × OpCode) :=
  [ (0xA0, ⟨.ldy, .immediate⟩), (0xA2, ⟨.ldx, .immediate⟩), (0xA4, ⟨.ldy, .zeropage⟩), (0xA5, ⟨.lda, .zeropage⟩),
    (0xA6, ⟨.ldx, .zeropage⟩), (0xA9, ⟨.lda, .immediate⟩), (0xAA, ⟨.tax, .implied⟩), (0xAC, ⟨.ldy, .absolute⟩),
    (0xAD, ⟨.lda, .absolute⟩), (0xAE, ⟨.ldx, .absolute⟩), (0xB0, ⟨.bcs, .relative⟩) ]

/-- The populated entries of rows 0xC0 to 0xD8 (30_encoding.md R79). -/
def optableRowsC : List (Byte × OpCode) :=
  [ (0xC0, ⟨.cpy, .immediate⟩), (0xC4, ⟨.cpy, .zeropage⟩), (0xC5, ⟨.cmp, .zeropage⟩), (0xC6, ⟨.dec, .zeropage⟩),
    (0xC8, ⟨.iny, .implied⟩), (0xC9, ⟨.cmp, .immediate⟩), (0xCA, ⟨.dex, .implied⟩), (0xCC, ⟨.cpy, .absolute⟩),
    (0xCD, ⟨.cmp, .absolute⟩), (0xCE, ⟨.dec, .absolute⟩), (0xD0, ⟨.bne, .relative⟩), (0xD8, ⟨.cld, .implied⟩) ]

/-- The populated entries of rows 0xE0 to 0xF0 (30_encoding.md R79). -/
def optableRowsE : List (Byte × OpCode) :=
  [ (0xE0, ⟨.cpx, .immediate⟩), (0xE4, ⟨.cpx, .zeropage⟩), (0xE6, ⟨.inc, .zeropage⟩), (0xE8, ⟨.inx, .implied⟩),
    (0xEC, ⟨.cpx, .absolute⟩), (0xEE, ⟨.inc, .absolute⟩), (0xF0, ⟨.beq, .relative⟩) ]

/-- The 51 populated entries (30_encoding.md R79). PRESUMED (log 5, unsafe): 49 of the 51 opcode bytes are the standard
6502 assignment; 0xA9 and 0x4C are the source's (R77). -/
def optableRows : List (Byte × OpCode) :=
  optableRows0 ++ optableRows8 ++ optableRowsA ++ optableRowsC ++ optableRowsE

/-- The entry that a list of rows gives a byte; a byte it does not list is `unimplemented` (30_encoding.md R80, R91),
with a mode that is a free value (log 8). -/
def lookupRow : List (Byte × OpCode) → Byte → OpCode
  | [], b => ⟨.unimplemented, Config.unimplementedMode b⟩
  | (k, e) :: rest, b => if k = b then e else lookupRow rest b

/-- OPTABLE at its default (30_encoding.md R74, R79, R80): a pure function of the opcode byte
(40_fetch_decode_operands.md R91). -/
def optable (b : Byte) : OpCode := lookupRow optableRows b

/-! ## Lengths and pairs -/

/-- The encoded length of an instruction by its mode (30_encoding.md R70, R72). -/
def modeLength : Mode → Nat
  | .implied => 1
  | .accumulator => 1
  | .immediate => 2
  | .zeropage => 2
  | .relative => 2
  | .absolute => 3
  | .indirect => 3

/-- An operation with the implied mode alone (30_encoding.md R76). -/
def impliedForm (i : Instr) : Mode → Operand → Option Instr
  | .implied, .nothing => some i
  | _, _ => none

/-- An operation with the accumulator mode alone (30_encoding.md R76). -/
def accumulatorForm (i : Instr) : Mode → Operand → Option Instr
  | .accumulator, .nothing => some i
  | _, _ => none

/-- An operation with the relative mode alone (30_encoding.md R76). -/
def relativeForm (i : Byte → Instr) : Mode → Operand → Option Instr
  | .relative, .byte b => some (i b)
  | _, _ => none

/-- An operation with the absolute mode alone (30_encoding.md R76). -/
def absoluteForm (i : Addr → Instr) : Mode → Operand → Option Instr
  | .absolute, .word w => some (i w)
  | _, _ => none

/-- An operation with the absolute and the indirect mode (30_encoding.md R76). -/
def jumpForms (absolute indirect : Addr → Instr) : Mode → Operand → Option Instr
  | .absolute, .word w => some (absolute w)
  | .indirect, .word w => some (indirect w)
  | _, _ => none

/-- An operation with the zeropage and the absolute mode (30_encoding.md R76). -/
def addressForms (zeropage : Byte → Instr) (absolute : Addr → Instr) : Mode → Operand → Option Instr
  | .zeropage, .byte b => some (zeropage b)
  | .absolute, .word w => some (absolute w)
  | _, _ => none

/-- An operation with the immediate, the zeropage and the absolute mode (30_encoding.md R76). -/
def valueForms (immediate zeropage : Byte → Instr) (absolute : Addr → Instr) : Mode → Operand → Option Instr
  | .immediate, .byte b => some (immediate b)
  | .zeropage, .byte b => some (zeropage b)
  | .absolute, .word w => some (absolute w)
  | _, _ => none

/-- The instruction of a populated (operation, mode) pair with the operand variant of its mode, row by row of the matrix
of 30_encoding.md R76 (R72 for the variants); none for every other pair and for an operand of the wrong variant. -/
def instrOfIr (instr : Ir) : Option Instr :=
  match instr.op with
  | .and => valueForms .andImm .andZp .andAbs instr.mode instr.operand
  | .asl => accumulatorForm .aslAcc instr.mode instr.operand
  | .lsr => accumulatorForm .lsrAcc instr.mode instr.operand
  | .bcc => relativeForm .bcc instr.mode instr.operand
  | .bcs => relativeForm .bcs instr.mode instr.operand
  | .beq => relativeForm .beq instr.mode instr.operand
  | .bne => relativeForm .bne instr.mode instr.operand
  | .bpl => relativeForm .bpl instr.mode instr.operand
  | .cld => impliedForm .cld instr.mode instr.operand
  | .sei => impliedForm .sei instr.mode instr.operand
  | .tax => impliedForm .tax instr.mode instr.operand
  | .txs => impliedForm .txs instr.mode instr.operand
  | .pha => impliedForm .pha instr.mode instr.operand
  | .rts => impliedForm .rts instr.mode instr.operand
  | .dex => impliedForm .dex instr.mode instr.operand
  | .dey => impliedForm .dey instr.mode instr.operand
  | .inx => impliedForm .inx instr.mode instr.operand
  | .iny => impliedForm .iny instr.mode instr.operand
  | .cmp => valueForms .cmpImm .cmpZp .cmpAbs instr.mode instr.operand
  | .cpx => valueForms .cpxImm .cpxZp .cpxAbs instr.mode instr.operand
  | .cpy => valueForms .cpyImm .cpyZp .cpyAbs instr.mode instr.operand
  | .dec => addressForms .decZp .decAbs instr.mode instr.operand
  | .inc => addressForms .incZp .incAbs instr.mode instr.operand
  | .jmp => jumpForms .jmpAbs .jmpInd instr.mode instr.operand
  | .jsr => absoluteForm .jsr instr.mode instr.operand
  | .lda => valueForms .ldaImm .ldaZp .ldaAbs instr.mode instr.operand
  | .ldx => valueForms .ldxImm .ldxZp .ldxAbs instr.mode instr.operand
  | .ldy => valueForms .ldyImm .ldyZp .ldyAbs instr.mode instr.operand
  | .sta => addressForms .staZp .staAbs instr.mode instr.operand
  | .stx => addressForms .stxZp .stxAbs instr.mode instr.operand
  | .sty => addressForms .styZp .styAbs instr.mode instr.operand
  | .unimplemented => none

/-! ## The decoder -/

/-- Why a list of bytes gives no instruction. -/
inductive DecodeError where
  /-- There is no opcode byte. -/
  | noOpcodeByte
  /-- The mode needs more operand bytes than are there (30_encoding.md R72). -/
  | missingOperandBytes (e : OpCode)
  /-- The table holds a pair outside 30_encoding.md R76; the default OPTABLE holds none. -/
  | pairNotPopulated (e : OpCode)
deriving DecidableEq, Repr

/-- Assemble the operand of a mode from the bytes after the opcode byte (30_encoding.md R72, R73): the first operand
byte is the low byte of a Word. The rest of the bytes is answered too; none when bytes are missing. -/
def takeOperand : Mode → List Byte → Option (Operand × List Byte)
  | .implied, rest => some (.nothing, rest)
  | .accumulator, rest => some (.nothing, rest)
  | .immediate, b1 :: rest => some (.byte b1, rest)
  | .zeropage, b1 :: rest => some (.byte b1, rest)
  | .relative, b1 :: rest => some (.byte b1, rest)
  | .absolute, b1 :: b2 :: rest => some (.word (wordOf b2 b1), rest)
  | .indirect, b1 :: b2 :: rest => some (.word (wordOf b2 b1), rest)
  | _, _ => none

/-- Decode the first instruction of a list of bytes under a decoder table (40_fetch_decode_operands.md R91 to R93,
without the memory port): the instruction and the bytes after it. No operand byte of an `unimplemented` opcode is
read (R95). -/
def decodeWith (table : Byte → OpCode) : List Byte → Except DecodeError (Instr × List Byte)
  | [] => .error .noOpcodeByte
  | b0 :: rest =>
    if (table b0).op = .unimplemented then .ok (.unimplemented b0, rest)
    else match takeOperand (table b0).mode rest with
      | none => .error (.missingOperandBytes (table b0))
      | some (operand, rest') =>
        match instrOfIr ⟨(table b0).op, (table b0).mode, operand⟩ with
        | none => .error (.pairNotPopulated (table b0))
        | some i => .ok (i, rest')

/-- The decoder under the default OPTABLE. -/
def decode (bytes : List Byte) : Except DecodeError (Instr × List Byte) := decodeWith optable bytes

/-- The bytes of an instruction word whose bits are numbered as spec/opcode_table.json numbers them: byte 0 in bits 7
to 0, byte 1 in bits 15 to 8, byte 2 in bits 23 to 16; bits from `nbits` up are 0. -/
def tableWordBytes (nbits w : Nat) : List Byte :=
  let v := w % 2 ^ (max nbits 8)
  [BitVec.ofNat 8 v, BitVec.ofNat 8 (v / 2 ^ 8), BitVec.ofNat 8 (v / 2 ^ 16)]

/-- The instruction the decoder reads from a table word. -/
def decodeTableWord (nbits w : Nat) : Option Instr :=
  match decode (tableWordBytes nbits w) with
  | .ok (i, _) => some i
  | .error _ => none

/-! ## The encoder -/

/-- One-byte format F1 (30_encoding.md R71). -/
def encodeF1 (opcode : Byte) : List Byte := [opcode]

/-- Two-byte format F2: opcode, then the single operand byte (30_encoding.md R71). -/
def encodeF2 (opcode operand : Byte) : List Byte := [opcode, operand]

/-- Three-byte format F3: opcode, `lo`, `hi` (30_encoding.md R71). -/
def encodeF3 (opcode : Byte) (operand : Addr) : List Byte := [opcode, lowByte operand, highByte operand]

/-- The bytes of an instruction, from the opcode column and the format column of 30_encoding.md R79; the sentinel
`unimplemented` is its raw byte alone (R80). -/
def encode : Instr → List Byte
  | .aslAcc => encodeF1 0x0A
  | .lsrAcc => encodeF1 0x4A
  | .andImm b => encodeF2 0x29 b
  | .andZp b => encodeF2 0x25 b
  | .andAbs w => encodeF3 0x2D w
  | .ldaImm b => encodeF2 0xA9 b
  | .ldaZp b => encodeF2 0xA5 b
  | .ldaAbs w => encodeF3 0xAD w
  | .ldxImm b => encodeF2 0xA2 b
  | .ldxZp b => encodeF2 0xA6 b
  | .ldxAbs w => encodeF3 0xAE w
  | .ldyImm b => encodeF2 0xA0 b
  | .ldyZp b => encodeF2 0xA4 b
  | .ldyAbs w => encodeF3 0xAC w
  | .staZp b => encodeF2 0x85 b
  | .staAbs w => encodeF3 0x8D w
  | .stxZp b => encodeF2 0x86 b
  | .stxAbs w => encodeF3 0x8E w
  | .styZp b => encodeF2 0x84 b
  | .styAbs w => encodeF3 0x8C w
  | .cmpImm b => encodeF2 0xC9 b
  | .cmpZp b => encodeF2 0xC5 b
  | .cmpAbs w => encodeF3 0xCD w
  | .cpxImm b => encodeF2 0xE0 b
  | .cpxZp b => encodeF2 0xE4 b
  | .cpxAbs w => encodeF3 0xEC w
  | .cpyImm b => encodeF2 0xC0 b
  | .cpyZp b => encodeF2 0xC4 b
  | .cpyAbs w => encodeF3 0xCC w
  | .incZp b => encodeF2 0xE6 b
  | .incAbs w => encodeF3 0xEE w
  | .decZp b => encodeF2 0xC6 b
  | .decAbs w => encodeF3 0xCE w
  | .inx => encodeF1 0xE8
  | .dex => encodeF1 0xCA
  | .iny => encodeF1 0xC8
  | .dey => encodeF1 0x88
  | .bcc b => encodeF2 0x90 b
  | .bcs b => encodeF2 0xB0 b
  | .beq b => encodeF2 0xF0 b
  | .bne b => encodeF2 0xD0 b
  | .bpl b => encodeF2 0x10 b
  | .jmpAbs w => encodeF3 0x4C w
  | .jmpInd w => encodeF3 0x6C w
  | .jsr w => encodeF3 0x20 w
  | .rts => encodeF1 0x60
  | .pha => encodeF1 0x48
  | .cld => encodeF1 0xD8
  | .sei => encodeF1 0x78
  | .tax => encodeF1 0xAA
  | .txs => encodeF1 0x9A
  | .unimplemented b => encodeF1 b

end Sys2Proof
end

