-- ==== Sys2Proof/Machine/State.lean ====
section
/-! DEFINITION. The state of the core and of its reference memory environment (10_state.md R20, 20_memory.md R50), the
fault causes (60_exceptions.md R170), the reasons a step stops, and the state after reset (10_state.md R35). -/

namespace Sys2Proof.Machine

/-- The four byte arrays behind the memory port (20_memory.md R50), as one list of cells: RAM at keys 0x0000 to 0x07FF,
PPUREG at 0x2000 to 0x2007, APUREG at 0x4000 to 0x4017, PRGWIN at 0x8000 to 0xFFFF (log 19). Keys strictly rise and no
entry holds `Config.unlistedByte`, which every unlisted cell holds (log 3). -/
abbrev Memory := List Host.Cell

/-- The fault causes with the information they record: the complete list of 60_exceptions.md R170, and last the bus
faults that R170 allows another memory environment. The names are the codes (92_eei_decisions.md D17). All are raised
inside a step phase or a host access and none is ever cleared by the core (10_state.md R34). -/
inductive FaultCause where
  /-- Raised by the decode phase at an opcode byte the table leaves unpopulated (R173). The spec's own fault: safe. -/
  | unimplementedOpcode (byte : Byte) (pc : Addr)
  /-- Answered by the environment for PPU mirrors, the test region and PRG-RAM (R174). The spec's own fault: safe. -/
  | unimplementedRegion (addr : Addr)
  /-- Answered by the environment for the hole below the mapper (R174; log 13). A fault where the source names no
  behaviour: safe. -/
  | invalidAddress (addr : Addr)
  /-- Raised by the address generator when `w + k` leaves 0 to 0xFFFF (40_fetch_decode_operands.md R90). The spec's own
  fault; below 0 it is the spec's decision (log 12): safe. -/
  | wordOverflow (w : Addr) (k : Int)
  /-- Raised by the execute phase for a pair outside 30_encoding.md R76; unreachable with the default OPTABLE
  (40_fetch_decode_operands.md R98): safe. -/
  | resolverMisuse (op : Operation) (mode : Mode)
  /-- Raised by executing the `unimplemented` operation; unreachable in a step (40_fetch_decode_operands.md R101): safe. -/
  | unimplementedOperation
  /-- Answered by a memory environment other than the reference one, under a code of that environment's own, and passed
  on (R170, last paragraph); the reference environment never answers it. The spec's own fault: safe (log 7). -/
  | otherBusFault (code : Nat) (addr : Addr)
deriving DecidableEq, Repr

/-- The complete state: the eight items of 10_state.md R20 and the memory behind the port. -/
structure State where
  /-- A, the accumulator (R21). -/
  a      : Byte
  /-- X, an index register (R22). -/
  x      : Byte
  /-- Y, an index register (R23). -/
  y      : Byte
  /-- SP, the stack pointer, an offset into page 1 (R24). -/
  sp     : Byte
  /-- S, the status register, bits N V U B D I Z C from 7 to 0 (R25). -/
  status : Byte
  /-- PC, the program counter (R32). -/
  pc     : Addr
  /-- IR, the instruction latch between the two phases; empty between steps (R33). -/
  ir     : Option Ir
  /-- HALT, the sticky fault latch (R34). -/
  halt   : Option FaultCause
  /-- The cells behind the memory port (20_memory.md R50, R62). -/
  mem    : Memory
deriving DecidableEq, Repr

/-- How a step stops with a fault (60_exceptions.md R171). -/
inductive Fault where
  /-- A phase raised `cause`: the step's caller is told the cause, and `left` is the state the raise leaves, with the
  cause latched in HALT (R171, R172). Raised by the decode phase, the execute phase or a host access. Safe: the spec's
  own fault outcome (log 4). -/
  | raised (cause : FaultCause) (left : State)
  /-- HALT already holds `cause`, so no step, decode or execute exists (R171): the stuck state. Safe. -/
  | halted (cause : FaultCause)
deriving DecidableEq, Repr

/-- Why the model offers no move. -/
inductive Refusal where
  /-- An instruction with no meaning yet. No arm uses it: every instruction has its meaning. Safe. -/
  | notModelled (mnemonic : String)
  /-- The host requested `Execute` with no latched instruction (92_eei_decisions.md D12; 93_implementation_defined.md
  U13 "refuse"). No step raises it. Safe (log 15). -/
  | executeWithoutDecode
  /-- The host requested a reset with a PRG image of a size that has no launch state (60_exceptions.md R183). No step
  raises it. Safe. -/
  | noLaunchState
deriving DecidableEq, Repr

/-- The machine right after reset: registers at the model's values of RESET_PC (log 1) and RESET_A, RESET_X, RESET_Y,
RESET_SP, RESET_S (log 2), IR empty and HALT none (10_state.md R35), memory with nothing listed (log 3). -/
def State.reset : State where
  a := Config.resetA
  x := Config.resetX
  y := Config.resetY
  sp := Config.resetSP
  status := Config.resetS
  pc := Config.resetPC
  ir := none
  halt := none
  mem := []

end Sys2Proof.Machine
end

