-- ==== Sys2Proof/Machine/Ops.lean ====
section
/-! DEFINITION. The named operations over registers and memory: register writes, the cells and the bus decode
(20_memory.md R50 to R60), raising a fault (60_exceptions.md R171, R172), the memory port (R41, R42), the address
generator (40_fetch_decode_operands.md R90) and the stack (42_stack.md R126, R127). -/

namespace Sys2Proof.Machine

/-! ## Register writes (00_scope.md R7) -/

/-- `A <- v`. -/
def setA (v : Byte) (s : State) : State := { s with a := v }

/-- `X <- v`. -/
def setX (v : Byte) (s : State) : State := { s with x := v }

/-- `Y <- v`. -/
def setY (v : Byte) (s : State) : State := { s with y := v }

/-- `SP <- v`. -/
def setSP (v : Byte) (s : State) : State := { s with sp := v }

/-- `S <- v`, all eight bits. -/
def setStatus (v : Byte) (s : State) : State := { s with status := v }

/-- `PC <- w`. -/
def setPC (w : Addr) (s : State) : State := { s with pc := w }

/-- `IR <- i`, or empty. -/
def setIR (i : Option Ir) (s : State) : State := { s with ir := i }

/-- HALT. -/
def setHalt (c : Option FaultCause) (s : State) : State := { s with halt := c }

/-- The cells behind the port. -/
def setMem (m : Memory) (s : State) : State := { s with mem := m }

/-! ## Cells -/

/-- The keys that name a cell of RAM, PPUREG, APUREG or PRGWIN (20_memory.md R50; log 19). -/
def isCellKey (k : Nat) : Bool :=
  decide (k < 0x0800) || (decide (0x2000 ≤ k) && decide (k < 0x2008)) ||
    (decide (0x4000 ≤ k) && decide (k < 0x4018)) || (decide (0x8000 ≤ k) && decide (k < 0x10000))

/-- The byte in a cell; an unlisted cell holds `Config.unlistedByte` (log 3). -/
def cellGet : Memory → Nat → Byte
  | [], _ => Config.unlistedByte
  | (k', v) :: rest, k => if k' = k then v else cellGet rest k

/-- Take a cell out of the list. -/
def cellErase (m : Memory) (k : Nat) : Memory := m.filter (fun c => decide (c.1 ≠ k))

/-- List a cell, in key order. -/
def cellInsert : Memory → Nat → Byte → Memory
  | [], k, v => [(k, v)]
  | (k', v') :: rest, k, v =>
    if k < k' then (k, v) :: (k', v') :: rest
    else if k = k' then (k, v) :: rest
    else (k', v') :: cellInsert rest k v

/-- Store a byte in a cell and keep the canonical form: a cell that holds the unlisted byte is not listed. -/
def cellSet (m : Memory) (k : Nat) (v : Byte) : Memory :=
  if v = Config.unlistedByte then cellErase m k else cellInsert m k v

/-- The canonical form from key `lo` on: keys rise from `lo`, name cells, and no entry holds the unlisted byte. -/
def cellsCanonical : Nat → Memory → Bool
  | _, [] => true
  | lo, (k, v) :: rest =>
    decide (lo ≤ k) && isCellKey k && decide (v ≠ Config.unlistedByte) && cellsCanonical (k + 1) rest

/-- The canonical form of memory. -/
def Memory.wf (m : Memory) : Bool := cellsCanonical 0 m

/-- Store consecutive bytes in the cells from key `base` on: how an array behind the port is given its launch
contents. -/
def cellsLoad : Nat → List Byte → Memory → Memory
  | _, [], m => m
  | base, b :: rest, m => cellsLoad (base + 1) rest (cellSet m base b)

/-! ## The bus decode of the reference environment -/

/-- The one decode function shared by reads and writes (20_memory.md R51): the cell an address names, or the fault the
environment answers with. -/
def busCell (addr : Addr) : Except FaultCause Nat :=
  let n := addr.toNat
  if n < 0x2000 then .ok (n % 0x0800)                          -- RAM and its three mirrors (R52)
  else if n < 0x2008 then .ok n                                 -- PPUREG (R53)
  else if n < 0x4000 then .error (.unimplementedRegion addr)    -- PPU register mirrors (R54)
  else if n < 0x4018 then .ok n                                 -- APUREG (R55)
  else if n < 0x4020 then .error (.unimplementedRegion addr)    -- disabled test region (R56)
  else if n < 0x6000 then .error (.invalidAddress addr)         -- nothing there (R57; log 13)
  else if n < 0x8000 then .error (.unimplementedRegion addr)    -- PRG-RAM (R59)
  else .ok n                                                    -- PRGWIN (R59, R60)

/-- The environment's answer to a read of one byte (20_memory.md R41, R51). -/
def busRead (addr : Addr) (m : Memory) : Except FaultCause Byte :=
  match busCell addr with
  | .ok k => .ok (cellGet m k)
  | .error c => .error c

/-- The environment's answer to a write of one byte; a write that faults changes no memory (20_memory.md R42, R51). -/
def busWrite (addr : Addr) (v : Byte) (m : Memory) : Except FaultCause Memory :=
  match busCell addr with
  | .ok k => .ok (cellSet m k v)
  | .error c => .error c

/-- The memory environment `MEM` behind the core's port: the pair of functions of 00_scope.md R4 and 92_eei_decisions.md
D4, each of which may fault (20_memory.md R41, R42). It is an argument of every operation that reaches memory, as the
decoder table is of a step, and no part of the state; what it remembers is the list of cells. Whether a read has a side
effect is a property of the environment (R46), so a read answers the byte and the cells after it; a read or a write that
faults changes none (log 7). Where the argument is not written it is `Environment.reference`. -/
structure Environment where
  read  : Addr → Memory → Except FaultCause (Byte × Memory)
  write : Addr → Byte → Memory → Except FaultCause Memory

/-- No read of the environment has a side effect. -/
def Environment.ReadsArePure (env : Environment) : Prop :=
  ∀ addr m v m', env.read addr m = .ok (v, m') → m' = m

/-- The default of `MEM`: the reference environment, NES bus with Mapper0 (20_memory.md R50), where no address has a side
effect on a read (R46). -/
def Environment.reference : Environment where
  read addr m := (busRead addr m).map (fun v => (v, m))
  write := busWrite

/-! ## Raising a fault -/

/-- `raise cause`, the one way any phase takes a fault (60_exceptions.md R171): no later statement is performed, what
was performed stays (R172), the cause is latched in HALT and told to the step's caller. Nothing is saved, no flag, no
mode and no PC is changed (R178), and there is no return from it (R179): only reset clears HALT. -/
def raise {α : Type} (cause : FaultCause) (s : State) : Except Fault α :=
  .error (.raised cause (setHalt (some cause) s))

/-- What a phase answers to the step's caller. -/
def outcome : Except Fault State → Host.Outcome State Fault Refusal
  | .ok t => .next t
  | .error f => .fault f

/-! ## The memory port -/

/-- `MemRead(addr, 1)`: every address is presented as it is, and a fault the environment answers is raised
(20_memory.md R41); the byte and the state after the read. -/
def memRead (addr : Addr) (s : State) (env : Environment := .reference) : Except Fault (Byte × State) :=
  match env.read addr s.mem with
  | .ok (v, m) => .ok (v, setMem m s)
  | .error c => raise c s

/-- `MemWrite(addr, 1, v)`, likewise (20_memory.md R42). -/
def memWrite (addr : Addr) (v : Byte) (s : State) (env : Environment := .reference) : Except Fault State :=
  match env.write addr v s.mem with
  | .ok m => .ok (setMem m s)
  | .error c => raise c s

/-! ## The address generator -/

/-- `WordAdd(w, k)`: exact, or the fault `WordOverflow(w, k)` outside 0 to 0xFFFF (40_fetch_decode_operands.md R90). -/
def wordAdd (w : Addr) (k : Int) (s : State) : Except Fault Addr :=
  let r := (w.toNat : Int) + k
  if r < 0 ∨ 0xFFFF < r then raise (.wordOverflow w k) s else .ok (BitVec.ofInt 16 r)

/-! ## The stack -/

/-- The stack cell SP designates: `{0x01, SP}` (10_state.md R24). -/
def stackAddr (sp : Byte) : Addr := wordOf 0x01 sp

/-- `Push(v)`: write, then decrement SP modulo 256 (42_stack.md R126). -/
def push (v : Byte) (s : State) (env : Environment := .reference) : Except Fault State :=
  match memWrite (stackAddr s.sp) v s env with
  | .error f => .error f
  | .ok t => .ok (setSP (t.sp - 1) t)

/-- `Pop()`: increment SP modulo 256, then read; the byte and the state after it (42_stack.md R127). -/
def pop (s : State) (env : Environment := .reference) : Except Fault (Byte × State) :=
  memRead (stackAddr (s.sp + 1)) (setSP (s.sp + 1) s) env

end Sys2Proof.Machine
end

