-- ==== Sys2Proof/Machine/Flags.lean ====
section
/-! DEFINITION. The bits of the status register S (10_state.md R25) and every flag computation of the spec
(40_fetch_decode_operands.md R102; 43_shift_logic.md R130, R131; 45_compare.md R145). -/

namespace Sys2Proof.Machine

/-! ## Reading single bits of S -/

/-- `S.N`, bit 7. -/
def flagN (s : State) : Bool := s.status.getLsbD 7
/-- `S.V`, bit 6. -/
def flagV (s : State) : Bool := s.status.getLsbD 6
/-- `S.U`, the unused bit 5, a storage bit (10_state.md R31; log 14). -/
def flagU (s : State) : Bool := s.status.getLsbD 5
/-- `S.B`, bit 4. -/
def flagB (s : State) : Bool := s.status.getLsbD 4
/-- `S.D`, bit 3. -/
def flagD (s : State) : Bool := s.status.getLsbD 3
/-- `S.I`, bit 2. -/
def flagI (s : State) : Bool := s.status.getLsbD 2
/-- `S.Z`, bit 1. -/
def flagZ (s : State) : Bool := s.status.getLsbD 1
/-- `S.C`, bit 0. -/
def flagC (s : State) : Bool := s.status.getLsbD 0

/-! ## Writing single bits of S: every other bit keeps its value (00_scope.md R7) -/

/-- Write one bit of a byte. -/
def writeBit (v : Byte) (i : Nat) (b : Bool) : Byte :=
  if b then v ||| (1#8 <<< i) else v &&& ~~~(1#8 <<< i)

/-- `S.N <- b`. -/
def setN (b : Bool) (s : State) : State := setStatus (writeBit s.status 7 b) s
/-- `S.D <- b`. -/
def setD (b : Bool) (s : State) : State := setStatus (writeBit s.status 3 b) s
/-- `S.I <- b`. -/
def setI (b : Bool) (s : State) : State := setStatus (writeBit s.status 2 b) s
/-- `S.Z <- b`. -/
def setZ (b : Bool) (s : State) : State := setStatus (writeBit s.status 1 b) s
/-- `S.C <- b`. -/
def setC (b : Bool) (s : State) : State := setStatus (writeBit s.status 0 b) s

/-! ## Flag computations -/

/-- `SetNZ(v)`: N is bit 7 of the result and Z says the result is 0 (40_fetch_decode_operands.md R102). -/
def setNZ (v : Byte) (s : State) : State := setZ (decide (v = 0)) (setN (v.getLsbD 7) s)

/-- The carry of a left shift: the bit shifted out (43_shift_logic.md R130). -/
def carryOfLeftShift (v : Byte) : Bool := v.getLsbD 7

/-- The carry of a right shift: the bit shifted out (43_shift_logic.md R131). -/
def carryOfRightShift (v : Byte) : Bool := v.getLsbD 0

/-- The carry of a compare: no borrow, `r >= v` on unsigned bytes (45_compare.md R145; log 6). -/
def carryOfCompare (r v : Byte) : Bool := decide (v.toNat ≤ r.toNat)

end Sys2Proof.Machine
end

