-- ==== Sys2Proof/Machine/Operands.lean ====
section
/-! DEFINITION. The addressing-mode multiplexer: the two operand resolvers `Value` and `Address`
(40_fetch_decode_operands.md R96 to R100). Each answers with the state after its reads: in the reference environment
the state it was given. -/

namespace Sys2Proof.Machine

/-- `sext_16(b)` as a mathematical integer: the only signed reading of a byte in the machine (00_scope.md R7). -/
def sext16 (b : Byte) : Int := if b.toNat < 128 then (b.toNat : Int) else (b.toNat : Int) - 256

/-- `{0x00, b}`: the address of a zero-page operand (30_encoding.md R73). -/
def zeroPageAddr (b : Byte) : Addr := wordOf 0x00 b

/-- The relative target `WordAdd(PC, sext_16(b))`, with PC already past the branch (40_fetch_decode_operands.md R99). -/
def relativeTarget (b : Byte) (s : State) : Except Fault Addr := wordAdd s.pc (sext16 b) s

/-- `IndirectTarget(ptr)`: low byte at `ptr`, then high byte at `ptr + 1` with full carry
(40_fetch_decode_operands.md R100; log 11). -/
def indirectTarget (ptr : Addr) (s : State) (env : Environment := .reference) : Except Fault (Addr × State) :=
  match memRead ptr s env with
  | .error f => .error f
  | .ok (lo, s1) =>
    match wordAdd ptr 1 s1 with
    | .error f => .error f
    | .ok next =>
      match memRead next s1 env with
      | .error f => .error f
      | .ok (hi, s2) => .ok (wordOf hi lo, s2)

/-- `Value(instr)`: the byte of a mode that reads a value; a mode that has none is resolver misuse
(40_fetch_decode_operands.md R96, R98). -/
def value (instr : Ir) (s : State) (env : Environment := .reference) : Except Fault (Byte × State) :=
  match instr.mode, instr.operand with
  | .accumulator, .nothing => .ok (s.a, s)
  | .immediate, .byte b => .ok (b, s)
  | .zeropage, .byte b => memRead (zeroPageAddr b) s env
  | .absolute, .word w => memRead w s env
  | _, _ => raise (.resolverMisuse instr.op instr.mode) s

/-- `Address(instr)`: the target Word of a mode that computes an address; a mode that has none is resolver misuse
(40_fetch_decode_operands.md R97, R98). -/
def address (instr : Ir) (s : State) (env : Environment := .reference) : Except Fault (Addr × State) :=
  match instr.mode, instr.operand with
  | .absolute, .word w => .ok (w, s)
  | .zeropage, .byte b => .ok (zeroPageAddr b, s)
  | .relative, .byte b => (relativeTarget b s).map (fun target => (target, s))
  | .indirect, .word w => indirectTarget w s env
  | _, _ => raise (.resolverMisuse instr.op instr.mode) s

end Sys2Proof.Machine
end

