-- ==== Sys2Proof/Machine/Compare.lean ====
section
/-! DEFINITION. Meanings of CMP, CPX and CPY (45_compare.md R145 to R147). -/

namespace Sys2Proof.Machine

/-- The shape of R145 to R147: N and Z from the 8-bit difference, C when the subtraction did not borrow; the register
keeps its value. -/
def compareWith (r : Byte) (instr : Ir) (s : State) (env : Environment := .reference) : Except Fault State :=
  match value instr s env with
  | .error f => .error f
  | .ok (v, t) => .ok (setC (carryOfCompare r v) (setNZ (r - v) t))

/-- CMP immediate (R145). -/
def execCmpImm (b : Byte) (s : State) (env : Environment := .reference) : Host.Outcome State Fault Refusal :=
  outcome (compareWith s.a ⟨.cmp, .immediate, .byte b⟩ s env)

/-- CMP zeropage (R145). -/
def execCmpZp (b : Byte) (s : State) (env : Environment := .reference) : Host.Outcome State Fault Refusal :=
  outcome (compareWith s.a ⟨.cmp, .zeropage, .byte b⟩ s env)

/-- CMP absolute (R145). -/
def execCmpAbs (w : Addr) (s : State) (env : Environment := .reference) : Host.Outcome State Fault Refusal :=
  outcome (compareWith s.a ⟨.cmp, .absolute, .word w⟩ s env)

/-- CPX immediate (R146). -/
def execCpxImm (b : Byte) (s : State) (env : Environment := .reference) : Host.Outcome State Fault Refusal :=
  outcome (compareWith s.x ⟨.cpx, .immediate, .byte b⟩ s env)

/-- CPX zeropage (R146). -/
def execCpxZp (b : Byte) (s : State) (env : Environment := .reference) : Host.Outcome State Fault Refusal :=
  outcome (compareWith s.x ⟨.cpx, .zeropage, .byte b⟩ s env)

/-- CPX absolute (R146). -/
def execCpxAbs (w : Addr) (s : State) (env : Environment := .reference) : Host.Outcome State Fault Refusal :=
  outcome (compareWith s.x ⟨.cpx, .absolute, .word w⟩ s env)

/-- CPY immediate (R147). -/
def execCpyImm (b : Byte) (s : State) (env : Environment := .reference) : Host.Outcome State Fault Refusal :=
  outcome (compareWith s.y ⟨.cpy, .immediate, .byte b⟩ s env)

/-- CPY zeropage (R147). -/
def execCpyZp (b : Byte) (s : State) (env : Environment := .reference) : Host.Outcome State Fault Refusal :=
  outcome (compareWith s.y ⟨.cpy, .zeropage, .byte b⟩ s env)

/-- CPY absolute (R147). -/
def execCpyAbs (w : Addr) (s : State) (env : Environment := .reference) : Host.Outcome State Fault Refusal :=
  outcome (compareWith s.y ⟨.cpy, .absolute, .word w⟩ s env)

end Sys2Proof.Machine
end

