-- ==== Sys2Proof/Machine/ControlTransfer.lean ====
section
/-! DEFINITION. Meanings of the branches, JMP, JSR and RTS (41_control_transfer.md R110 to R119). PC already holds the
address of the byte after the instruction (40_fetch_decode_operands.md R94). -/

namespace Sys2Proof.Machine

/-- `Branch(cond)`: a taken branch goes to its target; a branch that is not taken computes no target (R110). -/
def branch (cond : Bool) (instr : Ir) (s : State) (env : Environment := .reference) : Except Fault State :=
  if cond then
    match address instr s env with
    | .error f => .error f
    | .ok (target, t) => .ok (setPC target t)
  else .ok s

/-- BCC, branch if carry clear (R111). -/
def execBcc (b : Byte) (s : State) (env : Environment := .reference) : Host.Outcome State Fault Refusal :=
  outcome (branch (!flagC s) ⟨.bcc, .relative, .byte b⟩ s env)

/-- BCS, branch if carry set (R112). -/
def execBcs (b : Byte) (s : State) (env : Environment := .reference) : Host.Outcome State Fault Refusal :=
  outcome (branch (flagC s) ⟨.bcs, .relative, .byte b⟩ s env)

/-- BEQ, branch if zero set (R113). -/
def execBeq (b : Byte) (s : State) (env : Environment := .reference) : Host.Outcome State Fault Refusal :=
  outcome (branch (flagZ s) ⟨.beq, .relative, .byte b⟩ s env)

/-- BNE, branch if zero clear (R114). -/
def execBne (b : Byte) (s : State) (env : Environment := .reference) : Host.Outcome State Fault Refusal :=
  outcome (branch (!flagZ s) ⟨.bne, .relative, .byte b⟩ s env)

/-- BPL, branch if negative clear (R115). -/
def execBpl (b : Byte) (s : State) (env : Environment := .reference) : Host.Outcome State Fault Refusal :=
  outcome (branch (!flagN s) ⟨.bpl, .relative, .byte b⟩ s env)

/-- `PC <- Address(instr)` (R116, R117). -/
def jump (instr : Ir) (s : State) (env : Environment := .reference) : Except Fault State :=
  match address instr s env with
  | .error f => .error f
  | .ok (target, t) => .ok (setPC target t)

/-- JMP absolute (R116). -/
def execJmpAbs (w : Addr) (s : State) (env : Environment := .reference) : Host.Outcome State Fault Refusal :=
  outcome (jump ⟨.jmp, .absolute, .word w⟩ s env)

/-- JMP indirect (R117). -/
def execJmpInd (w : Addr) (s : State) (env : Environment := .reference) : Host.Outcome State Fault Refusal :=
  outcome (jump ⟨.jmp, .indirect, .word w⟩ s env)

/-- Push the high byte of a Word first, then the low byte (R118; 20_memory.md R43). -/
def pushWord (w : Addr) (s : State) (env : Environment := .reference) : Except Fault State :=
  match push (highByte w) s env with
  | .error f => .error f
  | .ok t => push (lowByte w) t env

/-- JSR: push PC - 1, high byte first, then jump (R118). -/
def callSubroutine (instr : Ir) (s : State) (env : Environment := .reference) : Except Fault State :=
  match address instr s env with
  | .error f => .error f
  | .ok (target, s1) =>
    match wordAdd s1.pc (-1) s1 with
    | .error f => .error f
    | .ok ret =>
      match pushWord ret s1 env with
      | .error f => .error f
      | .ok t => .ok (setPC target t)

/-- JSR absolute (R118). -/
def execJsr (w : Addr) (s : State) (env : Environment := .reference) : Host.Outcome State Fault Refusal :=
  outcome (callSubroutine ⟨.jsr, .absolute, .word w⟩ s env)

/-- RTS: pop low, then high, add 1, to PC (R119). -/
def returnFromSubroutine (s : State) (env : Environment := .reference) : Except Fault State :=
  match pop s env with
  | .error f => .error f
  | .ok (lo, s1) =>
    match pop s1 env with
    | .error f => .error f
    | .ok (hi, s2) =>
      match wordAdd (wordOf hi lo) 1 s2 with
      | .error f => .error f
      | .ok target => .ok (setPC target s2)

/-- RTS (R119). -/
def execRts (s : State) (env : Environment := .reference) : Host.Outcome State Fault Refusal :=
  outcome (returnFromSubroutine s env)

end Sys2Proof.Machine
end

