-- ==== Sys2Proof/Machine/FlagTransfer.lean ====
section
/-! DEFINITION. Meanings of CLD, SEI, TAX and TXS (47_flag_transfer.md R160 to R163). -/

namespace Sys2Proof.Machine

/-- CLD: `S.D <- 0` (R160). -/
def execCld (s : State) : Host.Outcome State Fault Refusal := .next (setD false s)

/-- SEI: `S.I <- 1` (R161). -/
def execSei (s : State) : Host.Outcome State Fault Refusal := .next (setI true s)

/-- TAX: `X <- A`, then N and Z from the copied value (R162). -/
def execTax (s : State) : Host.Outcome State Fault Refusal := .next (setNZ s.a (setX s.a s))

/-- TXS: `SP <- X`; no flag changes (R163). -/
def execTxs (s : State) : Host.Outcome State Fault Refusal := .next (setSP s.x s)

end Sys2Proof.Machine
end

