-- ==== Sys2Proof/Machine/IncDec.lean ====
section
/-! DEFINITION. Meanings of INC, DEC, INX, DEX, INY and DEY (46_incdec.md R150 to R156). -/

namespace Sys2Proof.Machine

/-- `(v + 1) mod 256` (R156). -/
def increment (v : Byte) : Byte := v + 1

/-- `(v - 1) mod 256` (R156). -/
def decrement (v : Byte) : Byte := v - 1

/-- The shape of R150 and R151: resolve the address, read, write back, then N and Z (log 10). -/
def modifyMemory (f : Byte → Byte) (instr : Ir) (s : State) (env : Environment := .reference) : Except Fault State :=
  match address instr s env with
  | .error e => .error e
  | .ok (addr, s1) =>
    match memRead addr s1 env with
    | .error e => .error e
    | .ok (v, s2) =>
      match memWrite addr (f v) s2 env with
      | .error e => .error e
      | .ok t => .ok (setNZ (f v) t)

/-- INC zeropage (R150). -/
def execIncZp (b : Byte) (s : State) (env : Environment := .reference) : Host.Outcome State Fault Refusal :=
  outcome (modifyMemory increment ⟨.inc, .zeropage, .byte b⟩ s env)

/-- INC absolute (R150). -/
def execIncAbs (w : Addr) (s : State) (env : Environment := .reference) : Host.Outcome State Fault Refusal :=
  outcome (modifyMemory increment ⟨.inc, .absolute, .word w⟩ s env)

/-- DEC zeropage (R151). -/
def execDecZp (b : Byte) (s : State) (env : Environment := .reference) : Host.Outcome State Fault Refusal :=
  outcome (modifyMemory decrement ⟨.dec, .zeropage, .byte b⟩ s env)

/-- DEC absolute (R151). -/
def execDecAbs (w : Addr) (s : State) (env : Environment := .reference) : Host.Outcome State Fault Refusal :=
  outcome (modifyMemory decrement ⟨.dec, .absolute, .word w⟩ s env)

/-- INX (R152). -/
def execInx (s : State) : Host.Outcome State Fault Refusal :=
  .next (setNZ (increment s.x) (setX (increment s.x) s))

/-- DEX (R153). -/
def execDex (s : State) : Host.Outcome State Fault Refusal :=
  .next (setNZ (decrement s.x) (setX (decrement s.x) s))

/-- INY (R154). -/
def execIny (s : State) : Host.Outcome State Fault Refusal :=
  .next (setNZ (increment s.y) (setY (increment s.y) s))

/-- DEY (R155). -/
def execDey (s : State) : Host.Outcome State Fault Refusal :=
  .next (setNZ (decrement s.y) (setY (decrement s.y) s))

end Sys2Proof.Machine
end

