-- ==== Sys2Proof/Machine/LoadStore.lean ====
section
/-! DEFINITION. Meanings of LDA, LDX, LDY, STA, STX and STY (44_load_store.md R135 to R140). -/

namespace Sys2Proof.Machine

/-- The shape of R135 to R137: resolve the value, set N and Z from it, store it in the named register. -/
def loadInto (write : Byte → State → State) (instr : Ir) (s : State) (env : Environment := .reference) :
    Except Fault State :=
  match value instr s env with
  | .error f => .error f
  | .ok (v, t) => .ok (write v (setNZ v t))

/-- The shape of R138 to R140: resolve the address, write the named register's value there; no flag changes. -/
def storeFrom (v : Byte) (instr : Ir) (s : State) (env : Environment := .reference) : Except Fault State :=
  match address instr s env with
  | .error f => .error f
  | .ok (addr, t) => memWrite addr v t env

/-- LDA immediate (R135). -/
def execLdaImm (b : Byte) (s : State) (env : Environment := .reference) : Host.Outcome State Fault Refusal :=
  outcome (loadInto setA ⟨.lda, .immediate, .byte b⟩ s env)

/-- LDA zeropage (R135). -/
def execLdaZp (b : Byte) (s : State) (env : Environment := .reference) : Host.Outcome State Fault Refusal :=
  outcome (loadInto setA ⟨.lda, .zeropage, .byte b⟩ s env)

/-- LDA absolute (R135). -/
def execLdaAbs (w : Addr) (s : State) (env : Environment := .reference) : Host.Outcome State Fault Refusal :=
  outcome (loadInto setA ⟨.lda, .absolute, .word w⟩ s env)

/-- LDX immediate (R136). -/
def execLdxImm (b : Byte) (s : State) (env : Environment := .reference) : Host.Outcome State Fault Refusal :=
  outcome (loadInto setX ⟨.ldx, .immediate, .byte b⟩ s env)

/-- LDX zeropage (R136). -/
def execLdxZp (b : Byte) (s : State) (env : Environment := .reference) : Host.Outcome State Fault Refusal :=
  outcome (loadInto setX ⟨.ldx, .zeropage, .byte b⟩ s env)

/-- LDX absolute (R136). -/
def execLdxAbs (w : Addr) (s : State) (env : Environment := .reference) : Host.Outcome State Fault Refusal :=
  outcome (loadInto setX ⟨.ldx, .absolute, .word w⟩ s env)

/-- LDY immediate (R137). -/
def execLdyImm (b : Byte) (s : State) (env : Environment := .reference) : Host.Outcome State Fault Refusal :=
  outcome (loadInto setY ⟨.ldy, .immediate, .byte b⟩ s env)

/-- LDY zeropage (R137). -/
def execLdyZp (b : Byte) (s : State) (env : Environment := .reference) : Host.Outcome State Fault Refusal :=
  outcome (loadInto setY ⟨.ldy, .zeropage, .byte b⟩ s env)

/-- LDY absolute (R137). -/
def execLdyAbs (w : Addr) (s : State) (env : Environment := .reference) : Host.Outcome State Fault Refusal :=
  outcome (loadInto setY ⟨.ldy, .absolute, .word w⟩ s env)

/-- STA zeropage (R138). -/
def execStaZp (b : Byte) (s : State) (env : Environment := .reference) : Host.Outcome State Fault Refusal :=
  outcome (storeFrom s.a ⟨.sta, .zeropage, .byte b⟩ s env)

/-- STA absolute (R138). -/
def execStaAbs (w : Addr) (s : State) (env : Environment := .reference) : Host.Outcome State Fault Refusal :=
  outcome (storeFrom s.a ⟨.sta, .absolute, .word w⟩ s env)

/-- STX zeropage (R139). -/
def execStxZp (b : Byte) (s : State) (env : Environment := .reference) : Host.Outcome State Fault Refusal :=
  outcome (storeFrom s.x ⟨.stx, .zeropage, .byte b⟩ s env)

/-- STX absolute (R139). -/
def execStxAbs (w : Addr) (s : State) (env : Environment := .reference) : Host.Outcome State Fault Refusal :=
  outcome (storeFrom s.x ⟨.stx, .absolute, .word w⟩ s env)

/-- STY zeropage (R140). -/
def execStyZp (b : Byte) (s : State) (env : Environment := .reference) : Host.Outcome State Fault Refusal :=
  outcome (storeFrom s.y ⟨.sty, .zeropage, .byte b⟩ s env)

/-- STY absolute (R140). -/
def execStyAbs (w : Addr) (s : State) (env : Environment := .reference) : Host.Outcome State Fault Refusal :=
  outcome (storeFrom s.y ⟨.sty, .absolute, .word w⟩ s env)

end Sys2Proof.Machine
end

