-- ==== Sys2Proof/Machine/Sentinel.lean ====
section
/-! DEFINITION. The execute phase of the `unimplemented` sentinel (40_fetch_decode_operands.md R101). -/

namespace Sys2Proof.Machine

/-- Executing `unimplemented` raises `UnimplementedOperation` (R101; 93_implementation_defined.md U4). A step never gets
here: its decode phase has raised `UnimplementedOpcode(b, PC)` before (R95), whatever the raw byte `b` is (log 20). -/
def execUnimplemented (_b : Byte) (s : State) : Host.Outcome State Fault Refusal :=
  outcome (raise .unimplementedOperation s)

end Sys2Proof.Machine
end

