-- ==== Sys2Proof/Machine/ShiftLogic.lean ====
section
/-! DEFINITION. Meanings of ASL, LSR and AND (43_shift_logic.md R130 to R132), each the execute phase alone: PC is
already past the instruction (40_fetch_decode_operands.md R94). -/

namespace Sys2Proof.Machine

/-- The shape of R130 and R131: resolve the value, C from the bit shifted out, the shifted value to A, N and Z. -/
def shiftA (carry : Byte → Bool) (shift : Byte → Byte) (instr : Ir) (s : State) (env : Environment := .reference) :
    Except Fault State :=
  match value instr s env with
  | .error f => .error f
  | .ok (v, t) => .ok (setNZ (shift v) (setA (shift v) (setC (carry v) t)))

/-- ASL A: shift left by one; bit 0 becomes 0 (R130; log 6). -/
def execAslAcc (s : State) (env : Environment := .reference) : Host.Outcome State Fault Refusal :=
  outcome (shiftA carryOfLeftShift (fun v => v <<< 1) ⟨.asl, .accumulator, .nothing⟩ s env)

/-- LSR A: logical shift right by one; bit 7 becomes 0 (R131; log 6). -/
def execLsrAcc (s : State) (env : Environment := .reference) : Host.Outcome State Fault Refusal :=
  outcome (shiftA carryOfRightShift (fun v => v >>> 1) ⟨.lsr, .accumulator, .nothing⟩ s env)

/-- AND: the bitwise AND of A and the operand to A, then N and Z (R132; log 6). -/
def andA (instr : Ir) (s : State) (env : Environment := .reference) : Except Fault State :=
  match value instr s env with
  | .error f => .error f
  | .ok (v, t) => .ok (setNZ (t.a &&& v) (setA (t.a &&& v) t))

/-- AND immediate (R132). -/
def execAndImm (b : Byte) (s : State) (env : Environment := .reference) : Host.Outcome State Fault Refusal :=
  outcome (andA ⟨.and, .immediate, .byte b⟩ s env)

/-- AND zeropage (R132). -/
def execAndZp (b : Byte) (s : State) (env : Environment := .reference) : Host.Outcome State Fault Refusal :=
  outcome (andA ⟨.and, .zeropage, .byte b⟩ s env)

/-- AND absolute (R132). -/
def execAndAbs (w : Addr) (s : State) (env : Environment := .reference) : Host.Outcome State Fault Refusal :=
  outcome (andA ⟨.and, .absolute, .word w⟩ s env)

end Sys2Proof.Machine
end

