-- ==== Sys2Proof/Machine/Stack.lean ====
section
/-! DEFINITION. Meaning of PHA (42_stack.md R128). -/

namespace Sys2Proof.Machine

/-- PHA: `Push(A)`; no flag changes (R128; log 6). -/
def execPha (s : State) (env : Environment := .reference) : Host.Outcome State Fault Refusal :=
  outcome (push s.a s env)

end Sys2Proof.Machine
end

