-- ==== Sys2Proof/Machine/Environment.lean ====
section
/-! DEFINITION. The execute phase under any memory environment (00_scope.md R4, 92_eei_decisions.md D4). `exec` has no
argument for one and is this function at the reference environment (`execIn_reference`, Laws/Environment.lean): both
dispatch to the same meanings. -/

namespace Sys2Proof.Machine

/-- The execute phase of an instruction with every data and stack access through `env`. -/
def execIn (i : Instr) (s : State) (env : Environment) : Host.Outcome State Fault Refusal :=
  match i with
  | .aslAcc => execAslAcc s env
  | .lsrAcc => execLsrAcc s env
  | .andImm b => execAndImm b s env
  | .andZp b => execAndZp b s env
  | .andAbs w => execAndAbs w s env
  | .ldaImm b => execLdaImm b s env
  | .ldaZp b => execLdaZp b s env
  | .ldaAbs w => execLdaAbs w s env
  | .ldxImm b => execLdxImm b s env
  | .ldxZp b => execLdxZp b s env
  | .ldxAbs w => execLdxAbs w s env
  | .ldyImm b => execLdyImm b s env
  | .ldyZp b => execLdyZp b s env
  | .ldyAbs w => execLdyAbs w s env
  | .staZp b => execStaZp b s env
  | .staAbs w => execStaAbs w s env
  | .stxZp b => execStxZp b s env
  | .stxAbs w => execStxAbs w s env
  | .styZp b => execStyZp b s env
  | .styAbs w => execStyAbs w s env
  | .cmpImm b => execCmpImm b s env
  | .cmpZp b => execCmpZp b s env
  | .cmpAbs w => execCmpAbs w s env
  | .cpxImm b => execCpxImm b s env
  | .cpxZp b => execCpxZp b s env
  | .cpxAbs w => execCpxAbs w s env
  | .cpyImm b => execCpyImm b s env
  | .cpyZp b => execCpyZp b s env
  | .cpyAbs w => execCpyAbs w s env
  | .incZp b => execIncZp b s env
  | .incAbs w => execIncAbs w s env
  | .decZp b => execDecZp b s env
  | .decAbs w => execDecAbs w s env
  | .inx => execInx s
  | .dex => execDex s
  | .iny => execIny s
  | .dey => execDey s
  | .bcc b => execBcc b s env
  | .bcs b => execBcs b s env
  | .beq b => execBeq b s env
  | .bne b => execBne b s env
  | .bpl b => execBpl b s env
  | .jmpAbs w => execJmpAbs w s env
  | .jmpInd w => execJmpInd w s env
  | .jsr w => execJsr w s env
  | .rts => execRts s env
  | .pha => execPha s env
  | .cld => execCld s
  | .sei => execSei s
  | .tax => execTax s
  | .txs => execTxs s
  | .unimplemented b => execUnimplemented b s

end Sys2Proof.Machine
end

