-- ==== Sys2Proof/Machine/Phases.lean ====
section
/-! DEFINITION. The two phases of a step (00_scope.md R11): the decode phase with the instruction's fetches
(40_fetch_decode_operands.md R91 to R95) and the execute phase (R101), each under any decoder table and any memory
environment (00_scope.md R4). -/

namespace Sys2Proof.Machine

/-- Read the byte `k` after the opcode: `MemRead(WordAdd(pc0, k), 1)` (40_fetch_decode_operands.md R93). -/
def fetchAfter (pc0 : Addr) (k : Int) (s : State) (env : Environment := .reference) :
    Except Fault (Byte × State) :=
  match wordAdd pc0 k s with
  | .error f => .error f
  | .ok addr => memRead addr s env

/-- One operand byte, at `pc0 + 1` (R92). -/
def fetchByteOperand (pc0 : Addr) (s : State) (env : Environment := .reference) : Except Fault (Operand × State) :=
  match fetchAfter pc0 1 s env with
  | .error f => .error f
  | .ok (b1, s1) => .ok (.byte b1, s1)

/-- Two operand bytes, the low one at `pc0 + 1` first, then the high one at `pc0 + 2` (R92, R93; log 10). -/
def fetchWordOperand (pc0 : Addr) (s : State) (env : Environment := .reference) : Except Fault (Operand × State) :=
  match fetchAfter pc0 1 s env with
  | .error f => .error f
  | .ok (b1, s1) =>
    match fetchAfter pc0 2 s1 env with
    | .error f => .error f
    | .ok (b2, s2) => .ok (.word (wordOf b2 b1), s2)

/-- Exactly the operand bytes the mode needs (R92). -/
def fetchOperand (mode : Mode) (pc0 : Addr) (s : State) (env : Environment := .reference) :
    Except Fault (Operand × State) :=
  match mode with
  | .implied => .ok (.nothing, s)
  | .accumulator => .ok (.nothing, s)
  | .immediate => fetchByteOperand pc0 s env
  | .zeropage => fetchByteOperand pc0 s env
  | .relative => fetchByteOperand pc0 s env
  | .absolute => fetchWordOperand pc0 s env
  | .indirect => fetchWordOperand pc0 s env

/-- `Decode()`: opcode fetch, table lookup, `UnimplementedOpcode` before any operand fetch, operand fetches, then the
advance of PC and the latch of IR, the phase's only writes (R93, R95). -/
def decodeLatch (table : Byte → OpCode) (s : State) (env : Environment := .reference) : Except Fault State :=
  match memRead s.pc s env with
  | .error f => .error f
  | .ok (b0, s1) =>
    if (table b0).op = .unimplemented then raise (.unimplementedOpcode b0 s.pc) s1
    else
      match fetchOperand (table b0).mode s.pc s1 env with
      | .error f => .error f
      | .ok (operand, s2) =>
        match wordAdd s.pc (modeLength (table b0).mode : Int) s2 with
        | .error f => .error f
        | .ok pc' => .ok (setIR (some ⟨(table b0).op, (table b0).mode, operand⟩) (setPC pc' s2))

/-- `Execute(instr)`: the rule of the operation for a populated pair; `UnimplementedOperation` for the sentinel (R101);
`ResolverMisuse` for any other pair (R98; log 22). -/
def executeIr (instr : Ir) (s : State) (env : Environment := .reference) : Host.Outcome State Fault Refusal :=
  if instr.op = .unimplemented then outcome (raise .unimplementedOperation s)
  else
    match instrOfIr instr with
    | some i => execIn i s env
    | none => outcome (raise (.resolverMisuse instr.op instr.mode) s)

/-- The decode primitive the host can request alone (60_exceptions.md R185); disabled while HALT is set (R171). -/
def decodePhaseWith (table : Byte → OpCode) (s : State) (env : Environment := .reference) :
    Host.Outcome State Fault Refusal :=
  match s.halt with
  | some c => .fault (.halted c)
  | none => outcome (decodeLatch table s env)

/-- The execute primitive on the latched instruction, which it consumes (10_state.md R33; 60_exceptions.md R186);
disabled while HALT is set (R171); with nothing latched the model offers no such move (log 15). -/
def executePhase (s : State) (env : Environment := .reference) : Host.Outcome State Fault Refusal :=
  match s.halt with
  | some c => .fault (.halted c)
  | none =>
    match s.ir with
    | none => .refused .executeWithoutDecode
    | some instr => executeIr instr (setIR none s) env

/-- `Step()`: decode, then execute what decode latched (00_scope.md R11); no step exists while HALT is set. -/
def stepWith (table : Byte → OpCode) (s : State) (env : Environment := .reference) : Host.Outcome State Fault Refusal :=
  match s.halt with
  | some c => .fault (.halted c)
  | none =>
    match decodeLatch table s env with
    | .error f => .fault f
    | .ok t => executePhase t env

/-- Put bytes at consecutive addresses through the bus decode, leaving out those at addresses that name no cell: how a
program's bytes are placed from outside the machine (70_reset_and_hazards.md R194; log 9). -/
def placeBytes : Nat → List Byte → Memory → Memory
  | _, [], m => m
  | n, b :: rest, m =>
    placeBytes (n + 1) rest
      (if n < 0x10000 then
        match busCell (BitVec.ofNat 16 n) with
        | .ok k => cellSet m k b
        | .error _ => m
       else m)

end Sys2Proof.Machine
end

