-- ==== Sys2Proof/Machine/Step.lean ====
section
/-! DEFINITION. One step of the machine under the default OPTABLE, and the placement of an instruction where the step
fetches it. -/

namespace Sys2Proof.Machine

/-- One `Step()` (00_scope.md R11) under the default decoder table (30_encoding.md R79) and in the reference memory
environment (20_memory.md R50), the defaults of 00_scope.md R4. -/
def step (s : State) : Host.Outcome State Fault Refusal := stepWith optable s

/-- The state with an instruction's bytes stored where the next step fetches: at PC, PC + 1 and PC + 2 (log 9). -/
def State.withFetchWord (s : State) (nbits w : Nat) : State :=
  setMem (placeBytes s.pc.toNat (tableWordBytes nbits w) s.mem) s

end Sys2Proof.Machine
end

