-- ==== Sys2Proof/Machine/HostPort.lean ====
section
/-! DEFINITION. What the host may do between the step primitives (60_exceptions.md R185, R186): register and memory
access (10_state.md R36, 20_memory.md R63), requesting the phases, and reset as construction
(70_reset_and_hazards.md R190, 20_memory.md R58). -/

namespace Sys2Proof.Machine

/-! ## Construction of a launch state -/

/-- Mapper0 construction (20_memory.md R58): a 32 KiB image fills the window, a 16 KiB image fills both halves, any other
size is a load-time failure outside the core (60_exceptions.md R183). -/
def prgWindow (prg : List Byte) : Option (List Byte) :=
  if prg.length = 0x8000 then some prg
  else if prg.length = 0x4000 then some (prg ++ prg)
  else none

/-- The open launch parameters of 92_eei_decisions.md D2 to D4: RESET_PC, RESET_A, RESET_X, RESET_Y, RESET_SP, RESET_S,
RAM_INIT, PPUREG_INIT, APUREG_INIT and the PRG image. A byte list gives the array's cells from its first on; cells past
its end hold the unlisted byte, and bytes past the array's end are left out. -/
structure Launch where
  pc     : Addr
  a      : Byte
  x      : Byte
  y      : Byte
  sp     : Byte
  status : Byte
  ram    : List Byte
  ppuReg : List Byte
  apuReg : List Byte
  prg    : List Byte
deriving DecidableEq, Repr

/-- The four arrays at launch (20_memory.md R50, R58, R62). -/
def launchMemory (ram ppuReg apuReg window : List Byte) : Memory :=
  cellsLoad 0x8000 window
    (cellsLoad 0x4000 (apuReg.take 24) (cellsLoad 0x2000 (ppuReg.take 8) (cellsLoad 0x0000 (ram.take 0x0800) [])))

/-- Reset is construction (70_reset_and_hazards.md R190): registers at their parameters, IR empty, HALT none, memory as
20_memory.md R58 and R62 build it; no vector is read and nothing is pushed. None for an image with no launch state. -/
def launchState (l : Launch) : Option State :=
  match prgWindow l.prg with
  | none => none
  | some window =>
    some
      { a := l.a, x := l.x, y := l.y, sp := l.sp, status := l.status, pc := l.pc, ir := none, halt := none,
        mem := launchMemory l.ram l.ppuReg l.apuReg window }

/-! ## Host reads -/

/-- `peek` and `peek8`: one byte through the bus decode, with its faults (20_memory.md R63; log 16). DESIGN CHOICE
(log 23): how `peek` differs from `peek8` is not in the source (91_not_in_source.md N9); here both names are this one
read. -/
def hostPeek (addr : Addr) (s : State) (env : Environment := .reference) : Except Fault (Byte × State) :=
  memRead addr s env

/-- `peek16`: low byte at the address, then high byte at the address + 1 (20_memory.md R63; log 11). DESIGN CHOICE
(log 24): at 0xFFFF, where no rule names a host access, it raises `WordOverflow(0xFFFF, 1)` and latches HALT. -/
def hostPeek16 (addr : Addr) (s : State) (env : Environment := .reference) : Except Fault (Addr × State) :=
  indirectTarget addr s env

/-- `poke16`: low byte at the address, then high byte at the address + 1 (20_memory.md R63; log 11). DESIGN CHOICE
(log 24): at 0xFFFF, where no rule names a host access, the low byte is written, then `WordOverflow(0xFFFF, 1)` is
raised and latched in HALT. -/
def hostPoke16 (addr w : Addr) (s : State) (env : Environment := .reference) : Except Fault State :=
  match memWrite addr (lowByte w) s env with
  | .error f => .error f
  | .ok t =>
    match wordAdd addr 1 t with
    | .error f => .error f
    | .ok next => memWrite next (highByte w) t env

/-! ## Host moves -/

/-- The host's moves that can change the state (60_exceptions.md R185): a memory read can by a fault, or in an environment
whose reads have side effects; what it answers is `hostPeek`'s or `hostPeek16`'s. Reading a register changes nothing. -/
inductive HostMove where
  | writeA (v : Byte)
  | writeX (v : Byte)
  | writeY (v : Byte)
  | writeSP (v : Byte)
  | writeS (v : Byte)
  | writePC (w : Addr)
  | peek (addr : Addr)
  | peek16 (addr : Addr)
  | poke (addr : Addr) (v : Byte)
  | poke16 (addr w : Addr)
  | decode
  | execute
  | step
  | reset (l : Launch)
deriving DecidableEq, Repr

/-- One host move, between step primitives. A register write replaces all bits (10_state.md R36); register and memory
access stay possible while the core is halted (93_implementation_defined.md U7); only reset clears HALT
(70_reset_and_hazards.md R190), and it builds the arrays of the reference environment. The decoder table and the memory
environment are arguments, as in `stepWith`. -/
def hostMove (m : HostMove) (s : State) (table : Byte → OpCode := optable) (env : Environment := .reference) :
    Host.Outcome State Fault Refusal :=
  match m with
  | .writeA v => .next (setA v s)
  | .writeX v => .next (setX v s)
  | .writeY v => .next (setY v s)
  | .writeSP v => .next (setSP v s)
  | .writeS v => .next (setStatus v s)
  | .writePC w => .next (setPC w s)
  | .peek addr => outcome ((hostPeek addr s env).map Prod.snd)
  | .peek16 addr => outcome ((hostPeek16 addr s env).map Prod.snd)
  | .poke addr v => outcome (memWrite addr v s env)
  | .poke16 addr w => outcome (hostPoke16 addr w s env)
  | .decode => decodePhaseWith table s env
  | .execute => executePhase s env
  | .step => stepWith table s env
  | .reset l =>
    match launchState l with
    | some t => .next t
    | none => .refused .noLaunchState

end Sys2Proof.Machine
end

