-- ==== Sys2Proof/WellFormed.lean ====
section
/-! DEFINITION. Which terms of `Instr` are instructions of the hardware. Operand bytes have no illegal values
(30_encoding.md R81), so the one check is that the sentinel holds a byte the table leaves unpopulated (R80). -/

namespace Sys2Proof

/-- Well-formed: an `unimplemented b` is one of the 205 bytes of 30_encoding.md R80; every other instruction always is
(R81). -/
def Instr.wf : Instr → Bool
  | .unimplemented b => decide ((optable b).op = .unimplemented)
  | .aslAcc | .lsrAcc => true
  | .andImm _ | .andZp _ | .andAbs _ => true
  | .ldaImm _ | .ldaZp _ | .ldaAbs _ | .ldxImm _ | .ldxZp _ | .ldxAbs _ | .ldyImm _ | .ldyZp _ | .ldyAbs _ => true
  | .staZp _ | .staAbs _ | .stxZp _ | .stxAbs _ | .styZp _ | .styAbs _ => true
  | .cmpImm _ | .cmpZp _ | .cmpAbs _ | .cpxImm _ | .cpxZp _ | .cpxAbs _ | .cpyImm _ | .cpyZp _ | .cpyAbs _ => true
  | .incZp _ | .incAbs _ | .decZp _ | .decAbs _ | .inx | .dex | .iny | .dey => true
  | .bcc _ | .bcs _ | .beq _ | .bne _ | .bpl _ => true
  | .jmpAbs _ | .jmpInd _ | .jsr _ | .rts | .pha => true
  | .cld | .sei | .tax | .txs => true

end Sys2Proof
end

