-- ==== Sys2Proof/Safety.lean ====
section
/-! DEFINITION. What counts as a good state, a safe run and the end of a run, and the frame predicates that claims are
written with. -/

namespace Sys2Proof.Machine

/-- The invariant between steps: the memory list is canonical and names only cells (20_memory.md R50), no instruction is
latched (10_state.md R33) and the core is not halted (10_state.md R34). -/
structure Inv (s : State) : Prop where
  memory  : s.mem.wf = true
  noLatch : s.ir = none
  running : s.halt = none

/-- A run of `n` steps raises no fault (60_exceptions.md R171: "no fault raised" is to be proved, never assumed). -/
def RunsFor : Nat → State → Prop
  | 0, _ => True
  | n + 1, s => ∃ t, step s = .next t ∧ RunsFor n t

/-- The end-of-run convention (70_reset_and_hazards.md R195; log 18): PC holds the address of a JMP absolute to its own
address, `4C lo hi` at `{hi, lo}`, in a core that can still step and with room for the step to advance PC past the three
bytes, which at 0xFFFD to 0xFFFF there is not (95_test_vectors.md, part 4, item 8). The core does not detect it. -/
structure Ended (s : State) : Prop where
  running : s.halt = none
  noLatch : s.ir = none
  room    : s.pc.toNat ≤ 0xFFFC
  opcode  : busRead s.pc s.mem = .ok 0x4C
  low     : busRead (s.pc + 1) s.mem = .ok (lowByte s.pc)
  high    : busRead (s.pc + 2) s.mem = .ok (highByte s.pc)

/-! ## Frames -/

/-- Every address reads as before. -/
def SameMemory (s t : State) : Prop := ∀ addr, busRead addr t.mem = busRead addr s.mem

/-- The byte `v` is stored at `addr` and nowhere else: every address that names the same cell reads `v` (RAM mirrors,
20_memory.md R52), every other address reads as before. -/
def StoredOnly (addr : Addr) (v : Byte) (s t : State) : Prop :=
  (∀ a, busCell a = busCell addr → busRead a t.mem = .ok v) ∧
  (∀ a, busCell a ≠ busCell addr → busRead a t.mem = busRead a s.mem)

/-- The bits of S outside the list keep their values. -/
def SameFlagsExcept (bits : List Nat) (s t : State) : Prop :=
  ∀ i, i ∉ bits → t.status.getLsbD i = s.status.getLsbD i

/-- N and Z follow the result `r` (40_fetch_decode_operands.md R102). -/
def NZOf (r : Byte) (t : State) : Prop := flagN t = r.getLsbD 7 ∧ flagZ t = decide (r = 0)

/-- IR and HALT keep their values. -/
def SameLatches (s t : State) : Prop := t.ir = s.ir ∧ t.halt = s.halt

/-- A, X, Y and SP keep their values. -/
def SameRegisters (s t : State) : Prop := t.a = s.a ∧ t.x = s.x ∧ t.y = s.y ∧ t.sp = s.sp

end Sys2Proof.Machine
end

