-- ==== Sys2Proof/Certificates/Slice0/Obligations.lean ====
section
/-! DEFINITION. The statements for the provers, each from the numbered rules of spec/. -/

namespace Sys2Proof.Machine

/-! ## Tables written out a second time, from the spec's grid and matrix -/

/-- The 51 populated opcode bytes, row by row of the grid of 30_encoding.md R79. -/
def populatedOpcodes : List Byte :=
  [0x0A] ++ [0x10] ++ [0x20, 0x25, 0x29, 0x2D] ++ [0x48, 0x4A, 0x4C] ++ [0x60, 0x6C] ++ [0x78] ++
    [0x84, 0x85, 0x86, 0x88, 0x8C, 0x8D, 0x8E] ++ [0x90, 0x9A] ++
    [0xA0, 0xA2, 0xA4, 0xA5, 0xA6, 0xA9, 0xAA, 0xAC, 0xAD, 0xAE] ++ [0xB0] ++
    [0xC0, 0xC4, 0xC5, 0xC6, 0xC8, 0xC9, 0xCA, 0xCC, 0xCD, 0xCE] ++ [0xD0, 0xD8] ++
    [0xE0, 0xE4, 0xE6, 0xE8, 0xEC, 0xEE] ++ [0xF0]

/-- The "yes" cells of the (operation, mode) matrix of 30_encoding.md R76. -/
def populatedPair (op : Operation) (mode : Mode) : Bool :=
  match op with
  | .and | .cmp | .cpx | .cpy | .lda | .ldx | .ldy =>
    decide (mode = .immediate) || decide (mode = .zeropage) || decide (mode = .absolute)
  | .asl | .lsr => decide (mode = .accumulator)
  | .bcc | .bcs | .beq | .bne | .bpl => decide (mode = .relative)
  | .cld | .sei | .tax | .txs | .pha | .rts | .dex | .dey | .inx | .iny => decide (mode = .implied)
  | .dec | .inc | .sta | .stx | .sty => decide (mode = .zeropage) || decide (mode = .absolute)
  | .jmp => decide (mode = .absolute) || decide (mode = .indirect)
  | .jsr => decide (mode = .absolute)
  | .unimplemented => false

/-- The length of the instruction an opcode byte begins (30_encoding.md R70). -/
def instructionLength (b0 : Byte) : Nat := modeLength (optable b0).mode

/-! ## Who writes what (10_state.md R21 to R32) -/

/-- The writers of A (R21). -/
def writesA : Instr → Bool
  | .andImm _ | .andZp _ | .andAbs _ | .aslAcc | .lsrAcc | .ldaImm _ | .ldaZp _ | .ldaAbs _ => true
  | _ => false

/-- The writers of X (R22). -/
def writesX : Instr → Bool
  | .ldxImm _ | .ldxZp _ | .ldxAbs _ | .dex | .inx | .tax => true
  | _ => false

/-- The writers of Y (R23). -/
def writesY : Instr → Bool
  | .ldyImm _ | .ldyZp _ | .ldyAbs _ | .dey | .iny => true
  | _ => false

/-- The writers of SP (R24). -/
def writesSP : Instr → Bool
  | .pha | .jsr _ | .rts | .txs => true
  | _ => false

/-- The writers of PC in the execute phase (R32). -/
def writesPC : Instr → Bool
  | .bcc _ | .bcs _ | .beq _ | .bne _ | .bpl _ | .jmpAbs _ | .jmpInd _ | .jsr _ | .rts => true
  | _ => false

/-- The instructions with a data write or a stack write (20_memory.md R40). -/
def writesMemory : Instr → Bool
  | .staZp _ | .staAbs _ | .stxZp _ | .stxAbs _ | .styZp _ | .styAbs _ | .incZp _ | .incAbs _ | .decZp _ | .decAbs _
  | .pha | .jsr _ => true
  | _ => false

/-- The compares (R28). -/
def isCompare : Instr → Bool
  | .cmpImm _ | .cmpZp _ | .cmpAbs _ | .cpxImm _ | .cpxZp _ | .cpxAbs _ | .cpyImm _ | .cpyZp _ | .cpyAbs _ => true
  | _ => false

/-- The writers of C (R28). -/
def writesC : Instr → Bool
  | .aslAcc | .lsrAcc => true
  | i => isCompare i

/-- The sixteen operations that write N and Z (R26, R27). -/
def writesNZ : Instr → Bool
  | .andImm _ | .andZp _ | .andAbs _ | .aslAcc | .lsrAcc
  | .ldaImm _ | .ldaZp _ | .ldaAbs _ | .ldxImm _ | .ldxZp _ | .ldxAbs _ | .ldyImm _ | .ldyZp _ | .ldyAbs _
  | .incZp _ | .incAbs _ | .decZp _ | .decAbs _ | .inx | .dex | .iny | .dey | .tax => true
  | i => isCompare i

/-! ## Shapes of instruction statements -/

/-- What every result-computing instruction leaves besides its destination: N and Z of the result, every other flag,
PC, the latches and all of memory as before. -/
def ResultEffect (r : Byte) (s t : State) : Prop :=
  NZOf r t ∧ SameFlagsExcept [1, 7] s t ∧ t.pc = s.pc ∧ SameLatches s t ∧ SameMemory s t

/-- One data read at `addr`, then the effect; a read that faults leaves the state but for HALT. -/
def ReadsThen (i : Instr) (addr : Addr) (effect : Byte → State → State → Prop) : Prop :=
  ∀ s, (∀ v, busRead addr s.mem = .ok v → ∃ t, exec i s = .next t ∧ effect v s t) ∧
    (∀ c, busRead addr s.mem = .error c → exec i s = .fault (.raised c (setHalt (some c) s)))

/-- The immediate, zeropage and absolute forms of a value operand; the zeropage operand `b` is the address `{0x00, b}`
(30_encoding.md R73). -/
def ValueForms (imm zp : Byte → Instr) (abs : Addr → Instr) (effect : Byte → State → State → Prop) : Prop :=
  (∀ b s, ∃ t, exec (imm b) s = .next t ∧ effect b s t) ∧
  (∀ b, (zeroPageAddr b).toNat = b.toNat ∧ ReadsThen (zp b) (zeroPageAddr b) effect) ∧
  (∀ w, ReadsThen (abs w) w effect)

/-- The register `reg` is stored at the address the resolver answers, and nothing else changes; a write that faults
leaves the state but for HALT. -/
def StoresAt (i : Instr) (instr : Ir) (addr : Addr) (reg : State → Byte) : Prop :=
  ∀ s, address instr s = .ok (addr, s) ∧
    (∀ k, busCell addr = .ok k → ∃ t, exec i s = .next t ∧ StoredOnly addr (reg s) s t ∧ SameRegisters s t ∧
      t.status = s.status ∧ t.pc = s.pc ∧ SameLatches s t) ∧
    (∀ c, busCell addr = .error c → exec i s = .fault (.raised c (setHalt (some c) s)))

/-- The zeropage and absolute forms of a store; the zeropage address is `{0x00, b}` (40_fetch_decode_operands.md R97). -/
def StoreForms (zp : Byte → Instr) (abs : Addr → Instr) (op : Operation) (reg : State → Byte) : Prop :=
  (∀ b, (zeroPageAddr b).toNat = b.toNat ∧ StoresAt (zp b) ⟨op, .zeropage, .byte b⟩ (zeroPageAddr b) reg) ∧
  (∀ w, StoresAt (abs w) ⟨op, .absolute, .word w⟩ w reg)

/-- The cell at the address the resolver answers is read, `delta` is added modulo 256, the result is written back and
sets N and Z; a read that faults leaves the state but for HALT. -/
def ModifiesAt (i : Instr) (instr : Ir) (addr : Addr) (delta : Nat) : Prop :=
  ∀ s, address instr s = .ok (addr, s) ∧
    (∀ v, busRead addr s.mem = .ok v → ∃ t r, exec i s = .next t ∧ r.toNat = (v.toNat + delta) % 256 ∧
      StoredOnly addr r s t ∧ NZOf r t ∧ SameFlagsExcept [1, 7] s t ∧ SameRegisters s t ∧ t.pc = s.pc ∧
      SameLatches s t) ∧
    (∀ c, busRead addr s.mem = .error c → exec i s = .fault (.raised c (setHalt (some c) s)))

/-- The zeropage and absolute forms of INC or DEC; the zeropage address is `{0x00, b}` (40_fetch_decode_operands.md
R97). -/
def ModifyForms (zp : Byte → Instr) (abs : Addr → Instr) (op : Operation) (delta : Nat) : Prop :=
  (∀ b, (zeroPageAddr b).toNat = b.toNat ∧ ModifiesAt (zp b) ⟨op, .zeropage, .byte b⟩ (zeroPageAddr b) delta) ∧
  (∀ w, ModifiesAt (abs w) ⟨op, .absolute, .word w⟩ w delta)

/-- The effect of a compare of the register `reg` (45_compare.md R145): the difference is in no register. -/
def CompareEffect (reg : State → Byte) (v : Byte) (s t : State) : Prop :=
  (∃ r : Byte, r.toNat = ((reg s).toNat + (256 - v.toNat)) % 256 ∧ NZOf r t) ∧
  flagZ t = decide (reg s = v) ∧ flagC t = decide (v.toNat ≤ (reg s).toNat) ∧
  SameFlagsExcept [0, 1, 7] s t ∧ SameRegisters s t ∧ t.pc = s.pc ∧ SameLatches s t ∧ SameMemory s t

/-- A conditional branch (41_control_transfer.md R110): not taken, nothing changes; taken, PC alone changes to
PC + displacement; a taken branch whose target is no address faults, and PC keeps the advanced value. -/
def BranchesWhen (i : Byte → Instr) (cond : State → Bool) : Prop :=
  ∀ b s,
    (cond s = false → exec (i b) s = .next s) ∧
    (cond s = true → ∀ target : Addr, (target.toNat : Int) = s.pc.toNat + b.toInt →
      exec (i b) s = .next (setPC target s)) ∧
    (cond s = true → ((s.pc.toNat : Int) + b.toInt < 0 ∨ 0xFFFF < (s.pc.toNat : Int) + b.toInt) →
      exec (i b) s =
        .fault (.raised (.wordOverflow s.pc b.toInt) (setHalt (some (.wordOverflow s.pc b.toInt)) s)))

/-! ## Shapes of statements about any memory environment -/

/-- The environment answers these bytes at consecutive addresses from `addr` on, one read after the other, and its reads
take the cells from `m` to `m'`. -/
def Answers (env : Environment) : Addr → List Byte → Memory → Memory → Prop
  | _, [], m, m' => m' = m
  | addr, b :: rest, m, m' => ∃ m1, env.read addr m = .ok (b, m1) ∧ Answers env (addr + 1) rest m1 m'

/-- One data read of `addr` in any environment: with the byte it answers the form runs as its immediate form of that byte,
on the cells the read leaves; a fault it answers is raised and nothing else has changed. -/
def ReadsThrough (i : Instr) (imm : Byte → Instr) (addr : Addr) : Prop :=
  ∀ (env : Environment) (s : State),
    (∀ v m, env.read addr s.mem = .ok (v, m) → execIn i s env = exec (imm v) (setMem m s)) ∧
    (∀ c, env.read addr s.mem = .error c → execIn i s env = .fault (.raised c (setHalt (some c) s)))

/-- One data write of the register `reg` at `addr` in any environment. -/
def StoresThrough (i : Instr) (addr : Addr) (reg : State → Byte) : Prop :=
  ∀ (env : Environment) (s : State),
    (∀ m, env.write addr (reg s) s.mem = .ok m → execIn i s env = .next (setMem m s)) ∧
    (∀ c, env.write addr (reg s) s.mem = .error c → execIn i s env = .fault (.raised c (setHalt (some c) s)))

/-- One data read of `addr`, then one write of the byte plus `delta` modulo 256 there, in any environment. -/
def ModifiesThrough (i : Instr) (addr : Addr) (delta : Nat) : Prop :=
  ∀ (env : Environment) (s : State),
    (∀ c, env.read addr s.mem = .error c → execIn i s env = .fault (.raised c (setHalt (some c) s))) ∧
    (∀ v r m, env.read addr s.mem = .ok (v, m) → r.toNat = (v.toNat + delta) % 256 →
      (∀ m', env.write addr r m = .ok m' → execIn i s env = .next (setNZ r (setMem m' s))) ∧
      (∀ c, env.write addr r m = .error c → execIn i s env = .fault (.raised c (setHalt (some c) (setMem m s)))))

/-- The two pointer reads of JMP indirect, low byte first, in any environment. -/
def JumpsThrough (ptr : Addr) : Prop :=
  ∀ (env : Environment) (s : State),
    (∀ c, env.read ptr s.mem = .error c → execIn (.jmpInd ptr) s env = .fault (.raised c (setHalt (some c) s))) ∧
    (∀ lo m, ptr ≠ 0xFFFF → env.read ptr s.mem = .ok (lo, m) →
      (∀ c, env.read (ptr + 1) m = .error c →
        execIn (.jmpInd ptr) s env = .fault (.raised c (setHalt (some c) (setMem m s)))) ∧
      (∀ hi m', env.read (ptr + 1) m = .ok (hi, m') →
        execIn (.jmpInd ptr) s env = .next (setPC (wordOf hi lo) (setMem m' s))))

/-- The zeropage and absolute forms of an instruction. -/
def BothForms (zp : Byte → Instr) (abs : Addr → Instr) (shape : Instr → Addr → Prop) : Prop :=
  (∀ b, shape (zp b) (zeroPageAddr b)) ∧ (∀ w, shape (abs w) w)

/-! ## Shapes of machine statements -/

/-- The decode phase, alone or in a step, raises `c` and changes nothing but HALT (40_fetch_decode_operands.md R95). -/
def DecodeRaises (s : State) (c : FaultCause) : Prop :=
  decodePhaseWith optable s = .fault (.raised c (setHalt (some c) s)) ∧
  step s = .fault (.raised c (setHalt (some c) s))

/-- Equal but for the bits V, U, B, D and I of S. -/
def AgreeButUnread (s t : State) : Prop :=
  t.a = s.a ∧ t.x = s.x ∧ t.y = s.y ∧ t.sp = s.sp ∧ t.pc = s.pc ∧ t.ir = s.ir ∧ t.halt = s.halt ∧ t.mem = s.mem ∧
  flagN t = flagN s ∧ flagZ t = flagZ s ∧ flagC t = flagC s

/-- Two outcomes no observer of A, X, Y, SP, PC, N, Z, C, memory and faults can tell apart. -/
def OutcomesAgree : Host.Outcome State Fault Refusal → Host.Outcome State Fault Refusal → Prop
  | .next s, .next t => AgreeButUnread s t
  | .fault (.raised c s), .fault (.raised d t) => d = c ∧ AgreeButUnread s t
  | .fault (.halted c), .fault (.halted d) => d = c
  | _, _ => False

end Sys2Proof.Machine

open Sys2Proof Sys2Proof.Machine

/-! ## Encoding -/

/-- 30_encoding.md R77: the two opcode bytes the source states. -/
def Obligations.AttestedOpcodeBytesDecode : Prop :=
  (∀ b rest, decode (0xA9 :: b :: rest) = .ok (.ldaImm b, rest)) ∧
  (∀ lo hi rest, decode (0x4C :: lo :: hi :: rest) = .ok (.jmpAbs (wordOf hi lo), rest))

/-- Words of spec/opcode_table.json, one of each family, with operand bits all different; 49 of the 51 opcode bytes are
PRESUMED (log 5). -/
def Obligations.TableWordsDecodeToTheirRows : Prop :=
  decodeTableWord 8 0x0A = some .aslAcc ∧ decodeTableWord 16 0x0F29 = some (.andImm 0x0F) ∧
  decodeTableWord 24 0x1234AE = some (.ldxAbs 0x1234) ∧ decodeTableWord 16 0x1084 = some (.styZp 0x10) ∧
  decodeTableWord 24 0x0210CC = some (.cpyAbs 0x0210) ∧ decodeTableWord 16 0x10C6 = some (.decZp 0x10) ∧
  decodeTableWord 16 0xFBD0 = some (.bne 0xFB) ∧ decodeTableWord 24 0x00306C = some (.jmpInd 0x0030) ∧
  decodeTableWord 24 0x900020 = some (.jsr 0x9000) ∧ decodeTableWord 8 0x48 = some .pha ∧
  decodeTableWord 8 0x9A = some .txs ∧ decodeTableWord 8 0xEA = some (.unimplemented 0xEA)

/-- 30_encoding.md R74, R80: the table is total, 51 bytes are populated and 205 are not; the contents are the default of
OPTABLE (log 5). -/
def Obligations.OptableLeaves205BytesUnimplemented : Prop :=
  ((List.range 256).filter (fun n => decide ((optable (BitVec.ofNat 8 n)).op = .unimplemented))).length = 205 ∧
  (∀ b : Byte, (optable b).op ≠ .unimplemented ↔ b ∈ populatedOpcodes)

/-- 30_encoding.md R71, R79: the bytes of each of the 51 populated entries, in its format F1, F2 or F3. 0xA9 and 0x4C are
the source's; the other 49 opcode bytes are PRESUMED (log 5). -/
def Obligations.EncodingsAreTheDefaultTable : Prop :=
  encode .aslAcc = [0x0A] ∧ encode .lsrAcc = [0x4A] ∧ (∀ b, encode (.andImm b) = [0x29, b]) ∧
  (∀ b, encode (.andZp b) = [0x25, b]) ∧ (∀ w, encode (.andAbs w) = [0x2D, lowByte w, highByte w]) ∧
  (∀ b, encode (.ldaImm b) = [0xA9, b]) ∧ (∀ b, encode (.ldaZp b) = [0xA5, b]) ∧
  (∀ w, encode (.ldaAbs w) = [0xAD, lowByte w, highByte w]) ∧ (∀ b, encode (.ldxImm b) = [0xA2, b]) ∧
  (∀ b, encode (.ldxZp b) = [0xA6, b]) ∧ (∀ w, encode (.ldxAbs w) = [0xAE, lowByte w, highByte w]) ∧
  (∀ b, encode (.ldyImm b) = [0xA0, b]) ∧ (∀ b, encode (.ldyZp b) = [0xA4, b]) ∧
  (∀ w, encode (.ldyAbs w) = [0xAC, lowByte w, highByte w]) ∧ (∀ b, encode (.staZp b) = [0x85, b]) ∧
  (∀ w, encode (.staAbs w) = [0x8D, lowByte w, highByte w]) ∧ (∀ b, encode (.stxZp b) = [0x86, b]) ∧
  (∀ w, encode (.stxAbs w) = [0x8E, lowByte w, highByte w]) ∧ (∀ b, encode (.styZp b) = [0x84, b]) ∧
  (∀ w, encode (.styAbs w) = [0x8C, lowByte w, highByte w]) ∧ (∀ b, encode (.cmpImm b) = [0xC9, b]) ∧
  (∀ b, encode (.cmpZp b) = [0xC5, b]) ∧ (∀ w, encode (.cmpAbs w) = [0xCD, lowByte w, highByte w]) ∧
  (∀ b, encode (.cpxImm b) = [0xE0, b]) ∧ (∀ b, encode (.cpxZp b) = [0xE4, b]) ∧
  (∀ w, encode (.cpxAbs w) = [0xEC, lowByte w, highByte w]) ∧ (∀ b, encode (.cpyImm b) = [0xC0, b]) ∧
  (∀ b, encode (.cpyZp b) = [0xC4, b]) ∧ (∀ w, encode (.cpyAbs w) = [0xCC, lowByte w, highByte w]) ∧
  (∀ b, encode (.incZp b) = [0xE6, b]) ∧ (∀ w, encode (.incAbs w) = [0xEE, lowByte w, highByte w]) ∧
  (∀ b, encode (.decZp b) = [0xC6, b]) ∧ (∀ w, encode (.decAbs w) = [0xCE, lowByte w, highByte w]) ∧
  encode .inx = [0xE8] ∧ encode .dex = [0xCA] ∧ encode .iny = [0xC8] ∧ encode .dey = [0x88] ∧
  (∀ b, encode (.bcc b) = [0x90, b]) ∧ (∀ b, encode (.bcs b) = [0xB0, b]) ∧ (∀ b, encode (.beq b) = [0xF0, b]) ∧
  (∀ b, encode (.bne b) = [0xD0, b]) ∧ (∀ b, encode (.bpl b) = [0x10, b]) ∧
  (∀ w, encode (.jmpAbs w) = [0x4C, lowByte w, highByte w]) ∧
  (∀ w, encode (.jmpInd w) = [0x6C, lowByte w, highByte w]) ∧
  (∀ w, encode (.jsr w) = [0x20, lowByte w, highByte w]) ∧ encode .rts = [0x60] ∧ encode .pha = [0x48] ∧
  encode .cld = [0xD8] ∧ encode .sei = [0x78] ∧ encode .tax = [0xAA] ∧ encode .txs = [0x9A]

/-- Decode and encode agree on every well-formed instruction, whatever bytes follow; the table is the default (log 5). -/
def Obligations.DecodeOfEncodeIsTheInstruction : Prop :=
  ∀ (i : Instr) (rest : List Byte), i.wf = true → decode (encode i ++ rest) = .ok (i, rest)

/-- Each byte sequence has one meaning: what decodes re-encodes to the bytes it was read from. -/
def Obligations.DecodedBytesReencode : Prop :=
  ∀ (bytes rest : List Byte) (i : Instr), decode bytes = .ok (i, rest) → i.wf = true ∧ encode i ++ rest = bytes

/-- 30_encoding.md R70: the opcode byte alone fixes the length, by the addressing mode of its entry. -/
def Obligations.LengthIsFixedByTheOpcodeByte : Prop :=
  ∀ (b0 : Byte) (bytes rest : List Byte) (i : Instr), (optable b0).op ≠ .unimplemented →
    decode (b0 :: bytes) = .ok (i, rest) →
    (((optable b0).mode = .implied ∨ (optable b0).mode = .accumulator) → (b0 :: bytes).length = rest.length + 1) ∧
    (((optable b0).mode = .immediate ∨ (optable b0).mode = .zeropage ∨ (optable b0).mode = .relative) →
      (b0 :: bytes).length = rest.length + 2) ∧
    (((optable b0).mode = .absolute ∨ (optable b0).mode = .indirect) → (b0 :: bytes).length = rest.length + 3)

/-! ## The step -/

/-- 00_scope.md R11, 40_fetch_decode_operands.md R93, R94: the step moves PC past the decoded instruction and runs it. -/
def Obligations.StepExecutesTheDecodedInstruction : Prop :=
  ∀ (s : State) (i : Instr) (bytes : List Byte), s.halt = none → i.wf = true → (∀ b, i ≠ .unimplemented b) →
    decode bytes = .ok (i, []) →
    (∀ (k : Nat) (hk : k < bytes.length), busRead (s.pc + BitVec.ofNat 16 k) s.mem = .ok bytes[k]) →
    s.pc.toNat + bytes.length ≤ 0xFFFF →
    step s = exec i (setIR none (setPC (s.pc + BitVec.ofNat 16 bytes.length) s))

/-- 30_encoding.md R80: a byte the table does not list decodes to the sentinel and raises `UnimplementedOpcode`; no
operand byte is read, whatever lies after it, and PC is not advanced. Which bytes are listed is the default OPTABLE
(log 5). -/
def Obligations.UnlistedOpcodeFaultsInDecode : Prop :=
  ∀ b : Byte, b ∉ populatedOpcodes →
    (∀ rest, decode (b :: rest) = .ok (.unimplemented b, rest)) ∧
    (∀ s : State, s.halt = none → busRead s.pc s.mem = .ok b → DecodeRaises s (.unimplementedOpcode b s.pc))

/-- 40_fetch_decode_operands.md R95: the seven faults of the decode phase, the first that applies, and the state each
leaves. The order of the reads and of the PC write is the spec's decision D10 (log 10). -/
def Obligations.DecodePhaseFaultsInOrder : Prop :=
  ∀ s : State, s.halt = none →
    (∀ c, busRead s.pc s.mem = .error c → DecodeRaises s c) ∧
    (∀ b0, busRead s.pc s.mem = .ok b0 →
      ((optable b0).op = .unimplemented → DecodeRaises s (.unimplementedOpcode b0 s.pc)) ∧
      ((optable b0).op ≠ .unimplemented →
        (2 ≤ instructionLength b0 → s.pc = 0xFFFF → DecodeRaises s (.wordOverflow 0xFFFF 1)) ∧
        (∀ c, 2 ≤ instructionLength b0 → s.pc ≠ 0xFFFF → busRead (s.pc + 1) s.mem = .error c → DecodeRaises s c) ∧
        (instructionLength b0 = 3 → s.pc = 0xFFFE → DecodeRaises s (.wordOverflow 0xFFFE 2)) ∧
        (∀ b1 c, instructionLength b0 = 3 → s.pc.toNat < 0xFFFE → busRead (s.pc + 1) s.mem = .ok b1 →
          busRead (s.pc + 2) s.mem = .error c → DecodeRaises s c) ∧
        (s.pc.toNat + instructionLength b0 = 0x10000 →
          DecodeRaises s (.wordOverflow s.pc (instructionLength b0)))))

/-- 40_fetch_decode_operands.md R92, R93: a decode phase that completes latches the entry with its operand, low byte
first, advances PC by the length and changes nothing else. -/
def Obligations.DecodePhaseLatchesAndAdvances : Prop :=
  ∀ (s : State) (b0 : Byte), s.halt = none → busRead s.pc s.mem = .ok b0 → (optable b0).op ≠ .unimplemented →
    s.pc.toNat + instructionLength b0 ≤ 0xFFFF →
    (instructionLength b0 = 1 →
      decodePhaseWith optable s =
        .next (setIR (some ⟨(optable b0).op, (optable b0).mode, .nothing⟩) (setPC (s.pc + 1) s))) ∧
    (∀ b1, instructionLength b0 = 2 → busRead (s.pc + 1) s.mem = .ok b1 →
      decodePhaseWith optable s =
        .next (setIR (some ⟨(optable b0).op, (optable b0).mode, .byte b1⟩) (setPC (s.pc + 2) s))) ∧
    (∀ b1 b2, instructionLength b0 = 3 → busRead (s.pc + 1) s.mem = .ok b1 → busRead (s.pc + 2) s.mem = .ok b2 →
      decodePhaseWith optable s =
        .next (setIR (some ⟨(optable b0).op, (optable b0).mode, .word (wordOf b2 b1)⟩) (setPC (s.pc + 3) s)))

/-- 10_state.md R34, 60_exceptions.md R171: while HALT is not none, no step, decode or execute exists; the rendering as
the outcome `halted` is the model's (log 4). -/
def Obligations.HaltedCoreHasNoStep : Prop :=
  ∀ (s : State) (c : FaultCause), s.halt = some c →
    step s = .fault (.halted c) ∧ hostMove .decode s = .fault (.halted c) ∧ hostMove .execute s = .fault (.halted c)

/-- 70_reset_and_hazards.md R200: a step of a non-halted core answers a next state or one raised fault, latched in
HALT. -/
def Obligations.StepAnswersANextStateOrARaisedFault : Prop :=
  ∀ s : State, s.halt = none →
    (∃ t, step s = .next t ∧ t.halt = none) ∨ (∃ c t, step s = .fault (.raised c t) ∧ t.halt = some c)

/-- 60_exceptions.md R172, in the reference environment: a fault leaves every register and memory as before the step
(decode), or PC advanced and at most SP changed besides (execute); HALT holds the cause. What a fault leaves is the
spec's decision D13 (log 17). -/
def Obligations.FaultLeavesRegistersAndMemory : Prop :=
  ∀ (s t : State) (c : FaultCause), step s = .fault (.raised c t) →
    t = setHalt (some c) s ∨
    (∃ u, decodePhaseWith optable s = .next u ∧ t.pc = u.pc ∧ t.a = s.a ∧ t.x = s.x ∧ t.y = s.y ∧
      t.status = s.status ∧ t.mem = s.mem ∧ t.halt = some c ∧
      (t.sp ≠ s.sp → ∃ v : Addr, c = .wordOverflow v 1 ∧ v = 0xFFFF ∧ t.sp = s.sp + 2))

/-- 60_exceptions.md R185, R186: decode then execute is the step; between the two the host may change any register and
all of memory, and the latched instruction is what executes, on the state it then finds. -/
def Obligations.HostMayActBetweenThePhases : Prop :=
  ∀ s : State,
    (∀ f, hostMove .decode s = .fault f → step s = .fault f) ∧
    (∀ t, hostMove .decode s = .next t → hostMove .execute t = step s ∧
      ∃ i : Instr, step s = exec i (setIR none t) ∧
        ∀ u : State, u.ir = t.ir → u.halt = none → hostMove .execute u = exec i (setIR none u))

/-! ## Invariants and whole-machine rules -/

/-- Every step keeps the invariant: memory canonical, nothing latched, not halted. -/
def Obligations.StepKeepsTheInvariant : Prop :=
  ∀ s t : State, Inv s → step s = .next t → Inv t

/-- The reset state meets the invariant. -/
def Obligations.ResetMeetsTheInvariant : Prop := Inv State.reset

/-- 10_state.md R35 gives IR empty and HALT none; the register values and the memory byte are the model's choice
(log 1, 2, 3). -/
def Obligations.ResetLeavesTheModelsValues : Prop :=
  State.reset.ir = none ∧ State.reset.halt = none ∧
  State.reset.pc = 0x8000 ∧ State.reset.a = 0x00 ∧ State.reset.x = 0x00 ∧ State.reset.y = 0x00 ∧
  State.reset.sp = 0xFD ∧ State.reset.status = 0x34 ∧
  (∀ addr k, busCell addr = .ok k → busRead addr State.reset.mem = .ok 0x00)

/-- 10_state.md R29 to R31: V, the unused bit, B, D and I are read by no instruction: two states that differ only in
them step to outcomes that differ only in them. -/
def Obligations.UnreadFlagsDoNotInterfere : Prop :=
  ∀ s t : State, AgreeButUnread s t → OutcomesAgree (step s) (step t)

/-- 10_state.md R21 to R24, R32, 20_memory.md R40: each register is written by its listed operations only, memory by the
storing ones only, and no execute phase writes IR or HALT and goes on. -/
def Obligations.RegistersAreWrittenOnlyByTheirWriters : Prop :=
  ∀ (i : Instr) (s t : State), exec i s = .next t →
    (writesA i = false → t.a = s.a) ∧ (writesX i = false → t.x = s.x) ∧ (writesY i = false → t.y = s.y) ∧
    (writesSP i = false → t.sp = s.sp) ∧ (writesPC i = false → t.pc = s.pc) ∧
    (writesMemory i = false → SameMemory s t) ∧ SameLatches s t

/-- 10_state.md R26 to R31: each bit of S is written by its listed operations only; V, U and B by none; D only cleared,
by CLD; I only set, by SEI. -/
def Obligations.FlagsAreWrittenOnlyByTheirWriters : Prop :=
  ∀ (i : Instr) (s t : State), exec i s = .next t →
    (writesNZ i = false → flagN t = flagN s ∧ flagZ t = flagZ s) ∧ (writesC i = false → flagC t = flagC s) ∧
    (i ≠ .cld → flagD t = flagD s) ∧ (i = .cld → flagD t = false) ∧
    (i ≠ .sei → flagI t = flagI s) ∧ (i = .sei → flagI t = true) ∧
    flagV t = flagV s ∧ flagU t = flagU s ∧ flagB t = flagB s

/-- 40_fetch_decode_operands.md R102 and 45_compare.md R145: after an operation that sets N and Z they are not both 1,
and after a compare Z implies C (the meaning of that carry: log 6). -/
def Obligations.ResultFlagsAreConsistent : Prop :=
  ∀ (i : Instr) (s t : State), exec i s = .next t →
    (writesNZ i = true → ¬(flagN t = true ∧ flagZ t = true)) ∧
    (isCompare i = true → flagZ t = true → flagC t = true)

/-! ## The address generator, the bus and the stack -/

/-- 40_fetch_decode_operands.md R90: the 16-bit sum is exact, or the fault `WordOverflow` outside 0 to 0xFFFF (below 0
it is the spec's decision D5, log 12). -/
def Obligations.WordAddIsExactOrOverflows : Prop :=
  ∀ (w : Addr) (k : Int) (s : State),
    (∀ r : Addr, (r.toNat : Int) = w.toNat + k → wordAdd w k s = .ok r) ∧
    (((w.toNat : Int) + k < 0 ∨ 0xFFFF < (w.toNat : Int) + k) →
      wordAdd w k s = .error (.raised (.wordOverflow w k) (setHalt (some (.wordOverflow w k)) s)))

/-- 20_memory.md R51: the decode function, row by row, shared by reads and writes; each row's cells are its own. The row
0x4020 to 0x5FFF, `InvalidAddress`, is the spec's decision D7 (R57; log 13); the numbers of the cells are the model's
(log 19). -/
def Obligations.BusDecodesEveryAddress : Prop :=
  ∀ (addr : Addr) (v : Byte) (m : Memory),
    (addr.toNat < 0x0800 → busCell addr = .ok addr.toNat) ∧
    (0x0800 ≤ addr.toNat → addr.toNat < 0x1000 → busCell addr = .ok (addr.toNat - 0x0800)) ∧
    (0x1000 ≤ addr.toNat → addr.toNat < 0x1800 → busCell addr = .ok (addr.toNat - 0x1000)) ∧
    (0x1800 ≤ addr.toNat → addr.toNat < 0x2000 → busCell addr = .ok (addr.toNat - 0x1800)) ∧
    (0x2000 ≤ addr.toNat → addr.toNat < 0x2008 → busCell addr = .ok addr.toNat) ∧
    (0x2008 ≤ addr.toNat → addr.toNat < 0x4000 →
      busRead addr m = .error (.unimplementedRegion addr) ∧ busWrite addr v m = .error (.unimplementedRegion addr)) ∧
    (0x4000 ≤ addr.toNat → addr.toNat < 0x4018 → busCell addr = .ok addr.toNat) ∧
    (0x4018 ≤ addr.toNat → addr.toNat < 0x4020 →
      busRead addr m = .error (.unimplementedRegion addr) ∧ busWrite addr v m = .error (.unimplementedRegion addr)) ∧
    (0x4020 ≤ addr.toNat → addr.toNat < 0x6000 →
      busRead addr m = .error (.invalidAddress addr) ∧ busWrite addr v m = .error (.invalidAddress addr)) ∧
    (0x6000 ≤ addr.toNat → addr.toNat < 0x8000 →
      busRead addr m = .error (.unimplementedRegion addr) ∧ busWrite addr v m = .error (.unimplementedRegion addr)) ∧
    (0x8000 ≤ addr.toNat → busCell addr = .ok addr.toNat) ∧
    (∀ k, busCell addr = .ok k →
      (∃ r, busRead addr m = .ok r) ∧ ∃ m', busWrite addr v m = .ok m' ∧ busRead addr m' = .ok v)

/-- 20_memory.md R52: an address below 0x2000 names the RAM cell `addr mod 0x0800`; a write through one of the four
addresses of a cell is read back through each; zero-page and stack accesses never fault. -/
def Obligations.RamMirrorsNameOneCell : Prop :=
  (∀ addr : Addr, addr.toNat < 0x2000 → busCell addr = .ok (addr.toNat % 0x0800)) ∧
  (∀ (addr mirror : Addr) (v : Byte) (s : State), addr.toNat < 0x2000 → mirror.toNat < 0x2000 →
    mirror.toNat % 0x0800 = addr.toNat % 0x0800 →
    ∃ t, memWrite addr v s = .ok t ∧ memRead mirror t = .ok (v, t)) ∧
  (∀ (addr : Addr) (v : Byte) (s : State), addr.toNat < 0x0200 →
    (∃ r, memRead addr s = .ok (r, s)) ∧ ∃ t, memWrite addr v s = .ok t)

/-- 20_memory.md R42, R47: a write that completes is what later reads of that cell return, and no other cell or register
changes; a write that faults changes nothing but HALT. -/
def Obligations.WriteThenReadReturnsTheByte : Prop :=
  ∀ (addr : Addr) (v : Byte) (s : State),
    (∀ t, memWrite addr v s = .ok t → StoredOnly addr v s t ∧ SameRegisters s t ∧ t.status = s.status ∧
      t.pc = s.pc ∧ SameLatches s t) ∧
    (∀ f, memWrite addr v s = .error f → ∃ c, f = .raised c (setHalt (some c) s))

/-- 20_memory.md R49: a byte stored by STA is what the next fetch of its address decodes, with no fence: it reads back, a
listed one is latched with its entry, an unlisted one faults, and INX, for one, runs. Which bytes are listed is the
default OPTABLE (log 5). -/
def Obligations.StoredOpcodeIsFetched : Prop :=
  ∀ (s t u : State) (w : Addr), exec (.staAbs w) s = .next t → u.mem = t.mem → u.pc = w → u.halt = none →
    busRead u.pc u.mem = .ok s.a ∧
    ((optable s.a).op ≠ .unimplemented → w.toNat + instructionLength s.a ≤ 0xFFFF →
      (∀ k, 0 < k → k < instructionLength s.a → ∃ v, busRead (w + BitVec.ofNat 16 k) u.mem = .ok v) →
      ∃ operand, decodePhaseWith optable u =
        .next (setIR (some ⟨(optable s.a).op, (optable s.a).mode, operand⟩)
          (setPC (w + BitVec.ofNat 16 (instructionLength s.a)) u))) ∧
    (s.a = 0xE8 → w ≠ 0xFFFF → step u = exec .inx (setIR none (setPC (w + 1) u))) ∧
    (s.a ∉ populatedOpcodes → DecodeRaises u (.unimplementedOpcode s.a w))

/-- 42_stack.md R126, R127: Push writes at `0x0100 + SP` then decrements SP modulo 256, Pop increments SP modulo 256
then reads, and Pop after Push returns the byte and restores SP. -/
def Obligations.PopAfterPushReturnsTheByte : Prop :=
  ∀ (v : Byte) (s : State), ∃ t u, push v s = .ok t ∧ (stackAddr s.sp).toNat = 0x0100 + s.sp.toNat ∧
    StoredOnly (stackAddr s.sp) v s t ∧ t.sp.toNat = (s.sp.toNat + 255) % 256 ∧ t.a = s.a ∧ t.x = s.x ∧ t.y = s.y ∧
    t.status = s.status ∧ t.pc = s.pc ∧ SameLatches s t ∧
    pop t = .ok (v, u) ∧ u = setSP s.sp t

/-! ## Instructions -/

/-- 43_shift_logic.md R130. That bit 0 becomes 0 is PRESUMED (log 6). -/
def Obligations.AslShiftsALeft : Prop :=
  ∀ s, ∃ t, exec .aslAcc s = .next t ∧ t.a.toNat = (2 * s.a.toNat) % 256 ∧ flagC t = s.a.getLsbD 7 ∧ NZOf t.a t ∧
    SameFlagsExcept [0, 1, 7] s t ∧ t.x = s.x ∧ t.y = s.y ∧ t.sp = s.sp ∧ t.pc = s.pc ∧ SameLatches s t ∧
    SameMemory s t

/-- 43_shift_logic.md R131. That bit 7 becomes 0 is PRESUMED (log 6). -/
def Obligations.LsrShiftsARight : Prop :=
  ∀ s, ∃ t, exec .lsrAcc s = .next t ∧ t.a.toNat = s.a.toNat / 2 ∧ flagC t = s.a.getLsbD 0 ∧ flagN t = false ∧
    NZOf t.a t ∧ SameFlagsExcept [0, 1, 7] s t ∧ t.x = s.x ∧ t.y = s.y ∧ t.sp = s.sp ∧ t.pc = s.pc ∧
    SameLatches s t ∧ SameMemory s t

/-- 43_shift_logic.md R132. That AND is the bitwise AND into A is PRESUMED (log 6). -/
def Obligations.AndMasksA : Prop :=
  ValueForms .andImm .andZp .andAbs (fun v s t =>
    (∀ i, t.a.getLsbD i = (s.a.getLsbD i && v.getLsbD i)) ∧ t.x = s.x ∧ t.y = s.y ∧ t.sp = s.sp ∧
      ResultEffect t.a s t)

/-- 44_load_store.md R135 to R137. -/
def Obligations.LoadsFillTheirRegister : Prop :=
  ValueForms .ldaImm .ldaZp .ldaAbs (fun v s t =>
    t.a = v ∧ t.x = s.x ∧ t.y = s.y ∧ t.sp = s.sp ∧ ResultEffect v s t) ∧
  ValueForms .ldxImm .ldxZp .ldxAbs (fun v s t =>
    t.x = v ∧ t.a = s.a ∧ t.y = s.y ∧ t.sp = s.sp ∧ ResultEffect v s t) ∧
  ValueForms .ldyImm .ldyZp .ldyAbs (fun v s t =>
    t.y = v ∧ t.a = s.a ∧ t.x = s.x ∧ t.sp = s.sp ∧ ResultEffect v s t)

/-- 44_load_store.md R138 to R140. -/
def Obligations.StoresWriteTheirRegister : Prop :=
  StoreForms .staZp .staAbs .sta State.a ∧
  StoreForms .stxZp .stxAbs .stx State.x ∧
  StoreForms .styZp .styAbs .sty State.y

/-- 45_compare.md R145 to R147. That the carry means `register >= operand`, unsigned, is PRESUMED (log 6). -/
def Obligations.ComparesSetFlagsOnly : Prop :=
  ValueForms .cmpImm .cmpZp .cmpAbs (CompareEffect State.a) ∧
  ValueForms .cpxImm .cpxZp .cpxAbs (CompareEffect State.x) ∧
  ValueForms .cpyImm .cpyZp .cpyAbs (CompareEffect State.y)

/-- 46_incdec.md R150, R151. -/
def Obligations.IncAndDecModifyMemory : Prop :=
  ModifyForms .incZp .incAbs .inc 1 ∧ ModifyForms .decZp .decAbs .dec 255

/-- 46_incdec.md R152 to R155. -/
def Obligations.IndexRegistersStepByOne : Prop :=
  (∀ s, ∃ t, exec .inx s = .next t ∧ t.x.toNat = (s.x.toNat + 1) % 256 ∧ t.a = s.a ∧ t.y = s.y ∧
    t.sp = s.sp ∧ ResultEffect t.x s t) ∧
  (∀ s, ∃ t, exec .dex s = .next t ∧ t.x.toNat = (s.x.toNat + 255) % 256 ∧ t.a = s.a ∧
    t.y = s.y ∧ t.sp = s.sp ∧ ResultEffect t.x s t) ∧
  (∀ s, ∃ t, exec .iny s = .next t ∧ t.y.toNat = (s.y.toNat + 1) % 256 ∧ t.a = s.a ∧ t.x = s.x ∧
    t.sp = s.sp ∧ ResultEffect t.y s t) ∧
  (∀ s, ∃ t, exec .dey s = .next t ∧ t.y.toNat = (s.y.toNat + 255) % 256 ∧ t.a = s.a ∧
    t.x = s.x ∧ t.sp = s.sp ∧ ResultEffect t.y s t)

/-- 41_control_transfer.md R110 to R115. The fault below 0 is the spec's decision D5 (log 12). -/
def Obligations.BranchesTestTheirFlag : Prop :=
  BranchesWhen .bcc (fun s => !flagC s) ∧ BranchesWhen .bcs flagC ∧ BranchesWhen .beq flagZ ∧
  BranchesWhen .bne (fun s => !flagZ s) ∧ BranchesWhen .bpl (fun s => !flagN s)

/-- 41_control_transfer.md R116. -/
def Obligations.JmpAbsoluteSetsPC : Prop :=
  ∀ w, encode (.jmpAbs w) = [0x4C, lowByte w, highByte w] ∧ ∀ s, exec (.jmpAbs w) s = .next (setPC w s)

/-- 41_control_transfer.md R117: low byte at the pointer, high byte at the pointer + 1, no page wrap: the spec's decision
D6 (log 11). -/
def Obligations.JmpIndirectFollowsThePointer : Prop :=
  ∀ (ptr : Addr) (s : State),
    (∀ lo hi, ptr ≠ 0xFFFF → busRead ptr s.mem = .ok lo → busRead (ptr + 1) s.mem = .ok hi →
      exec (.jmpInd ptr) s = .next (setPC (wordOf hi lo) s)) ∧
    (∀ c, busRead ptr s.mem = .error c → exec (.jmpInd ptr) s = .fault (.raised c (setHalt (some c) s))) ∧
    (ptr = 0xFFFF → exec (.jmpInd ptr) s =
      .fault (.raised (.wordOverflow 0xFFFF 1) (setHalt (some (.wordOverflow 0xFFFF 1)) s))) ∧
    (∀ lo c, ptr ≠ 0xFFFF → busRead ptr s.mem = .ok lo → busRead (ptr + 1) s.mem = .error c →
      exec (.jmpInd ptr) s = .fault (.raised c (setHalt (some c) s)))

/-- 41_control_transfer.md R118. PC is past the three bytes, so at least 3, whenever a step runs JSR. -/
def Obligations.JsrPushesTheReturnAddress : Prop :=
  ∀ (w : Addr) (s : State), 1 ≤ s.pc.toNat →
    ∃ t, exec (.jsr w) s = .next t ∧ t.pc = w ∧ t.sp.toNat = (s.sp.toNat + 254) % 256 ∧
      (∀ a, busCell a = busCell (stackAddr s.sp) → busRead a t.mem = .ok (highByte (s.pc - 1))) ∧
      (∀ a, busCell a = busCell (stackAddr (s.sp - 1)) → busRead a t.mem = .ok (lowByte (s.pc - 1))) ∧
      (∀ a, busCell a ≠ busCell (stackAddr s.sp) → busCell a ≠ busCell (stackAddr (s.sp - 1)) →
        busRead a t.mem = busRead a s.mem) ∧
      t.a = s.a ∧ t.x = s.x ∧ t.y = s.y ∧ t.status = s.status ∧ SameLatches s t

/-- The one state that JsrPushesTheReturnAddress leaves out, which no step reaches: a host has set PC to 0 between the
phases (60_exceptions.md R186). The return address would lie below 0: `WordOverflow`, by log 12. -/
def Obligations.JsrWithPCZeroOverflows : Prop :=
  ∀ (w : Addr) (s : State), s.pc = 0 → exec (.jsr w) s =
    .fault (.raised (.wordOverflow 0 (-1)) (setHalt (some (.wordOverflow 0 (-1))) s))

/-- 41_control_transfer.md R119. That an RTS that overflows has popped, so that SP is two higher in the state the fault
leaves, is the spec's decision D13 (60_exceptions.md R172; log 17). -/
def Obligations.RtsReturnsPastThePoppedAddress : Prop :=
  ∀ s : State, ∃ lo hi,
    busRead (stackAddr (s.sp + 1)) s.mem = .ok lo ∧ busRead (stackAddr (s.sp + 2)) s.mem = .ok hi ∧
    (wordOf hi lo ≠ 0xFFFF → ∃ t, exec .rts s = .next t ∧ t.pc.toNat = (wordOf hi lo).toNat + 1 ∧
      t.sp.toNat = (s.sp.toNat + 2) % 256 ∧ t.a = s.a ∧ t.x = s.x ∧ t.y = s.y ∧ t.status = s.status ∧
      SameLatches s t ∧ SameMemory s t) ∧
    (wordOf hi lo = 0xFFFF → exec .rts s =
      .fault (.raised (.wordOverflow 0xFFFF 1) (setHalt (some (.wordOverflow 0xFFFF 1)) (setSP (s.sp + 2) s))))

/-- 41_control_transfer.md R118, R119: with the stack balanced in between, RTS resumes after the JSR and restores SP. -/
def Obligations.RtsAfterJsrResumesAfterTheCall : Prop :=
  ∀ (s t u : State) (w : Addr), 1 ≤ s.pc.toNat → exec (.jsr w) s = .next t → u.sp = t.sp →
    busRead (stackAddr (u.sp + 1)) u.mem = busRead (stackAddr (u.sp + 1)) t.mem →
    busRead (stackAddr (u.sp + 2)) u.mem = busRead (stackAddr (u.sp + 2)) t.mem →
    exec .rts u = .next (setPC s.pc (setSP s.sp u))

/-- 42_stack.md R128. That PHA pushes A is PRESUMED (log 6). -/
def Obligations.PhaPushesA : Prop :=
  ∀ s, ∃ t, exec .pha s = .next t ∧ StoredOnly (stackAddr s.sp) s.a s t ∧ t.sp.toNat = (s.sp.toNat + 255) % 256 ∧
    t.a = s.a ∧ t.x = s.x ∧ t.y = s.y ∧ t.status = s.status ∧ t.pc = s.pc ∧ SameLatches s t

/-- 47_flag_transfer.md R160, R161. -/
def Obligations.CldAndSeiWriteOneFlag : Prop :=
  (∀ s, ∃ t, exec .cld s = .next t ∧ flagD t = false ∧ SameFlagsExcept [3] s t ∧
    SameRegisters s t ∧ t.pc = s.pc ∧ SameLatches s t ∧ SameMemory s t) ∧
  (∀ s, ∃ t, exec .sei s = .next t ∧ flagI t = true ∧ SameFlagsExcept [2] s t ∧
    SameRegisters s t ∧ t.pc = s.pc ∧ SameLatches s t ∧ SameMemory s t)

/-- 47_flag_transfer.md R162. -/
def Obligations.TaxCopiesAToX : Prop :=
  ∀ s, ∃ t, exec .tax s = .next t ∧ t.x = s.a ∧ t.a = s.a ∧ t.y = s.y ∧ t.sp = s.sp ∧ ResultEffect s.a s t

/-- 47_flag_transfer.md R163. -/
def Obligations.TxsCopiesXToSP : Prop :=
  ∀ s, ∃ t, exec .txs s = .next t ∧ t.sp = s.x ∧ t.a = s.a ∧ t.x = s.x ∧ t.y = s.y ∧ t.status = s.status ∧
    t.pc = s.pc ∧ SameLatches s t ∧ SameMemory s t

/-- 40_fetch_decode_operands.md R101: the execute phase stops on the sentinel. -/
def Obligations.ExecutingTheSentinelStops : Prop :=
  ∀ (b : Byte) (s : State), exec (.unimplemented b) s =
    .fault (.raised .unimplementedOperation (setHalt (some .unimplementedOperation) s))

/-! ## Other decoder tables, the end of a run, launch, the host -/

/-- 40_fetch_decode_operands.md R98: under any decoder table, a pair outside the matrix raises `ResolverMisuse` in the
execute phase, and nothing has changed but the advanced PC: the spec's decision D11 (log 22). IR is empty in the state
left, since execute consumes it also when it faults: the model's choice (log 15). -/
def Obligations.ForeignPairIsResolverMisuse : Prop :=
  ∀ (table : Byte → OpCode) (s t : State) (b : Byte), s.halt = none → busRead s.pc s.mem = .ok b →
    (table b).op ≠ .unimplemented → populatedPair (table b).op (table b).mode = false →
    decodeLatch table s = .ok t →
    stepWith table s = .fault (.raised (.resolverMisuse (table b).op (table b).mode)
      (setHalt (some (.resolverMisuse (table b).op (table b).mode)) (setIR none (setPC t.pc s))))

/-- 92_eei_decisions.md D1, D4, 93_implementation_defined.md U14: under every table that holds the two attested entries,
and in every memory environment, LDA immediate and JMP absolute run as the source says. -/
def Obligations.AttestedInstructionsRunUnderAnyTable : Prop :=
  ∀ (table : Byte → OpCode) (env : Environment) (s : State), table 0xA9 = ⟨.lda, .immediate⟩ →
    table 0x4C = ⟨.jmp, .absolute⟩ → s.halt = none →
    (∀ v m, s.pc.toNat + 2 ≤ 0xFFFF → Answers env s.pc [0xA9, v] s.mem m →
      ∃ t, stepWith table s env = .next t ∧ t.a = v ∧ t.pc = s.pc + 2 ∧ NZOf v t ∧ SameFlagsExcept [1, 7] s t ∧
        t.mem = m) ∧
    (∀ lo hi m, s.pc.toNat + 3 ≤ 0xFFFF → Answers env s.pc [0x4C, lo, hi] s.mem m →
      stepWith table s env = .next (setIR none (setPC (wordOf hi lo) (setMem m s))))

/-- 70_reset_and_hazards.md R195 with the convention of log 18: from an end state every further step leaves the state
unchanged, and no number of steps faults. -/
def Obligations.EndedRunStaysEnded : Prop :=
  ∀ s : State, Ended s → step s = .next s ∧ ∀ n, RunsFor n s

/-- 20_memory.md R58, R62, 70_reset_and_hazards.md R190: the launch state holds the parameters' registers and arrays; a
16 KiB image stands in both halves of the window. -/
def Obligations.LaunchBuildsTheArrays : Prop :=
  ∀ (l : Launch) (s : State), launchState l = some s →
    Inv s ∧ s.pc = l.pc ∧ s.a = l.a ∧ s.x = l.x ∧ s.y = l.y ∧ s.sp = l.sp ∧ s.status = l.status ∧
    (∀ (k : Nat) (hk : k < l.ram.length), k < 0x0800 → busRead (BitVec.ofNat 16 k) s.mem = .ok l.ram[k]) ∧
    (∀ (k : Nat) (hk : k < l.ppuReg.length), k < 8 →
      busRead (BitVec.ofNat 16 (0x2000 + k)) s.mem = .ok l.ppuReg[k]) ∧
    (∀ (k : Nat) (hk : k < l.apuReg.length), k < 24 →
      busRead (BitVec.ofNat 16 (0x4000 + k)) s.mem = .ok l.apuReg[k]) ∧
    (∀ (k : Nat) (hk : k < l.prg.length), busRead (BitVec.ofNat 16 (0x8000 + k)) s.mem = .ok l.prg[k]) ∧
    (l.prg.length = 0x4000 → ∀ (k : Nat) (hk : k < l.prg.length),
      busRead (BitVec.ofNat 16 (0xC000 + k)) s.mem = .ok l.prg[k])

/-- 60_exceptions.md R183, 70_reset_and_hazards.md R190: a PRG size other than 0x4000 and 0x8000 has no launch state;
with a legal one reset reaches it from every state, a halted one too. -/
def Obligations.OnlyLegalImagesLaunch : Prop :=
  ∀ (l : Launch) (s : State),
    (l.prg.length ≠ 0x4000 → l.prg.length ≠ 0x8000 →
      launchState l = none ∧ hostMove (.reset l) s = .refused .noLaunchState) ∧
    ((l.prg.length = 0x4000 ∨ l.prg.length = 0x8000) →
      ∃ t, launchState l = some t ∧ hostMove (.reset l) s = .next t ∧ t.halt = none ∧ t.ir = none)

/-- 20_memory.md R63 with the byte order of D6 (log 11): a host `poke16` that completes has put the low byte at the
address and the high byte at the address + 1, and `peek16` reads the Word back. -/
def Obligations.Peek16AfterPoke16ReturnsTheWord : Prop :=
  ∀ (addr w : Addr) (s t : State), hostMove (.poke16 addr w) s = .next t → hostPeek16 addr t = .ok (w, t) ∧
    busRead addr t.mem = .ok (lowByte w) ∧ busRead (addr + 1) t.mem = .ok (highByte w) ∧
    SameRegisters s t ∧ t.status = s.status ∧ t.pc = s.pc ∧ SameLatches s t

/-- 10_state.md R36, 60_exceptions.md R185: a host register write replaces all bits of that register and changes nothing
else; every host move between steps keeps the invariant, and a reset brings it back from every state. -/
def Obligations.HostMovesKeepTheInvariant : Prop :=
  (∀ (v : Byte) (w : Addr) (s : State),
    hostMove (.writeA v) s = .next (setA v s) ∧ hostMove (.writeX v) s = .next (setX v s) ∧
    hostMove (.writeY v) s = .next (setY v s) ∧ hostMove (.writeSP v) s = .next (setSP v s) ∧
    hostMove (.writeS v) s = .next (setStatus v s) ∧ hostMove (.writePC w) s = .next (setPC w s)) ∧
  (∀ (m : HostMove) (s t : State), Inv s → m ≠ .decode → hostMove m s = .next t → Inv t) ∧
  (∀ (l : Launch) (s t : State), hostMove (.reset l) s = .next t → Inv t)

/-! ## Any memory environment -/

/-- 20_memory.md R41, R42, R46, 92_eei_decisions.md D4: the memory environment is an argument (log 7). In every
environment the step runs the instruction whose bytes that environment answers at PC, PC + 1 and PC + 2, read once each in
this order, on the cells these reads leave; `exec`, and so `step`, is the machine in the reference environment. The order
of the reads is the spec's decision D10 (log 10). -/
def Obligations.StepExecutesInAnyEnvironment : Prop :=
  (∀ (env : Environment) (s : State) (i : Instr) (bytes : List Byte) (m : Memory), s.halt = none → i.wf = true →
    (∀ b, i ≠ .unimplemented b) → decode bytes = .ok (i, []) → Answers env s.pc bytes s.mem m →
    s.pc.toNat + bytes.length ≤ 0xFFFF →
    stepWith optable s env =
      execIn i (setIR none (setPC (s.pc + BitVec.ofNat 16 bytes.length) (setMem m s))) env) ∧
  (∀ (i : Instr) (s : State), execIn i s .reference = exec i s)

/-- 20_memory.md R40 to R42, R46: in every memory environment (log 7) each data access is one read or write of that
environment at the operand's address, and a fault it answers is raised. What such a fault leaves is the spec's decision
D13 (log 17), the byte order of JMP indirect its decision D6 (log 11). -/
def Obligations.DataAccessesGoThroughTheEnvironment : Prop :=
  BothForms .andZp .andAbs (ReadsThrough · .andImm) ∧ BothForms .cmpZp .cmpAbs (ReadsThrough · .cmpImm) ∧
  BothForms .cpxZp .cpxAbs (ReadsThrough · .cpxImm) ∧ BothForms .cpyZp .cpyAbs (ReadsThrough · .cpyImm) ∧
  BothForms .ldaZp .ldaAbs (ReadsThrough · .ldaImm) ∧ BothForms .ldxZp .ldxAbs (ReadsThrough · .ldxImm) ∧
  BothForms .ldyZp .ldyAbs (ReadsThrough · .ldyImm) ∧
  BothForms .staZp .staAbs (StoresThrough · · State.a) ∧ BothForms .stxZp .stxAbs (StoresThrough · · State.x) ∧
  BothForms .styZp .styAbs (StoresThrough · · State.y) ∧
  BothForms .incZp .incAbs (ModifiesThrough · · 1) ∧ BothForms .decZp .decAbs (ModifiesThrough · · 255) ∧
  (∀ ptr, JumpsThrough ptr)

/-- 42_stack.md R126, R127, 41_control_transfer.md R118, R119: PHA, JSR and RTS in every memory environment (log 7), and
what each leaves when a stack access faults: 60_exceptions.md R172, the spec's decision D13 (log 17). -/
def Obligations.StackAccessesGoThroughTheEnvironment : Prop :=
  ∀ (env : Environment) (s : State),
    (∀ m, env.write (stackAddr s.sp) s.a s.mem = .ok m → execIn .pha s env = .next (setSP (s.sp - 1) (setMem m s))) ∧
    (∀ c, env.write (stackAddr s.sp) s.a s.mem = .error c →
      execIn .pha s env = .fault (.raised c (setHalt (some c) s))) ∧
    (∀ w c, 1 ≤ s.pc.toNat → env.write (stackAddr s.sp) (highByte (s.pc - 1)) s.mem = .error c →
      execIn (.jsr w) s env = .fault (.raised c (setHalt (some c) s))) ∧
    (∀ w m c, 1 ≤ s.pc.toNat → env.write (stackAddr s.sp) (highByte (s.pc - 1)) s.mem = .ok m →
      env.write (stackAddr (s.sp - 1)) (lowByte (s.pc - 1)) m = .error c →
      execIn (.jsr w) s env = .fault (.raised c (setHalt (some c) (setSP (s.sp - 1) (setMem m s))))) ∧
    (∀ w m m', 1 ≤ s.pc.toNat → env.write (stackAddr s.sp) (highByte (s.pc - 1)) s.mem = .ok m →
      env.write (stackAddr (s.sp - 1)) (lowByte (s.pc - 1)) m = .ok m' →
      execIn (.jsr w) s env = .next (setPC w (setSP (s.sp - 2) (setMem m' s)))) ∧
    (∀ c, env.read (stackAddr (s.sp + 1)) s.mem = .error c →
      execIn .rts s env = .fault (.raised c (setHalt (some c) (setSP (s.sp + 1) s)))) ∧
    (∀ lo m c, env.read (stackAddr (s.sp + 1)) s.mem = .ok (lo, m) → env.read (stackAddr (s.sp + 2)) m = .error c →
      execIn .rts s env = .fault (.raised c (setHalt (some c) (setSP (s.sp + 2) (setMem m s))))) ∧
    (∀ lo hi m m', env.read (stackAddr (s.sp + 1)) s.mem = .ok (lo, m) →
      env.read (stackAddr (s.sp + 2)) m = .ok (hi, m') → wordOf hi lo ≠ 0xFFFF →
      execIn .rts s env = .next (setPC (wordOf hi lo + 1) (setSP (s.sp + 2) (setMem m' s))))

/-- 70_reset_and_hazards.md R200, 60_exceptions.md R170, R172: under every decoder table and in every memory environment
(log 7) a step of a non-halted core answers a next state or one raised fault, and what the fault leaves is: all as before
(decode), or PC advanced and besides at most one push or two pops (execute); memory apart where the environment's reads
have side effects. What a fault leaves is the spec's decision D13 (log 17). -/
def Obligations.StepIsTotalInAnyEnvironment : Prop :=
  ∀ (table : Byte → OpCode) (env : Environment) (s : State), s.halt = none →
    (∃ t, stepWith table s env = .next t ∧ t.halt = none ∧ t.ir = none) ∨
    (∃ c t, stepWith table s env = .fault (.raised c t) ∧ t.halt = some c ∧ t.a = s.a ∧ t.x = s.x ∧ t.y = s.y ∧
      t.status = s.status ∧
      ((t.pc = s.pc ∧ t.sp = s.sp ∧ t.ir = s.ir ∧ (env.ReadsArePure → t.mem = s.mem)) ∨
        ∃ u, decodePhaseWith table s env = .next u ∧ t.pc = u.pc ∧
          (((t.sp = s.sp ∨ t.sp = s.sp + 1 ∨ t.sp = s.sp + 2) ∧ (env.ReadsArePure → t.mem = s.mem)) ∨
            (t.sp = s.sp - 1 ∧ ∃ v, env.write (stackAddr s.sp) v u.mem = .ok t.mem))))
end

