-- ==== Sys2Proof/Laws/Decode.lean ====
section
/-! SUPPORT. The laws of the decoder table and of the decoder: where an entry comes from, when bytes decode. -/

namespace Sys2Proof

/-- An entry other than the sentinel is one of the listed rows. -/
theorem lookupRow_mem {rows : List (Byte × OpCode)} {b : Byte} (h : (lookupRow rows b).op ≠ .unimplemented) :
    (b, lookupRow rows b) ∈ rows := by
  induction rows with
  | nil => exact absurd rfl h
  | cons row rest ih =>
    obtain ⟨k, e⟩ := row
    simp only [lookupRow] at h ⊢
    split
    · next hk => subst hk; exact List.mem_cons_self
    · next hk => rw [if_neg hk] at h; exact List.mem_cons_of_mem _ (ih h)

/-- A populated opcode byte is a row of 30_encoding.md R79. -/
theorem optable_mem {b : Byte} (h : (optable b).op ≠ .unimplemented) : (b, optable b) ∈ optableRows := lookupRow_mem h

/-- The sentinel decodes to its raw byte and takes no operand (30_encoding.md R80). -/
theorem decodeWith_unimplemented {table : Byte → OpCode} {b0 : Byte} (h : (table b0).op = .unimplemented)
    (rest : List Byte) : decodeWith table (b0 :: rest) = .ok (.unimplemented b0, rest) := by
  simp [decodeWith, h]

/-- Everything a decoding to an instruction other than the sentinel says (30_encoding.md R72). -/
theorem decodeWith_ok {table : Byte → OpCode} {b0 : Byte} (h : (table b0).op ≠ .unimplemented) {bs rest : List Byte}
    {i : Instr} :
    decodeWith table (b0 :: bs) = .ok (i, rest) ↔
      ∃ operand, takeOperand (table b0).mode bs = some (operand, rest) ∧
        instrOfIr ⟨(table b0).op, (table b0).mode, operand⟩ = some i := by
  simp only [decodeWith, if_neg h]
  constructor
  · intro hd
    split at hd
    · simp at hd
    · next operand rest' ho =>
      split at hd
      · simp at hd
      · next i' hi =>
        simp only [Except.ok.injEq, Prod.mk.injEq] at hd
        obtain ⟨rfl, rfl⟩ := hd
        exact ⟨operand, ho, hi⟩
  · rintro ⟨operand, ho, hi⟩
    simp [ho, hi]

/-- The operand of a mode takes its bytes, and no more (30_encoding.md R70, R72). -/
theorem takeOperand_length {mode : Mode} {bs rest : List Byte} {operand : Operand}
    (h : takeOperand mode bs = some (operand, rest)) : bs.length + 1 = rest.length + modeLength mode := by
  rcases bs with _ | ⟨b1, _ | ⟨b2, bs⟩⟩ <;> cases mode <;>
    simp only [takeOperand, Option.some.injEq, Prod.mk.injEq, reduceCtorEq] at h <;> obtain ⟨-, rfl⟩ := h <;>
    simp [modeLength]

/-- No populated pair is the sentinel's. -/
theorem instrOfIr_ne_unimplemented {instr : Ir} {i : Instr} (h : instrOfIr instr = some i) :
    instr.op ≠ .unimplemented := by
  rintro hu
  simp [instrOfIr, hu] at h

end Sys2Proof
end

