-- ==== Sys2Proof/Laws/State.lean ====
section
/-! SUPPORT. The record laws: one lemma per field per register write and per flag write, true by rfl. -/

namespace Sys2Proof.Machine

/-! ## setA -/

@[simp] theorem setA_a (v : Byte) (s : State) : (setA v s).a = v := rfl
@[simp] theorem setA_x (v : Byte) (s : State) : (setA v s).x = s.x := rfl
@[simp] theorem setA_y (v : Byte) (s : State) : (setA v s).y = s.y := rfl
@[simp] theorem setA_sp (v : Byte) (s : State) : (setA v s).sp = s.sp := rfl
@[simp] theorem setA_status (v : Byte) (s : State) : (setA v s).status = s.status := rfl
@[simp] theorem setA_pc (v : Byte) (s : State) : (setA v s).pc = s.pc := rfl
@[simp] theorem setA_ir (v : Byte) (s : State) : (setA v s).ir = s.ir := rfl
@[simp] theorem setA_halt (v : Byte) (s : State) : (setA v s).halt = s.halt := rfl
@[simp] theorem setA_mem (v : Byte) (s : State) : (setA v s).mem = s.mem := rfl

/-! ## setX -/

@[simp] theorem setX_a (v : Byte) (s : State) : (setX v s).a = s.a := rfl
@[simp] theorem setX_x (v : Byte) (s : State) : (setX v s).x = v := rfl
@[simp] theorem setX_y (v : Byte) (s : State) : (setX v s).y = s.y := rfl
@[simp] theorem setX_sp (v : Byte) (s : State) : (setX v s).sp = s.sp := rfl
@[simp] theorem setX_status (v : Byte) (s : State) : (setX v s).status = s.status := rfl
@[simp] theorem setX_pc (v : Byte) (s : State) : (setX v s).pc = s.pc := rfl
@[simp] theorem setX_ir (v : Byte) (s : State) : (setX v s).ir = s.ir := rfl
@[simp] theorem setX_halt (v : Byte) (s : State) : (setX v s).halt = s.halt := rfl
@[simp] theorem setX_mem (v : Byte) (s : State) : (setX v s).mem = s.mem := rfl

/-! ## setY -/

@[simp] theorem setY_a (v : Byte) (s : State) : (setY v s).a = s.a := rfl
@[simp] theorem setY_x (v : Byte) (s : State) : (setY v s).x = s.x := rfl
@[simp] theorem setY_y (v : Byte) (s : State) : (setY v s).y = v := rfl
@[simp] theorem setY_sp (v : Byte) (s : State) : (setY v s).sp = s.sp := rfl
@[simp] theorem setY_status (v : Byte) (s : State) : (setY v s).status = s.status := rfl
@[simp] theorem setY_pc (v : Byte) (s : State) : (setY v s).pc = s.pc := rfl
@[simp] theorem setY_ir (v : Byte) (s : State) : (setY v s).ir = s.ir := rfl
@[simp] theorem setY_halt (v : Byte) (s : State) : (setY v s).halt = s.halt := rfl
@[simp] theorem setY_mem (v : Byte) (s : State) : (setY v s).mem = s.mem := rfl

/-! ## setSP -/

@[simp] theorem setSP_a (v : Byte) (s : State) : (setSP v s).a = s.a := rfl
@[simp] theorem setSP_x (v : Byte) (s : State) : (setSP v s).x = s.x := rfl
@[simp] theorem setSP_y (v : Byte) (s : State) : (setSP v s).y = s.y := rfl
@[simp] theorem setSP_sp (v : Byte) (s : State) : (setSP v s).sp = v := rfl
@[simp] theorem setSP_status (v : Byte) (s : State) : (setSP v s).status = s.status := rfl
@[simp] theorem setSP_pc (v : Byte) (s : State) : (setSP v s).pc = s.pc := rfl
@[simp] theorem setSP_ir (v : Byte) (s : State) : (setSP v s).ir = s.ir := rfl
@[simp] theorem setSP_halt (v : Byte) (s : State) : (setSP v s).halt = s.halt := rfl
@[simp] theorem setSP_mem (v : Byte) (s : State) : (setSP v s).mem = s.mem := rfl

/-! ## setStatus -/

@[simp] theorem setStatus_a (v : Byte) (s : State) : (setStatus v s).a = s.a := rfl
@[simp] theorem setStatus_x (v : Byte) (s : State) : (setStatus v s).x = s.x := rfl
@[simp] theorem setStatus_y (v : Byte) (s : State) : (setStatus v s).y = s.y := rfl
@[simp] theorem setStatus_sp (v : Byte) (s : State) : (setStatus v s).sp = s.sp := rfl
@[simp] theorem setStatus_status (v : Byte) (s : State) : (setStatus v s).status = v := rfl
@[simp] theorem setStatus_pc (v : Byte) (s : State) : (setStatus v s).pc = s.pc := rfl
@[simp] theorem setStatus_ir (v : Byte) (s : State) : (setStatus v s).ir = s.ir := rfl
@[simp] theorem setStatus_halt (v : Byte) (s : State) : (setStatus v s).halt = s.halt := rfl
@[simp] theorem setStatus_mem (v : Byte) (s : State) : (setStatus v s).mem = s.mem := rfl

/-! ## setPC -/

@[simp] theorem setPC_a (v : Addr) (s : State) : (setPC v s).a = s.a := rfl
@[simp] theorem setPC_x (v : Addr) (s : State) : (setPC v s).x = s.x := rfl
@[simp] theorem setPC_y (v : Addr) (s : State) : (setPC v s).y = s.y := rfl
@[simp] theorem setPC_sp (v : Addr) (s : State) : (setPC v s).sp = s.sp := rfl
@[simp] theorem setPC_status (v : Addr) (s : State) : (setPC v s).status = s.status := rfl
@[simp] theorem setPC_pc (v : Addr) (s : State) : (setPC v s).pc = v := rfl
@[simp] theorem setPC_ir (v : Addr) (s : State) : (setPC v s).ir = s.ir := rfl
@[simp] theorem setPC_halt (v : Addr) (s : State) : (setPC v s).halt = s.halt := rfl
@[simp] theorem setPC_mem (v : Addr) (s : State) : (setPC v s).mem = s.mem := rfl

/-! ## setIR -/

@[simp] theorem setIR_a (v : Option Ir) (s : State) : (setIR v s).a = s.a := rfl
@[simp] theorem setIR_x (v : Option Ir) (s : State) : (setIR v s).x = s.x := rfl
@[simp] theorem setIR_y (v : Option Ir) (s : State) : (setIR v s).y = s.y := rfl
@[simp] theorem setIR_sp (v : Option Ir) (s : State) : (setIR v s).sp = s.sp := rfl
@[simp] theorem setIR_status (v : Option Ir) (s : State) : (setIR v s).status = s.status := rfl
@[simp] theorem setIR_pc (v : Option Ir) (s : State) : (setIR v s).pc = s.pc := rfl
@[simp] theorem setIR_ir (v : Option Ir) (s : State) : (setIR v s).ir = v := rfl
@[simp] theorem setIR_halt (v : Option Ir) (s : State) : (setIR v s).halt = s.halt := rfl
@[simp] theorem setIR_mem (v : Option Ir) (s : State) : (setIR v s).mem = s.mem := rfl

/-! ## setHalt -/

@[simp] theorem setHalt_a (v : Option FaultCause) (s : State) : (setHalt v s).a = s.a := rfl
@[simp] theorem setHalt_x (v : Option FaultCause) (s : State) : (setHalt v s).x = s.x := rfl
@[simp] theorem setHalt_y (v : Option FaultCause) (s : State) : (setHalt v s).y = s.y := rfl
@[simp] theorem setHalt_sp (v : Option FaultCause) (s : State) : (setHalt v s).sp = s.sp := rfl
@[simp] theorem setHalt_status (v : Option FaultCause) (s : State) : (setHalt v s).status = s.status := rfl
@[simp] theorem setHalt_pc (v : Option FaultCause) (s : State) : (setHalt v s).pc = s.pc := rfl
@[simp] theorem setHalt_ir (v : Option FaultCause) (s : State) : (setHalt v s).ir = s.ir := rfl
@[simp] theorem setHalt_halt (v : Option FaultCause) (s : State) : (setHalt v s).halt = v := rfl
@[simp] theorem setHalt_mem (v : Option FaultCause) (s : State) : (setHalt v s).mem = s.mem := rfl

/-! ## setMem -/

@[simp] theorem setMem_a (v : Memory) (s : State) : (setMem v s).a = s.a := rfl
@[simp] theorem setMem_x (v : Memory) (s : State) : (setMem v s).x = s.x := rfl
@[simp] theorem setMem_y (v : Memory) (s : State) : (setMem v s).y = s.y := rfl
@[simp] theorem setMem_sp (v : Memory) (s : State) : (setMem v s).sp = s.sp := rfl
@[simp] theorem setMem_status (v : Memory) (s : State) : (setMem v s).status = s.status := rfl
@[simp] theorem setMem_pc (v : Memory) (s : State) : (setMem v s).pc = s.pc := rfl
@[simp] theorem setMem_ir (v : Memory) (s : State) : (setMem v s).ir = s.ir := rfl
@[simp] theorem setMem_halt (v : Memory) (s : State) : (setMem v s).halt = s.halt := rfl
@[simp] theorem setMem_mem (v : Memory) (s : State) : (setMem v s).mem = v := rfl

/-! ## setN -/

@[simp] theorem setN_a (v : Bool) (s : State) : (setN v s).a = s.a := rfl
@[simp] theorem setN_x (v : Bool) (s : State) : (setN v s).x = s.x := rfl
@[simp] theorem setN_y (v : Bool) (s : State) : (setN v s).y = s.y := rfl
@[simp] theorem setN_sp (v : Bool) (s : State) : (setN v s).sp = s.sp := rfl
@[simp] theorem setN_pc (v : Bool) (s : State) : (setN v s).pc = s.pc := rfl
@[simp] theorem setN_ir (v : Bool) (s : State) : (setN v s).ir = s.ir := rfl
@[simp] theorem setN_halt (v : Bool) (s : State) : (setN v s).halt = s.halt := rfl
@[simp] theorem setN_mem (v : Bool) (s : State) : (setN v s).mem = s.mem := rfl

/-! ## setD -/

@[simp] theorem setD_a (v : Bool) (s : State) : (setD v s).a = s.a := rfl
@[simp] theorem setD_x (v : Bool) (s : State) : (setD v s).x = s.x := rfl
@[simp] theorem setD_y (v : Bool) (s : State) : (setD v s).y = s.y := rfl
@[simp] theorem setD_sp (v : Bool) (s : State) : (setD v s).sp = s.sp := rfl
@[simp] theorem setD_pc (v : Bool) (s : State) : (setD v s).pc = s.pc := rfl
@[simp] theorem setD_ir (v : Bool) (s : State) : (setD v s).ir = s.ir := rfl
@[simp] theorem setD_halt (v : Bool) (s : State) : (setD v s).halt = s.halt := rfl
@[simp] theorem setD_mem (v : Bool) (s : State) : (setD v s).mem = s.mem := rfl

/-! ## setI -/

@[simp] theorem setI_a (v : Bool) (s : State) : (setI v s).a = s.a := rfl
@[simp] theorem setI_x (v : Bool) (s : State) : (setI v s).x = s.x := rfl
@[simp] theorem setI_y (v : Bool) (s : State) : (setI v s).y = s.y := rfl
@[simp] theorem setI_sp (v : Bool) (s : State) : (setI v s).sp = s.sp := rfl
@[simp] theorem setI_pc (v : Bool) (s : State) : (setI v s).pc = s.pc := rfl
@[simp] theorem setI_ir (v : Bool) (s : State) : (setI v s).ir = s.ir := rfl
@[simp] theorem setI_halt (v : Bool) (s : State) : (setI v s).halt = s.halt := rfl
@[simp] theorem setI_mem (v : Bool) (s : State) : (setI v s).mem = s.mem := rfl

/-! ## setZ -/

@[simp] theorem setZ_a (v : Bool) (s : State) : (setZ v s).a = s.a := rfl
@[simp] theorem setZ_x (v : Bool) (s : State) : (setZ v s).x = s.x := rfl
@[simp] theorem setZ_y (v : Bool) (s : State) : (setZ v s).y = s.y := rfl
@[simp] theorem setZ_sp (v : Bool) (s : State) : (setZ v s).sp = s.sp := rfl
@[simp] theorem setZ_pc (v : Bool) (s : State) : (setZ v s).pc = s.pc := rfl
@[simp] theorem setZ_ir (v : Bool) (s : State) : (setZ v s).ir = s.ir := rfl
@[simp] theorem setZ_halt (v : Bool) (s : State) : (setZ v s).halt = s.halt := rfl
@[simp] theorem setZ_mem (v : Bool) (s : State) : (setZ v s).mem = s.mem := rfl

/-! ## setC -/

@[simp] theorem setC_a (v : Bool) (s : State) : (setC v s).a = s.a := rfl
@[simp] theorem setC_x (v : Bool) (s : State) : (setC v s).x = s.x := rfl
@[simp] theorem setC_y (v : Bool) (s : State) : (setC v s).y = s.y := rfl
@[simp] theorem setC_sp (v : Bool) (s : State) : (setC v s).sp = s.sp := rfl
@[simp] theorem setC_pc (v : Bool) (s : State) : (setC v s).pc = s.pc := rfl
@[simp] theorem setC_ir (v : Bool) (s : State) : (setC v s).ir = s.ir := rfl
@[simp] theorem setC_halt (v : Bool) (s : State) : (setC v s).halt = s.halt := rfl
@[simp] theorem setC_mem (v : Bool) (s : State) : (setC v s).mem = s.mem := rfl

/-! ## setNZ -/

@[simp] theorem setNZ_a (v : Byte) (s : State) : (setNZ v s).a = s.a := rfl
@[simp] theorem setNZ_x (v : Byte) (s : State) : (setNZ v s).x = s.x := rfl
@[simp] theorem setNZ_y (v : Byte) (s : State) : (setNZ v s).y = s.y := rfl
@[simp] theorem setNZ_sp (v : Byte) (s : State) : (setNZ v s).sp = s.sp := rfl
@[simp] theorem setNZ_pc (v : Byte) (s : State) : (setNZ v s).pc = s.pc := rfl
@[simp] theorem setNZ_ir (v : Byte) (s : State) : (setNZ v s).ir = s.ir := rfl
@[simp] theorem setNZ_halt (v : Byte) (s : State) : (setNZ v s).halt = s.halt := rfl
@[simp] theorem setNZ_mem (v : Byte) (s : State) : (setNZ v s).mem = s.mem := rfl

end Sys2Proof.Machine
end

