-- ==== Sys2Proof/Laws/Flags.lean ====
section
/-! SUPPORT. What the bit writes and the flag computations do to each bit of S. -/

namespace Sys2Proof.Machine

/-- A bit write changes its bit and no other (00_scope.md R7). -/
theorem writeBit_getLsbD (v : Byte) {i : Nat} (hi : i < 8) (b : Bool) (j : Nat) :
    (writeBit v i b).getLsbD j = if j = i then b else v.getLsbD j := by
  by_cases hj : j < 8
  · cases b <;> simp only [writeBit, Bool.false_eq_true, if_false, if_true, BitVec.getLsbD_or, BitVec.getLsbD_and,
      BitVec.getLsbD_not, BitVec.getLsbD_shiftLeft, BitVec.getLsbD_one] <;> by_cases h : j = i
    · subst h; simp [hj]
    · by_cases hlt : j < i
      · simp [hj, h, hlt]
      · have : j - i ≠ 0 := by omega
        simp [hj, h, this]
    · subst h; simp [hj]
    · by_cases hlt : j < i
      · simp [hj, h, hlt]
      · have : j - i ≠ 0 := by omega
        simp [h, this]
  · have : j ≠ i := by omega
    simp [this, BitVec.getLsbD_of_ge _ _ (Nat.le_of_not_lt hj)]

@[simp] theorem setN_bit (b : Bool) (s : State) (j : Nat) :
    (setN b s).status.getLsbD j = if j = 7 then b else s.status.getLsbD j := writeBit_getLsbD _ (by decide) _ _

@[simp] theorem setD_bit (b : Bool) (s : State) (j : Nat) :
    (setD b s).status.getLsbD j = if j = 3 then b else s.status.getLsbD j := writeBit_getLsbD _ (by decide) _ _

@[simp] theorem setI_bit (b : Bool) (s : State) (j : Nat) :
    (setI b s).status.getLsbD j = if j = 2 then b else s.status.getLsbD j := writeBit_getLsbD _ (by decide) _ _

@[simp] theorem setZ_bit (b : Bool) (s : State) (j : Nat) :
    (setZ b s).status.getLsbD j = if j = 1 then b else s.status.getLsbD j := writeBit_getLsbD _ (by decide) _ _

@[simp] theorem setC_bit (b : Bool) (s : State) (j : Nat) :
    (setC b s).status.getLsbD j = if j = 0 then b else s.status.getLsbD j := writeBit_getLsbD _ (by decide) _ _

/-- SetNZ writes bits 7 and 1 and no other (40_fetch_decode_operands.md R102). -/
@[simp] theorem setNZ_bit (v : Byte) (s : State) (j : Nat) :
    (setNZ v s).status.getLsbD j =
      if j = 1 then decide (v = 0) else if j = 7 then v.getLsbD 7 else s.status.getLsbD j := by
  simp [setNZ]

/-! ## The same laws for a bit named by a literal index, the form in which `simp` leaves it -/

theorem getElem_eq (v : Byte) (j : Nat) (h : j < 8) : v[j] = v.getLsbD j := (BitVec.getLsbD_eq_getElem h).symm

@[simp] theorem setN_getElem (b : Bool) (s : State) (j : Nat) (h : j < 8) :
    (setN b s).status[j] = if j = 7 then b else s.status[j] := by
  rw [getElem_eq, getElem_eq, setN_bit]

@[simp] theorem setD_getElem (b : Bool) (s : State) (j : Nat) (h : j < 8) :
    (setD b s).status[j] = if j = 3 then b else s.status[j] := by
  rw [getElem_eq, getElem_eq, setD_bit]

@[simp] theorem setI_getElem (b : Bool) (s : State) (j : Nat) (h : j < 8) :
    (setI b s).status[j] = if j = 2 then b else s.status[j] := by
  rw [getElem_eq, getElem_eq, setI_bit]

@[simp] theorem setZ_getElem (b : Bool) (s : State) (j : Nat) (h : j < 8) :
    (setZ b s).status[j] = if j = 1 then b else s.status[j] := by
  rw [getElem_eq, getElem_eq, setZ_bit]

@[simp] theorem setC_getElem (b : Bool) (s : State) (j : Nat) (h : j < 8) :
    (setC b s).status[j] = if j = 0 then b else s.status[j] := by
  rw [getElem_eq, getElem_eq, setC_bit]

@[simp] theorem setNZ_getElem (v : Byte) (s : State) (j : Nat) (h : j < 8) :
    (setNZ v s).status[j] = if j = 1 then decide (v = 0) else if j = 7 then v[7] else s.status[j] := by
  rw [getElem_eq, getElem_eq v, getElem_eq, setNZ_bit]

/-! ## The flags after each write -/

@[simp] theorem flagN_setN (b : Bool) (s : State) : flagN (setN b s) = b := by simp [flagN]
@[simp] theorem flagN_setD (b : Bool) (s : State) : flagN (setD b s) = flagN s := by simp [flagN]
@[simp] theorem flagN_setI (b : Bool) (s : State) : flagN (setI b s) = flagN s := by simp [flagN]
@[simp] theorem flagN_setZ (b : Bool) (s : State) : flagN (setZ b s) = flagN s := by simp [flagN]
@[simp] theorem flagN_setC (b : Bool) (s : State) : flagN (setC b s) = flagN s := by simp [flagN]
@[simp] theorem flagN_setNZ (v : Byte) (s : State) : flagN (setNZ v s) = v.getLsbD 7 := by simp [flagN]
@[simp] theorem flagN_setA (v : Byte) (s : State) : flagN (setA v s) = flagN s := rfl
@[simp] theorem flagN_setX (v : Byte) (s : State) : flagN (setX v s) = flagN s := rfl
@[simp] theorem flagN_setY (v : Byte) (s : State) : flagN (setY v s) = flagN s := rfl
@[simp] theorem flagN_setSP (v : Byte) (s : State) : flagN (setSP v s) = flagN s := rfl
@[simp] theorem flagN_setPC (v : Addr) (s : State) : flagN (setPC v s) = flagN s := rfl
@[simp] theorem flagN_setIR (v : Option Ir) (s : State) : flagN (setIR v s) = flagN s := rfl
@[simp] theorem flagN_setHalt (v : Option FaultCause) (s : State) : flagN (setHalt v s) = flagN s := rfl
@[simp] theorem flagN_setMem (v : Memory) (s : State) : flagN (setMem v s) = flagN s := rfl

@[simp] theorem flagV_setN (b : Bool) (s : State) : flagV (setN b s) = flagV s := by simp [flagV]
@[simp] theorem flagV_setD (b : Bool) (s : State) : flagV (setD b s) = flagV s := by simp [flagV]
@[simp] theorem flagV_setI (b : Bool) (s : State) : flagV (setI b s) = flagV s := by simp [flagV]
@[simp] theorem flagV_setZ (b : Bool) (s : State) : flagV (setZ b s) = flagV s := by simp [flagV]
@[simp] theorem flagV_setC (b : Bool) (s : State) : flagV (setC b s) = flagV s := by simp [flagV]
@[simp] theorem flagV_setNZ (v : Byte) (s : State) : flagV (setNZ v s) = flagV s := by simp [flagV]
@[simp] theorem flagV_setA (v : Byte) (s : State) : flagV (setA v s) = flagV s := rfl
@[simp] theorem flagV_setX (v : Byte) (s : State) : flagV (setX v s) = flagV s := rfl
@[simp] theorem flagV_setY (v : Byte) (s : State) : flagV (setY v s) = flagV s := rfl
@[simp] theorem flagV_setSP (v : Byte) (s : State) : flagV (setSP v s) = flagV s := rfl
@[simp] theorem flagV_setPC (v : Addr) (s : State) : flagV (setPC v s) = flagV s := rfl
@[simp] theorem flagV_setIR (v : Option Ir) (s : State) : flagV (setIR v s) = flagV s := rfl
@[simp] theorem flagV_setHalt (v : Option FaultCause) (s : State) : flagV (setHalt v s) = flagV s := rfl
@[simp] theorem flagV_setMem (v : Memory) (s : State) : flagV (setMem v s) = flagV s := rfl

@[simp] theorem flagU_setN (b : Bool) (s : State) : flagU (setN b s) = flagU s := by simp [flagU]
@[simp] theorem flagU_setD (b : Bool) (s : State) : flagU (setD b s) = flagU s := by simp [flagU]
@[simp] theorem flagU_setI (b : Bool) (s : State) : flagU (setI b s) = flagU s := by simp [flagU]
@[simp] theorem flagU_setZ (b : Bool) (s : State) : flagU (setZ b s) = flagU s := by simp [flagU]
@[simp] theorem flagU_setC (b : Bool) (s : State) : flagU (setC b s) = flagU s := by simp [flagU]
@[simp] theorem flagU_setNZ (v : Byte) (s : State) : flagU (setNZ v s) = flagU s := by simp [flagU]
@[simp] theorem flagU_setA (v : Byte) (s : State) : flagU (setA v s) = flagU s := rfl
@[simp] theorem flagU_setX (v : Byte) (s : State) : flagU (setX v s) = flagU s := rfl
@[simp] theorem flagU_setY (v : Byte) (s : State) : flagU (setY v s) = flagU s := rfl
@[simp] theorem flagU_setSP (v : Byte) (s : State) : flagU (setSP v s) = flagU s := rfl
@[simp] theorem flagU_setPC (v : Addr) (s : State) : flagU (setPC v s) = flagU s := rfl
@[simp] theorem flagU_setIR (v : Option Ir) (s : State) : flagU (setIR v s) = flagU s := rfl
@[simp] theorem flagU_setHalt (v : Option FaultCause) (s : State) : flagU (setHalt v s) = flagU s := rfl
@[simp] theorem flagU_setMem (v : Memory) (s : State) : flagU (setMem v s) = flagU s := rfl

@[simp] theorem flagB_setN (b : Bool) (s : State) : flagB (setN b s) = flagB s := by simp [flagB]
@[simp] theorem flagB_setD (b : Bool) (s : State) : flagB (setD b s) = flagB s := by simp [flagB]
@[simp] theorem flagB_setI (b : Bool) (s : State) : flagB (setI b s) = flagB s := by simp [flagB]
@[simp] theorem flagB_setZ (b : Bool) (s : State) : flagB (setZ b s) = flagB s := by simp [flagB]
@[simp] theorem flagB_setC (b : Bool) (s : State) : flagB (setC b s) = flagB s := by simp [flagB]
@[simp] theorem flagB_setNZ (v : Byte) (s : State) : flagB (setNZ v s) = flagB s := by simp [flagB]
@[simp] theorem flagB_setA (v : Byte) (s : State) : flagB (setA v s) = flagB s := rfl
@[simp] theorem flagB_setX (v : Byte) (s : State) : flagB (setX v s) = flagB s := rfl
@[simp] theorem flagB_setY (v : Byte) (s : State) : flagB (setY v s) = flagB s := rfl
@[simp] theorem flagB_setSP (v : Byte) (s : State) : flagB (setSP v s) = flagB s := rfl
@[simp] theorem flagB_setPC (v : Addr) (s : State) : flagB (setPC v s) = flagB s := rfl
@[simp] theorem flagB_setIR (v : Option Ir) (s : State) : flagB (setIR v s) = flagB s := rfl
@[simp] theorem flagB_setHalt (v : Option FaultCause) (s : State) : flagB (setHalt v s) = flagB s := rfl
@[simp] theorem flagB_setMem (v : Memory) (s : State) : flagB (setMem v s) = flagB s := rfl

@[simp] theorem flagD_setN (b : Bool) (s : State) : flagD (setN b s) = flagD s := by simp [flagD]
@[simp] theorem flagD_setD (b : Bool) (s : State) : flagD (setD b s) = b := by simp [flagD]
@[simp] theorem flagD_setI (b : Bool) (s : State) : flagD (setI b s) = flagD s := by simp [flagD]
@[simp] theorem flagD_setZ (b : Bool) (s : State) : flagD (setZ b s) = flagD s := by simp [flagD]
@[simp] theorem flagD_setC (b : Bool) (s : State) : flagD (setC b s) = flagD s := by simp [flagD]
@[simp] theorem flagD_setNZ (v : Byte) (s : State) : flagD (setNZ v s) = flagD s := by simp [flagD]
@[simp] theorem flagD_setA (v : Byte) (s : State) : flagD (setA v s) = flagD s := rfl
@[simp] theorem flagD_setX (v : Byte) (s : State) : flagD (setX v s) = flagD s := rfl
@[simp] theorem flagD_setY (v : Byte) (s : State) : flagD (setY v s) = flagD s := rfl
@[simp] theorem flagD_setSP (v : Byte) (s : State) : flagD (setSP v s) = flagD s := rfl
@[simp] theorem flagD_setPC (v : Addr) (s : State) : flagD (setPC v s) = flagD s := rfl
@[simp] theorem flagD_setIR (v : Option Ir) (s : State) : flagD (setIR v s) = flagD s := rfl
@[simp] theorem flagD_setHalt (v : Option FaultCause) (s : State) : flagD (setHalt v s) = flagD s := rfl
@[simp] theorem flagD_setMem (v : Memory) (s : State) : flagD (setMem v s) = flagD s := rfl

@[simp] theorem flagI_setN (b : Bool) (s : State) : flagI (setN b s) = flagI s := by simp [flagI]
@[simp] theorem flagI_setD (b : Bool) (s : State) : flagI (setD b s) = flagI s := by simp [flagI]
@[simp] theorem flagI_setI (b : Bool) (s : State) : flagI (setI b s) = b := by simp [flagI]
@[simp] theorem flagI_setZ (b : Bool) (s : State) : flagI (setZ b s) = flagI s := by simp [flagI]
@[simp] theorem flagI_setC (b : Bool) (s : State) : flagI (setC b s) = flagI s := by simp [flagI]
@[simp] theorem flagI_setNZ (v : Byte) (s : State) : flagI (setNZ v s) = flagI s := by simp [flagI]
@[simp] theorem flagI_setA (v : Byte) (s : State) : flagI (setA v s) = flagI s := rfl
@[simp] theorem flagI_setX (v : Byte) (s : State) : flagI (setX v s) = flagI s := rfl
@[simp] theorem flagI_setY (v : Byte) (s : State) : flagI (setY v s) = flagI s := rfl
@[simp] theorem flagI_setSP (v : Byte) (s : State) : flagI (setSP v s) = flagI s := rfl
@[simp] theorem flagI_setPC (v : Addr) (s : State) : flagI (setPC v s) = flagI s := rfl
@[simp] theorem flagI_setIR (v : Option Ir) (s : State) : flagI (setIR v s) = flagI s := rfl
@[simp] theorem flagI_setHalt (v : Option FaultCause) (s : State) : flagI (setHalt v s) = flagI s := rfl
@[simp] theorem flagI_setMem (v : Memory) (s : State) : flagI (setMem v s) = flagI s := rfl

@[simp] theorem flagZ_setN (b : Bool) (s : State) : flagZ (setN b s) = flagZ s := by simp [flagZ]
@[simp] theorem flagZ_setD (b : Bool) (s : State) : flagZ (setD b s) = flagZ s := by simp [flagZ]
@[simp] theorem flagZ_setI (b : Bool) (s : State) : flagZ (setI b s) = flagZ s := by simp [flagZ]
@[simp] theorem flagZ_setZ (b : Bool) (s : State) : flagZ (setZ b s) = b := by simp [flagZ]
@[simp] theorem flagZ_setC (b : Bool) (s : State) : flagZ (setC b s) = flagZ s := by simp [flagZ]
@[simp] theorem flagZ_setNZ (v : Byte) (s : State) : flagZ (setNZ v s) = decide (v = 0) := by simp [flagZ]
@[simp] theorem flagZ_setA (v : Byte) (s : State) : flagZ (setA v s) = flagZ s := rfl
@[simp] theorem flagZ_setX (v : Byte) (s : State) : flagZ (setX v s) = flagZ s := rfl
@[simp] theorem flagZ_setY (v : Byte) (s : State) : flagZ (setY v s) = flagZ s := rfl
@[simp] theorem flagZ_setSP (v : Byte) (s : State) : flagZ (setSP v s) = flagZ s := rfl
@[simp] theorem flagZ_setPC (v : Addr) (s : State) : flagZ (setPC v s) = flagZ s := rfl
@[simp] theorem flagZ_setIR (v : Option Ir) (s : State) : flagZ (setIR v s) = flagZ s := rfl
@[simp] theorem flagZ_setHalt (v : Option FaultCause) (s : State) : flagZ (setHalt v s) = flagZ s := rfl
@[simp] theorem flagZ_setMem (v : Memory) (s : State) : flagZ (setMem v s) = flagZ s := rfl

@[simp] theorem flagC_setN (b : Bool) (s : State) : flagC (setN b s) = flagC s := by simp [flagC]
@[simp] theorem flagC_setD (b : Bool) (s : State) : flagC (setD b s) = flagC s := by simp [flagC]
@[simp] theorem flagC_setI (b : Bool) (s : State) : flagC (setI b s) = flagC s := by simp [flagC]
@[simp] theorem flagC_setZ (b : Bool) (s : State) : flagC (setZ b s) = flagC s := by simp [flagC]
@[simp] theorem flagC_setC (b : Bool) (s : State) : flagC (setC b s) = b := by simp [flagC]
@[simp] theorem flagC_setNZ (v : Byte) (s : State) : flagC (setNZ v s) = flagC s := by simp [flagC]
@[simp] theorem flagC_setA (v : Byte) (s : State) : flagC (setA v s) = flagC s := rfl
@[simp] theorem flagC_setX (v : Byte) (s : State) : flagC (setX v s) = flagC s := rfl
@[simp] theorem flagC_setY (v : Byte) (s : State) : flagC (setY v s) = flagC s := rfl
@[simp] theorem flagC_setSP (v : Byte) (s : State) : flagC (setSP v s) = flagC s := rfl
@[simp] theorem flagC_setPC (v : Addr) (s : State) : flagC (setPC v s) = flagC s := rfl
@[simp] theorem flagC_setIR (v : Option Ir) (s : State) : flagC (setIR v s) = flagC s := rfl
@[simp] theorem flagC_setHalt (v : Option FaultCause) (s : State) : flagC (setHalt v s) = flagC s := rfl
@[simp] theorem flagC_setMem (v : Memory) (s : State) : flagC (setMem v s) = flagC s := rfl

end Sys2Proof.Machine
end

