-- ==== Sys2Proof/Laws/Memory.lean ====
section
/-! SUPPORT. The laws of the cells: a read after a write, and the canonical form. -/

namespace Sys2Proof.Machine

/-! ## Read after write -/

theorem cellGet_cellErase (m : Memory) (k j : Nat) :
    cellGet (cellErase m k) j = if j = k then Config.unlistedByte else cellGet m j := by
  induction m with
  | nil => simp [cellErase, cellGet]
  | cons c rest ih =>
    obtain ⟨k', v'⟩ := c
    by_cases hk : k' = k
    · have herase : cellErase ((k', v') :: rest) k = cellErase rest k := by simp [cellErase, hk]
      rw [herase, ih]
      by_cases hj : j = k
      · simp [hj]
      · simp [hj, cellGet, hk, Ne.symm hj]
    · have herase : cellErase ((k', v') :: rest) k = (k', v') :: cellErase rest k := by simp [cellErase, hk]
      rw [herase]
      by_cases hj : k' = j
      · subst hj; simp [cellGet, hk]
      · simp [cellGet, hj, ih]

theorem cellGet_cellInsert (m : Memory) (k : Nat) (v : Byte) (j : Nat) :
    cellGet (cellInsert m k v) j = if j = k then v else cellGet m j := by
  induction m with
  | nil =>
    by_cases h : j = k
    · simp [cellInsert, cellGet, h]
    · simp [cellInsert, cellGet, h, Ne.symm h]
  | cons c rest ih =>
    obtain ⟨k', v'⟩ := c
    simp only [cellInsert]
    split
    · by_cases h : j = k
      · simp [cellGet, h]
      · simp [cellGet, h, Ne.symm h]
    · split
      · next heq =>
        subst heq
        by_cases h : j = k
        · simp [cellGet, h]
        · simp [cellGet, h, Ne.symm h]
      · next hne =>
        by_cases h : k' = j
        · have hjk : j ≠ k := fun e => hne (e ▸ h.symm)
          simp [cellGet, h, hjk]
        · simp [cellGet, h, ih]

/-- Reading a cell after a write: the byte written in that cell, every other cell as before. -/
@[simp] theorem cellGet_cellSet (m : Memory) (k : Nat) (v : Byte) (j : Nat) :
    cellGet (cellSet m k v) j = if j = k then v else cellGet m j := by
  unfold cellSet
  split
  · next h => rw [cellGet_cellErase, h]
  · exact cellGet_cellInsert m k v j

/-! ## The canonical form -/

theorem cellsCanonical_mono {lo lo' : Nat} (h : lo' ≤ lo) {m : Memory} (hm : cellsCanonical lo m = true) :
    cellsCanonical lo' m = true := by
  cases m with
  | nil => rfl
  | cons c rest =>
    simp only [cellsCanonical, Bool.and_eq_true, decide_eq_true_eq] at hm ⊢
    exact ⟨⟨⟨by omega, hm.1.1.2⟩, hm.1.2⟩, hm.2⟩

theorem cellsCanonical_cellErase {lo : Nat} {m : Memory} (hm : cellsCanonical lo m = true) (k : Nat) :
    cellsCanonical lo (cellErase m k) = true := by
  induction m generalizing lo with
  | nil => rfl
  | cons c rest ih =>
    obtain ⟨k', v'⟩ := c
    simp only [cellsCanonical, Bool.and_eq_true, decide_eq_true_eq] at hm
    by_cases hk : k' = k
    · have herase : cellErase ((k', v') :: rest) k = cellErase rest k := by simp [cellErase, hk]
      rw [herase]
      exact cellsCanonical_mono (by omega) (ih hm.2)
    · have herase : cellErase ((k', v') :: rest) k = (k', v') :: cellErase rest k := by simp [cellErase, hk]
      rw [herase]
      simp only [cellsCanonical, Bool.and_eq_true, decide_eq_true_eq]
      exact ⟨hm.1, ih hm.2⟩

theorem cellsCanonical_cellInsert {lo : Nat} {m : Memory} (hm : cellsCanonical lo m = true) {k : Nat} (hlo : lo ≤ k)
    (hk : isCellKey k = true) {v : Byte} (hv : v ≠ Config.unlistedByte) :
    cellsCanonical lo (cellInsert m k v) = true := by
  induction m generalizing lo with
  | nil => simp [cellInsert, cellsCanonical, hlo, hk, hv]
  | cons c rest ih =>
    obtain ⟨k', v'⟩ := c
    have hm' := hm
    simp only [cellsCanonical, Bool.and_eq_true, decide_eq_true_eq] at hm'
    simp only [cellInsert]
    split
    · next hlt =>
      simp only [cellsCanonical, Bool.and_eq_true, decide_eq_true_eq]
      exact ⟨⟨⟨hlo, hk⟩, hv⟩, ⟨⟨by omega, hm'.1.1.2⟩, hm'.1.2⟩, hm'.2⟩
    · split
      · next heq =>
        simp only [cellsCanonical, Bool.and_eq_true, decide_eq_true_eq]
        exact ⟨⟨⟨hlo, hk⟩, hv⟩, heq ▸ hm'.2⟩
      · simp only [cellsCanonical, Bool.and_eq_true, decide_eq_true_eq]
        exact ⟨hm'.1, ih hm'.2 (by omega)⟩

/-- A write to a cell keeps the canonical form. -/
theorem wf_cellSet {m : Memory} (hm : m.wf = true) {k : Nat} (hk : isCellKey k = true) (v : Byte) :
    (cellSet m k v).wf = true := by
  unfold cellSet
  split
  · exact cellsCanonical_cellErase hm k
  · next hv => exact cellsCanonical_cellInsert hm (Nat.zero_le k) hk hv

/-- Loading an array whose cells all exist keeps the canonical form. -/
theorem wf_cellsLoad {m : Memory} (hm : m.wf = true) (bytes : List Byte) (base : Nat)
    (hk : ∀ i, i < bytes.length → isCellKey (base + i) = true) : (cellsLoad base bytes m).wf = true := by
  induction bytes generalizing base m with
  | nil => exact hm
  | cons b rest ih =>
    simp only [cellsLoad]
    refine ih (wf_cellSet hm (by simpa using hk 0 (by simp)) b) (base + 1) (fun i hi => ?_)
    have := hk (i + 1) (by simpa using hi)
    rwa [show base + 1 + i = base + (i + 1) by omega]

/-- A loaded array: its bytes in its cells, every other cell as before. -/
theorem cellGet_cellsLoad (m : Memory) (bytes : List Byte) (base j : Nat) :
    cellGet (cellsLoad base bytes m) j =
      if h : base ≤ j ∧ j - base < bytes.length then bytes[j - base]'h.2 else cellGet m j := by
  induction bytes generalizing base m with
  | nil => simp [cellsLoad]
  | cons b rest ih =>
    simp only [cellsLoad, ih, cellGet_cellSet]
    by_cases hj : j = base
    · subst hj
      simp
    · by_cases hle : base + 1 ≤ j
      · have e : j - base = (j - (base + 1)) + 1 := by omega
        by_cases hlen : j - (base + 1) < rest.length
        · have h2 : base ≤ j ∧ j - base < (b :: rest).length := by simp; omega
          rw [dif_pos ⟨hle, hlen⟩, dif_pos h2]
          simp [e]
        · have h2 : ¬ (base ≤ j ∧ j - base < (b :: rest).length) := by simp; omega
          rw [dif_neg (fun h => hlen h.2), dif_neg h2]
          simp [hj]
      · have h1 : ¬ (base + 1 ≤ j ∧ j - (base + 1) < rest.length) := fun h => hle h.1
        have h2 : ¬ (base ≤ j ∧ j - base < (b :: rest).length) := by intro h; omega
        rw [dif_neg h1, dif_neg h2]
        simp [hj]

/-! ## The bus decode -/

/-- The one case split of the bus decode (20_memory.md R51). -/
theorem busCell_cases (addr : Addr) :
    (addr.toNat < 0x2000 ∧ busCell addr = .ok (addr.toNat % 0x0800)) ∨
    (((0x2000 ≤ addr.toNat ∧ addr.toNat < 0x2008) ∨ (0x4000 ≤ addr.toNat ∧ addr.toNat < 0x4018) ∨
        0x8000 ≤ addr.toNat) ∧ busCell addr = .ok addr.toNat) ∨
    (((0x2008 ≤ addr.toNat ∧ addr.toNat < 0x4000) ∨ (0x4018 ≤ addr.toNat ∧ addr.toNat < 0x4020) ∨
        (0x6000 ≤ addr.toNat ∧ addr.toNat < 0x8000)) ∧ busCell addr = .error (.unimplementedRegion addr)) ∨
    ((0x4020 ≤ addr.toNat ∧ addr.toNat < 0x6000) ∧ busCell addr = .error (.invalidAddress addr)) := by
  simp only [busCell]
  split_ifs <;> first
    | exact Or.inl ⟨by omega, rfl⟩
    | exact Or.inr (Or.inl ⟨by omega, rfl⟩)
    | exact Or.inr (Or.inr (Or.inl ⟨by omega, rfl⟩))
    | exact Or.inr (Or.inr (Or.inr ⟨by omega, rfl⟩))

/-- The bus decode names only cells that exist. -/
theorem isCellKey_of_busCell {addr : Addr} {k : Nat} (h : busCell addr = .ok k) : isCellKey k = true := by
  have hlt := addr.isLt
  rcases busCell_cases addr with ⟨hr, hc⟩ | ⟨hr, hc⟩ | ⟨hr, hc⟩ | ⟨hr, hc⟩ <;> rw [hc] at h <;>
    simp only [Except.ok.injEq, reduceCtorEq] at h <;> subst h <;>
    simp only [isCellKey, Bool.or_eq_true, Bool.and_eq_true, decide_eq_true_eq] <;> omega

theorem busRead_of_cell {addr : Addr} {k : Nat} (h : busCell addr = .ok k) (m : Memory) :
    busRead addr m = .ok (cellGet m k) := by simp [busRead, h]

theorem busRead_of_fault {addr : Addr} {c : FaultCause} (h : busCell addr = .error c) (m : Memory) :
    busRead addr m = .error c := by simp [busRead, h]

/-- Everything a bus read can answer. -/
theorem busRead_eq_ok {addr : Addr} {m : Memory} {v : Byte} :
    busRead addr m = .ok v ↔ ∃ k, busCell addr = .ok k ∧ cellGet m k = v := by
  cases h : busCell addr <;> simp [busRead, h]

theorem busRead_eq_error {addr : Addr} {m : Memory} {c : FaultCause} :
    busRead addr m = .error c ↔ busCell addr = .error c := by
  cases h : busCell addr <;> simp [busRead, h]

/-- A bus read after a cell write. -/
theorem busRead_cellSet (addr : Addr) (m : Memory) (k : Nat) (v : Byte) :
    busRead addr (cellSet m k v) = if busCell addr = .ok k then .ok v else busRead addr m := by
  cases h : busCell addr with
  | error c => simp [busRead, h]
  | ok j => by_cases hj : j = k <;> simp [busRead, h, hj]

end Sys2Proof.Machine
end

