-- ==== Sys2Proof/Laws/Ops.lean ====
section
/-! SUPPORT. What each shared operation answers, said once: the memory port, WordAdd, the stack, the resolvers. -/

namespace Sys2Proof.Machine

/-! ## Outcomes -/

@[simp] theorem outcome_ok (t : State) : outcome (.ok t) = .next t := rfl
@[simp] theorem outcome_error (f : Fault) : outcome (.error f) = .fault f := rfl

theorem outcome_next {r : Except Fault State} {t : State} : outcome r = .next t ↔ r = .ok t := by
  cases r <;> simp [outcome]

theorem outcome_fault {r : Except Fault State} {f : Fault} : outcome r = .fault f ↔ r = .error f := by
  cases r <;> simp [outcome]

theorem outcome_not_refused {r : Except Fault State} {q : Refusal} : outcome r ≠ .refused q := by
  cases r <;> simp [outcome]

/-! ## The memory port -/

theorem reference_read_ok {addr : Addr} {m m' : Memory} {v : Byte} :
    Environment.reference.read addr m = .ok (v, m') ↔ busRead addr m = .ok v ∧ m' = m := by
  cases h : busRead addr m <;> simp [Environment.reference, h, Except.map, eq_comm]

theorem reference_read_error {addr : Addr} {m : Memory} {c : FaultCause} :
    Environment.reference.read addr m = .error c ↔ busRead addr m = .error c := by
  cases h : busRead addr m <;> simp [Environment.reference, h, Except.map]

@[simp] theorem reference_write (addr : Addr) (v : Byte) (m : Memory) :
    Environment.reference.write addr v m = busWrite addr v m := rfl

/-- No address of the reference environment has a side effect on a read (20_memory.md R46). -/
theorem reference_readsArePure : Environment.reference.ReadsArePure := fun _ _ _ _ h => (reference_read_ok.mp h).2

/-- What reads alone can have done to the state: nothing but the side effects of the environment. -/
def AfterReads (env : Environment) (s t : State) : Prop := ∃ m, t = setMem m s ∧ (env.ReadsArePure → m = s.mem)

theorem AfterReads.refl (env : Environment) (s : State) : AfterReads env s s := ⟨s.mem, rfl, fun _ => rfl⟩

theorem AfterReads.trans {env : Environment} {s t u : State} (h1 : AfterReads env s t) (h2 : AfterReads env t u) :
    AfterReads env s u := by
  obtain ⟨m, rfl, hm⟩ := h1
  obtain ⟨m', rfl, hm'⟩ := h2
  exact ⟨m', rfl, fun hp => (hm' hp).trans (hm hp)⟩

theorem AfterReads.reference {s t : State} (h : AfterReads .reference s t) : t = s := by
  obtain ⟨m, rfl, hm⟩ := h
  rw [hm reference_readsArePure]
  rfl

theorem memRead_env_ok {addr : Addr} {s t : State} {env : Environment} {v : Byte} :
    memRead addr s env = .ok (v, t) ↔ ∃ m, env.read addr s.mem = .ok (v, m) ∧ t = setMem m s := by
  cases h : env.read addr s.mem <;> simp [memRead, h, raise, Prod.ext_iff, eq_comm]

/-- A read that faults leaves the state but for HALT (60_exceptions.md R172). -/
theorem memRead_env_error {addr : Addr} {s : State} {env : Environment} {f : Fault} :
    memRead addr s env = .error f ↔ ∃ c, env.read addr s.mem = .error c ∧ f = .raised c (setHalt (some c) s) := by
  cases h : env.read addr s.mem <;> simp [memRead, h, raise, eq_comm]

theorem memRead_reads {addr : Addr} {s t : State} {env : Environment} {v : Byte}
    (h : memRead addr s env = .ok (v, t)) : AfterReads env s t := by
  obtain ⟨m, hm, rfl⟩ := memRead_env_ok.mp h
  exact ⟨m, rfl, fun hp => hp _ _ _ _ hm⟩

theorem memWrite_env_ok {addr : Addr} {v : Byte} {s t : State} {env : Environment} :
    memWrite addr v s env = .ok t ↔ ∃ m, env.write addr v s.mem = .ok m ∧ t = setMem m s := by
  cases h : env.write addr v s.mem <;> simp [memWrite, h, raise, eq_comm]

/-- A write that faults leaves the state but for HALT (20_memory.md R42). -/
theorem memWrite_env_error {addr : Addr} {v : Byte} {s : State} {env : Environment} {f : Fault} :
    memWrite addr v s env = .error f ↔
      ∃ c, env.write addr v s.mem = .error c ∧ f = .raised c (setHalt (some c) s) := by
  cases h : env.write addr v s.mem <;> simp [memWrite, h, raise, eq_comm]

theorem memRead_ok {addr : Addr} {s t : State} {v : Byte} :
    memRead addr s = .ok (v, t) ↔ busRead addr s.mem = .ok v ∧ t = s := by
  rw [memRead_env_ok]
  constructor
  · rintro ⟨m, hm, rfl⟩
    obtain ⟨hv, rfl⟩ := reference_read_ok.mp hm
    exact ⟨hv, rfl⟩
  · rintro ⟨h, rfl⟩
    exact ⟨_, reference_read_ok.mpr ⟨h, rfl⟩, rfl⟩

theorem memRead_error {addr : Addr} {s : State} {f : Fault} :
    memRead addr s = .error f ↔ ∃ c, busRead addr s.mem = .error c ∧ f = .raised c (setHalt (some c) s) := by
  simp only [memRead_env_error, reference_read_error]

theorem memWrite_ok {addr : Addr} {v : Byte} {s t : State} :
    memWrite addr v s = .ok t ↔ ∃ k, busCell addr = .ok k ∧ t = setMem (cellSet s.mem k v) s := by
  cases h : busCell addr <;> simp [memWrite, busWrite, h, raise, eq_comm]

theorem memWrite_error {addr : Addr} {v : Byte} {s : State} {f : Fault} :
    memWrite addr v s = .error f ↔ ∃ c, busCell addr = .error c ∧ f = .raised c (setHalt (some c) s) := by
  cases h : busCell addr <;> simp [memWrite, busWrite, h, raise, eq_comm]

/-! ## The address generator -/

/-- In range the sum is exact (40_fetch_decode_operands.md R90). -/
theorem wordAdd_ok {w : Addr} {k : Int} {s : State} {r : Addr} :
    wordAdd w k s = .ok r ↔ (r.toNat : Int) = w.toNat + k := by
  have hr := r.isLt
  simp only [wordAdd]
  split
  · next h => simp only [raise, reduceCtorEq, false_iff]; omega
  · next h =>
    simp only [Except.ok.injEq]
    constructor
    · rintro rfl
      simp only [BitVec.toNat_ofInt]
      omega
    · intro e
      apply BitVec.eq_of_toNat_eq
      simp only [BitVec.toNat_ofInt]
      omega

/-- Out of range it is the fault `WordOverflow` (40_fetch_decode_operands.md R90). -/
theorem wordAdd_error {w : Addr} {k : Int} {s : State} {f : Fault} :
    wordAdd w k s = .error f ↔
      ((w.toNat : Int) + k < 0 ∨ 0xFFFF < (w.toNat : Int) + k) ∧
        f = .raised (.wordOverflow w k) (setHalt (some (.wordOverflow w k)) s) := by
  simp only [wordAdd]
  split
  · next h => simp [raise, h, eq_comm]
  · next h => simp [h]

theorem wordAdd_nat {w : Addr} {n : Nat} {s : State} (h : w.toNat + n ≤ 0xFFFF) :
    wordAdd w (n : Int) s = .ok (w + BitVec.ofNat 16 n) := by
  rw [wordAdd_ok]
  simp only [BitVec.toNat_add, BitVec.toNat_ofNat]
  omega

/-! ## The stack -/

theorem wordOf_toNat (high low : Byte) : (wordOf high low).toNat = high.toNat * 256 + low.toNat := by
  have hl := low.isLt
  simp only [wordOf, BitVec.toNat_append]
  rw [← Nat.shiftLeft_add_eq_or_of_lt hl, Nat.shiftLeft_eq]

@[simp] theorem wordOf_high_low (w : Addr) : wordOf (highByte w) (lowByte w) = w := by
  apply BitVec.eq_of_toNat_eq
  have := w.isLt
  rw [wordOf_toNat]
  simp only [highByte, lowByte, BitVec.extractLsb'_toNat, Nat.shiftRight_eq_div_pow]
  omega

@[simp] theorem highByte_wordOf (high low : Byte) : highByte (wordOf high low) = high := by
  apply BitVec.eq_of_toNat_eq
  have := low.isLt
  have := high.isLt
  simp only [highByte, BitVec.extractLsb'_toNat, wordOf_toNat, Nat.shiftRight_eq_div_pow]
  omega

@[simp] theorem lowByte_wordOf (high low : Byte) : lowByte (wordOf high low) = low := by
  apply BitVec.eq_of_toNat_eq
  have := low.isLt
  have := high.isLt
  simp only [lowByte, BitVec.extractLsb'_toNat, wordOf_toNat, Nat.shiftRight_eq_div_pow]
  omega

/-- The stack cell is RAM (20_memory.md R52): a stack access never faults. -/
@[simp] theorem busCell_stackAddr (sp : Byte) : busCell (stackAddr sp) = .ok (0x100 + sp.toNat) := by
  have := sp.isLt
  have h : (stackAddr sp).toNat = 0x100 + sp.toNat := by simp [stackAddr, wordOf_toNat]
  simp only [busCell, h]
  rw [if_pos (by omega), Nat.mod_eq_of_lt (by omega)]

/-- The zero page is RAM (20_memory.md R52): a zero-page access never faults. -/
@[simp] theorem busCell_zeroPageAddr (b : Byte) : busCell (zeroPageAddr b) = .ok b.toNat := by
  have := b.isLt
  have h : (zeroPageAddr b).toNat = b.toNat := by simp [zeroPageAddr, wordOf_toNat]
  simp only [busCell, h]
  rw [if_pos (by omega), Nat.mod_eq_of_lt (by omega)]

/-- Everything Push that completes does, in any environment (42_stack.md R126). -/
theorem push_env_ok {v : Byte} {s t : State} {env : Environment} :
    push v s env = .ok t ↔ ∃ m, env.write (stackAddr s.sp) v s.mem = .ok m ∧ t = setSP (s.sp - 1) (setMem m s) := by
  cases h : env.write (stackAddr s.sp) v s.mem <;> simp [push, memWrite, h, raise, eq_comm]

/-- A push whose write faults leaves SP (42_stack.md R126). -/
theorem push_env_error {v : Byte} {s : State} {env : Environment} {f : Fault} :
    push v s env = .error f ↔
      ∃ c, env.write (stackAddr s.sp) v s.mem = .error c ∧ f = .raised c (setHalt (some c) s) := by
  cases h : env.write (stackAddr s.sp) v s.mem <;> simp [push, memWrite, h, raise, eq_comm]

/-- Everything Pop that completes does, in any environment (42_stack.md R127). -/
theorem pop_env_ok {v : Byte} {s t : State} {env : Environment} :
    pop s env = .ok (v, t) ↔
      ∃ m, env.read (stackAddr (s.sp + 1)) s.mem = .ok (v, m) ∧ t = setMem m (setSP (s.sp + 1) s) := by
  simp only [pop, memRead_env_ok, setSP_mem]

/-- A pop whose read faults has moved SP (42_stack.md R127). -/
theorem pop_env_error {s : State} {env : Environment} {f : Fault} :
    pop s env = .error f ↔
      ∃ c, env.read (stackAddr (s.sp + 1)) s.mem = .error c ∧
        f = .raised c (setHalt (some c) (setSP (s.sp + 1) s)) := by
  simp only [pop, memRead_env_error, setSP_mem]

/-- Everything Push does in the reference environment. -/
@[simp] theorem push_eq (v : Byte) (s : State) :
    push v s = .ok (setSP (s.sp - 1) (setMem (cellSet s.mem (0x100 + s.sp.toNat) v) s)) := by
  have : memWrite (stackAddr s.sp) v s = .ok (setMem (cellSet s.mem (0x100 + s.sp.toNat) v) s) :=
    memWrite_ok.mpr ⟨_, busCell_stackAddr _, rfl⟩
  simp only [push, this, setMem_sp]

/-- Everything Pop does in the reference environment. -/
@[simp] theorem pop_eq (s : State) :
    pop s = .ok (cellGet s.mem (0x100 + (s.sp + 1).toNat), setSP (s.sp + 1) s) :=
  memRead_ok.mpr ⟨busRead_of_cell (busCell_stackAddr _) _, rfl⟩

/-! ## The resolvers -/

@[simp] theorem value_accumulator (op : Operation) (s : State) (env : Environment) :
    value ⟨op, .accumulator, .nothing⟩ s env = .ok (s.a, s) := rfl
@[simp] theorem value_immediate (op : Operation) (b : Byte) (s : State) (env : Environment) :
    value ⟨op, .immediate, .byte b⟩ s env = .ok (b, s) := rfl
@[simp] theorem value_zeropage (op : Operation) (b : Byte) (s : State) (env : Environment) :
    value ⟨op, .zeropage, .byte b⟩ s env = memRead (zeroPageAddr b) s env := rfl
@[simp] theorem value_absolute (op : Operation) (w : Addr) (s : State) (env : Environment) :
    value ⟨op, .absolute, .word w⟩ s env = memRead w s env := rfl
@[simp] theorem address_zeropage (op : Operation) (b : Byte) (s : State) (env : Environment) :
    address ⟨op, .zeropage, .byte b⟩ s env = .ok (zeroPageAddr b, s) := rfl
@[simp] theorem address_absolute (op : Operation) (w : Addr) (s : State) (env : Environment) :
    address ⟨op, .absolute, .word w⟩ s env = .ok (w, s) := rfl
@[simp] theorem address_relative (op : Operation) (b : Byte) (s : State) (env : Environment) :
    address ⟨op, .relative, .byte b⟩ s env = (wordAdd s.pc (sext16 b) s).map (fun target => (target, s)) := rfl
@[simp] theorem address_indirect (op : Operation) (w : Addr) (s : State) (env : Environment) :
    address ⟨op, .indirect, .word w⟩ s env = indirectTarget w s env := rfl

/-- The displacement is the signed reading of its byte (00_scope.md R7). -/
theorem sext16_eq_toInt (b : Byte) : sext16 b = b.toInt := by
  have := b.isLt
  simp only [sext16, BitVec.toInt]
  split_ifs <;> omega

theorem indirectTarget_reads {w target : Addr} {s t : State} {env : Environment}
    (h : indirectTarget w s env = .ok (target, t)) : AfterReads env s t := by
  unfold indirectTarget at h
  split at h
  · cases h
  · next lo s1 h1 =>
    split at h
    · cases h
    · split at h
      · cases h
      · next hi s2 h2 =>
        cases h
        exact (memRead_reads h1).trans (memRead_reads h2)

/-- No resolver that completes does anything to the state but read (40_fetch_decode_operands.md R96, R97). -/
theorem value_reads {instr : Ir} {s t : State} {env : Environment} {v : Byte} (h : value instr s env = .ok (v, t)) :
    AfterReads env s t := by
  unfold value at h
  split at h
  · cases h; exact .refl _ _
  · cases h; exact .refl _ _
  · exact memRead_reads h
  · exact memRead_reads h
  · cases h

theorem address_reads {instr : Ir} {s t : State} {env : Environment} {w : Addr}
    (h : address instr s env = .ok (w, t)) : AfterReads env s t := by
  unfold address at h
  split at h
  · cases h; exact .refl _ _
  · cases h; exact .refl _ _
  · cases hr : relativeTarget _ s <;> rw [hr] at h <;> cases h
    exact .refl _ _
  · exact indirectTarget_reads h
  · cases h

/-- No resolver that faults has done anything to the state but read and set HALT (40_fetch_decode_operands.md R96,
R97). -/
theorem value_error {instr : Ir} {s : State} {env : Environment} {f : Fault} (h : value instr s env = .error f) :
    ∃ c, f = .raised c (setHalt (some c) s) := by
  unfold value at h
  split at h
  · simp at h
  · simp at h
  · obtain ⟨c, _, rfl⟩ := memRead_env_error.mp h; exact ⟨c, rfl⟩
  · obtain ⟨c, _, rfl⟩ := memRead_env_error.mp h; exact ⟨c, rfl⟩
  · simp only [raise, Except.error.injEq] at h; exact ⟨_, h.symm⟩

theorem indirectTarget_error {w : Addr} {s : State} {env : Environment} {f : Fault}
    (h : indirectTarget w s env = .error f) : ∃ c u, AfterReads env s u ∧ f = .raised c (setHalt (some c) u) := by
  unfold indirectTarget at h
  split at h
  · next e he =>
    obtain ⟨c, _, rfl⟩ := memRead_env_error.mp he
    exact ⟨c, s, .refl _ _, (Except.error.inj h).symm⟩
  · next lo s1 h1 =>
    split at h
    · next e he =>
      obtain ⟨_, rfl⟩ := wordAdd_error.mp he
      exact ⟨_, s1, memRead_reads h1, (Except.error.inj h).symm⟩
    · split at h
      · next e he =>
        obtain ⟨c, _, rfl⟩ := memRead_env_error.mp he
        exact ⟨c, s1, memRead_reads h1, (Except.error.inj h).symm⟩
      · simp at h

theorem address_error {instr : Ir} {s : State} {env : Environment} {f : Fault} (h : address instr s env = .error f) :
    ∃ c u, AfterReads env s u ∧ f = .raised c (setHalt (some c) u) := by
  unfold address at h
  split at h
  · simp at h
  · simp at h
  · next b _ _ =>
    cases hr : relativeTarget b s with
    | error e =>
      rw [hr] at h
      obtain ⟨_, rfl⟩ := wordAdd_error.mp hr
      exact ⟨_, s, .refl _ _, (Except.error.inj h).symm⟩
    | ok target => rw [hr] at h; cases h
  · exact indirectTarget_error h
  · simp only [raise, Except.error.injEq] at h; exact ⟨_, s, .refl _ _, h.symm⟩

end Sys2Proof.Machine
end

