-- ==== Sys2Proof/Laws/Meanings.lean ====
section
/-! SUPPORT. What each shape of meaning answers, said once, and from these what every execute phase does: how it faults,
what it never touches, and that it keeps memory canonical. -/

namespace Sys2Proof.Machine

/-- One store at an address the bus decodes: that cell reads the byte, every other address reads as before. -/
theorem busRead_stored {addr : Addr} {k : Nat} (h : busCell addr = .ok k) (m : Memory) (v : Byte) (a : Addr) :
    busRead a (cellSet m k v) = if busCell a = busCell addr then .ok v else busRead a m := by
  rw [busRead_cellSet, h]

theorem wf_memWrite {addr : Addr} {v : Byte} {s t : State} (hs : s.mem.wf = true) (h : memWrite addr v s = .ok t) :
    t.mem.wf = true := by
  obtain ⟨k, hk, rfl⟩ := memWrite_ok.mp h
  exact wf_cellSet hs (isCellKey_of_busCell hk) v

theorem wf_stackCell {m : Memory} (hm : m.wf = true) (sp v : Byte) : (cellSet m (0x100 + sp.toNat) v).wf = true :=
  wf_cellSet hm (isCellKey_of_busCell (busCell_stackAddr sp)) v

/-! ## The shapes when they go on -/

theorem shiftA_ok {carry : Byte → Bool} {shift : Byte → Byte} {instr : Ir} {s t : State} {env : Environment} :
    shiftA carry shift instr s env = .ok t ↔
      ∃ v u, value instr s env = .ok (v, u) ∧ t = setNZ (shift v) (setA (shift v) (setC (carry v) u)) := by
  cases h : value instr s env <;> simp [shiftA, h, Prod.ext_iff, eq_comm]

theorem andA_ok {instr : Ir} {s t : State} {env : Environment} :
    andA instr s env = .ok t ↔
      ∃ v u, value instr s env = .ok (v, u) ∧ t = setNZ (u.a &&& v) (setA (u.a &&& v) u) := by
  cases h : value instr s env <;> simp [andA, h, Prod.ext_iff, eq_comm]

theorem loadInto_ok {write : Byte → State → State} {instr : Ir} {s t : State} {env : Environment} :
    loadInto write instr s env = .ok t ↔ ∃ v u, value instr s env = .ok (v, u) ∧ t = write v (setNZ v u) := by
  cases h : value instr s env <;> simp [loadInto, h, Prod.ext_iff, eq_comm]

theorem compareWith_ok {r : Byte} {instr : Ir} {s t : State} {env : Environment} :
    compareWith r instr s env = .ok t ↔
      ∃ v u, value instr s env = .ok (v, u) ∧ t = setC (carryOfCompare r v) (setNZ (r - v) u) := by
  cases h : value instr s env <;> simp [compareWith, h, Prod.ext_iff, eq_comm]

theorem storeFrom_ok {v : Byte} {instr : Ir} {s t : State} {env : Environment} :
    storeFrom v instr s env = .ok t ↔ ∃ addr u, address instr s env = .ok (addr, u) ∧ memWrite addr v u env = .ok t := by
  cases h : address instr s env <;> simp [storeFrom, h, Prod.ext_iff]

/-- A read that completes is followed by a write that completes: one decode serves both (20_memory.md R51). -/
theorem modifyMemory_ok {f : Byte → Byte} {instr : Ir} {s t : State} :
    modifyMemory f instr s = .ok t ↔
      ∃ addr k, address instr s = .ok (addr, s) ∧ busCell addr = .ok k ∧
        t = setNZ (f (cellGet s.mem k)) (setMem (cellSet s.mem k (f (cellGet s.mem k))) s) := by
  cases h : address instr s with
  | error e => simp [modifyMemory, h]
  | ok p =>
    obtain ⟨addr, u⟩ := p
    obtain rfl := (address_reads h).reference
    cases hc : busCell addr with
    | error c => simp [modifyMemory, h, memRead_error.mpr ⟨c, busRead_of_fault hc _, rfl⟩, hc]
    | ok k =>
      simp [modifyMemory, h, memRead_ok.mpr ⟨busRead_of_cell hc _, rfl⟩, memWrite_ok.mpr ⟨k, hc, rfl⟩, hc, eq_comm]

theorem branch_ok {cond : Bool} {instr : Ir} {s t : State} {env : Environment} :
    branch cond instr s env = .ok t ↔
      (cond = false ∧ t = s) ∨
        (cond = true ∧ ∃ target u, address instr s env = .ok (target, u) ∧ t = setPC target u) := by
  cases cond <;> cases h : address instr s env <;> simp [branch, h, Prod.ext_iff, eq_comm]

theorem jump_ok {instr : Ir} {s t : State} {env : Environment} :
    jump instr s env = .ok t ↔ ∃ target u, address instr s env = .ok (target, u) ∧ t = setPC target u := by
  cases h : address instr s env <;> simp [jump, h, Prod.ext_iff, eq_comm]

/-- The state after JSR to `target` (41_control_transfer.md R118). -/
theorem callSubroutine_ok {instr : Ir} {s t : State} :
    callSubroutine instr s = .ok t ↔
      ∃ target ret, address instr s = .ok (target, s) ∧ wordAdd s.pc (-1) s = .ok ret ∧
        t = setPC target (setSP (s.sp - 1 - 1)
          (setMem (cellSet (cellSet s.mem (0x100 + s.sp.toNat) (highByte ret)) (0x100 + (s.sp - 1).toNat) (lowByte ret))
            s)) := by
  cases h : address instr s with
  | error e => simp [callSubroutine, h]
  | ok p =>
    obtain ⟨target, u⟩ := p
    obtain rfl := (address_reads h).reference
    cases hw : wordAdd u.pc (-1) u with
    | error e => simp [callSubroutine, h, hw]
    | ok ret =>
      simp only [callSubroutine, h, hw, pushWord, push_eq, setSP_sp, setSP_mem, setMem_mem, Except.ok.injEq]
      constructor
      · rintro rfl; exact ⟨_, _, rfl, rfl, rfl⟩
      · rintro ⟨_, _, he, rfl, rfl⟩; cases he; rfl

/-- The state after RTS (41_control_transfer.md R119). -/
theorem returnFromSubroutine_ok {s t : State} :
    returnFromSubroutine s = .ok t ↔
      ∃ target, wordAdd (wordOf (cellGet s.mem (0x100 + (s.sp + 1 + 1).toNat)) (cellGet s.mem (0x100 + (s.sp + 1).toNat)))
          1 (setSP (s.sp + 1 + 1) s) = .ok target ∧
        t = setPC target (setSP (s.sp + 1 + 1) s) := by
  simp only [returnFromSubroutine, pop_eq, setSP_sp, setSP_mem]
  rw [show setSP (s.sp + 1 + 1) (setSP (s.sp + 1) s) = setSP (s.sp + 1 + 1) s from rfl]
  cases wordAdd _ 1 (setSP (s.sp + 1 + 1) s) <;> simp [eq_comm]

/-! ## The shapes when they fault -/

theorem shiftA_error {carry : Byte → Bool} {shift : Byte → Byte} {instr : Ir} {s : State} {env : Environment}
    {f : Fault} : shiftA carry shift instr s env = .error f ↔ value instr s env = .error f := by
  cases h : value instr s env <;> simp [shiftA, h]

theorem andA_error {instr : Ir} {s : State} {env : Environment} {f : Fault} :
    andA instr s env = .error f ↔ value instr s env = .error f := by
  cases h : value instr s env <;> simp [andA, h]

theorem loadInto_error {write : Byte → State → State} {instr : Ir} {s : State} {env : Environment} {f : Fault} :
    loadInto write instr s env = .error f ↔ value instr s env = .error f := by
  cases h : value instr s env <;> simp [loadInto, h]

theorem compareWith_error {r : Byte} {instr : Ir} {s : State} {env : Environment} {f : Fault} :
    compareWith r instr s env = .error f ↔ value instr s env = .error f := by
  cases h : value instr s env <;> simp [compareWith, h]

theorem storeFrom_error {v : Byte} {instr : Ir} {s : State} {env : Environment} {f : Fault} :
    storeFrom v instr s env = .error f ↔
      address instr s env = .error f ∨
        ∃ addr u, address instr s env = .ok (addr, u) ∧ memWrite addr v u env = .error f := by
  cases h : address instr s env <;> simp [storeFrom, h, Prod.ext_iff]

theorem modifyMemory_error {g : Byte → Byte} {instr : Ir} {s : State} {f : Fault} :
    modifyMemory g instr s = .error f ↔
      address instr s = .error f ∨ ∃ addr, address instr s = .ok (addr, s) ∧ memRead addr s = .error f := by
  cases h : address instr s with
  | error e => simp [modifyMemory, h]
  | ok p =>
    obtain ⟨addr, u⟩ := p
    obtain rfl := (address_reads h).reference
    cases hc : busCell addr with
    | error c => simp [modifyMemory, h, memRead_error.mpr ⟨c, busRead_of_fault hc _, rfl⟩]
    | ok k => simp [modifyMemory, h, memRead_ok.mpr ⟨busRead_of_cell hc _, rfl⟩, memWrite_ok.mpr ⟨k, hc, rfl⟩]

theorem branch_error {cond : Bool} {instr : Ir} {s : State} {env : Environment} {f : Fault} :
    branch cond instr s env = .error f ↔ cond = true ∧ address instr s env = .error f := by
  cases cond <;> cases h : address instr s env <;> simp [branch, h]

theorem jump_error {instr : Ir} {s : State} {env : Environment} {f : Fault} :
    jump instr s env = .error f ↔ address instr s env = .error f := by
  cases h : address instr s env <;> simp [jump, h]

theorem callSubroutine_error {instr : Ir} {s : State} {f : Fault} :
    callSubroutine instr s = .error f ↔
      address instr s = .error f ∨ ∃ target, address instr s = .ok (target, s) ∧ wordAdd s.pc (-1) s = .error f := by
  cases h : address instr s with
  | error e => simp [callSubroutine, h]
  | ok p =>
    obtain ⟨target, u⟩ := p
    obtain rfl := (address_reads h).reference
    cases hw : wordAdd u.pc (-1) u with
    | error e => simp [callSubroutine, h, hw]
    | ok ret => simp [callSubroutine, h, hw, pushWord]

theorem returnFromSubroutine_error {s : State} {f : Fault} :
    returnFromSubroutine s = .error f ↔
      wordAdd (wordOf (cellGet s.mem (0x100 + (s.sp + 1 + 1).toNat)) (cellGet s.mem (0x100 + (s.sp + 1).toNat)))
        1 (setSP (s.sp + 1 + 1) s) = .error f := by
  simp only [returnFromSubroutine, pop_eq, setSP_sp, setSP_mem]
  rw [show setSP (s.sp + 1 + 1) (setSP (s.sp + 1) s) = setSP (s.sp + 1 + 1) s from rfl]
  cases wordAdd _ 1 (setSP (s.sp + 1 + 1) s) <;> simp

/-! ## Every execute phase -/

/-- How an execute phase faults: the state keeps everything but HALT, except that an RTS whose popped Word is 0xFFFF has
popped it (60_exceptions.md R172; log 17). -/
theorem exec_fault {i : Instr} {s : State} {f : Fault} (h : exec i s = .fault f) :
    ∃ c u, f = .raised c (setHalt (some c) u) ∧
      (u = s ∨ (i = .rts ∧ c = .wordOverflow 0xFFFF 1 ∧ u = setSP (s.sp + 1 + 1) s)) := by
  have hv : ∀ {instr : Ir}, value instr s = .error f → ∃ c u, f = .raised c (setHalt (some c) u) ∧
      (u = s ∨ (i = .rts ∧ c = .wordOverflow 0xFFFF 1 ∧ u = setSP (s.sp + 1 + 1) s)) := fun hf =>
    let ⟨c, hc⟩ := value_error hf; ⟨c, s, hc, .inl rfl⟩
  have ha : ∀ {instr : Ir}, address instr s = .error f → ∃ c u, f = .raised c (setHalt (some c) u) ∧
      (u = s ∨ (i = .rts ∧ c = .wordOverflow 0xFFFF 1 ∧ u = setSP (s.sp + 1 + 1) s)) := fun hf =>
    let ⟨c, _, hu, hc⟩ := address_error hf; ⟨c, s, hu.reference ▸ hc, .inl rfl⟩
  have hw : ∀ {instr : Ir} {v : Byte}, storeFrom v instr s = .error f → ∃ c u, f = .raised c (setHalt (some c) u) ∧
      (u = s ∨ (i = .rts ∧ c = .wordOverflow 0xFFFF 1 ∧ u = setSP (s.sp + 1 + 1) s)) := fun hf => by
    rcases storeFrom_error.mp hf with he | ⟨addr, u, hu, he⟩
    · exact ha he
    · obtain rfl := (address_reads hu).reference
      obtain ⟨c, _, hc⟩ := memWrite_error.mp he; exact ⟨c, _, hc, .inl rfl⟩
  have hm : ∀ {g : Byte → Byte} {instr : Ir}, modifyMemory g instr s = .error f →
      ∃ c u, f = .raised c (setHalt (some c) u) ∧
      (u = s ∨ (i = .rts ∧ c = .wordOverflow 0xFFFF 1 ∧ u = setSP (s.sp + 1 + 1) s)) := fun hf => by
    rcases modifyMemory_error.mp hf with h | ⟨addr, _, h⟩
    · exact ha h
    · obtain ⟨c, _, hc⟩ := memRead_error.mp h; exact ⟨c, s, hc, .inl rfl⟩
  cases i with
  | aslAcc | lsrAcc =>
    simp only [exec, execAslAcc, execLsrAcc] at h
    exact hv (shiftA_error.mp (outcome_fault.mp h))
  | andImm | andZp | andAbs =>
    simp only [exec, execAndImm, execAndZp, execAndAbs] at h
    exact hv (andA_error.mp (outcome_fault.mp h))
  | ldaImm | ldaZp | ldaAbs | ldxImm | ldxZp | ldxAbs | ldyImm | ldyZp | ldyAbs =>
    simp only [exec, execLdaImm, execLdaZp, execLdaAbs, execLdxImm, execLdxZp, execLdxAbs, execLdyImm, execLdyZp, execLdyAbs] at h
    exact hv (loadInto_error.mp (outcome_fault.mp h))
  | staZp | staAbs | stxZp | stxAbs | styZp | styAbs =>
    simp only [exec, execStaZp, execStaAbs, execStxZp, execStxAbs, execStyZp, execStyAbs] at h
    exact hw (outcome_fault.mp h)
  | cmpImm | cmpZp | cmpAbs | cpxImm | cpxZp | cpxAbs | cpyImm | cpyZp | cpyAbs =>
    simp only [exec, execCmpImm, execCmpZp, execCmpAbs, execCpxImm, execCpxZp, execCpxAbs, execCpyImm, execCpyZp, execCpyAbs] at h
    exact hv (compareWith_error.mp (outcome_fault.mp h))
  | incZp | incAbs | decZp | decAbs =>
    simp only [exec, execIncZp, execIncAbs, execDecZp, execDecAbs] at h
    exact hm (outcome_fault.mp h)
  | inx | dex | iny | dey | cld | sei | tax | txs => cases h
  | bcc | bcs | beq | bne | bpl =>
    simp only [exec, execBcc, execBcs, execBeq, execBne, execBpl] at h
    exact ha (branch_error.mp (outcome_fault.mp h)).2
  | jmpAbs | jmpInd =>
    simp only [exec, execJmpAbs, execJmpInd] at h
    exact ha (jump_error.mp (outcome_fault.mp h))
  | jsr =>
    simp only [exec, execJsr] at h
    rcases callSubroutine_error.mp (outcome_fault.mp h) with h | ⟨_, _, h⟩
    · exact ha h
    · obtain ⟨_, hc⟩ := wordAdd_error.mp h; exact ⟨_, s, hc, .inl rfl⟩
  | rts =>
    simp only [exec, execRts] at h
    obtain ⟨hr, rfl⟩ := wordAdd_error.mp (returnFromSubroutine_error.mp (outcome_fault.mp h))
    refine ⟨_, _, rfl, .inr ⟨rfl, ?_, rfl⟩⟩
    generalize wordOf _ _ = w at hr
    have := w.isLt
    have : w = 0xFFFF := BitVec.eq_of_toNat_eq (by rw [show (0xFFFF : Addr).toNat = 0xFFFF from rfl]; omega)
    rw [this]
  | pha =>
    simp only [exec, execPha, push_eq] at h
    cases h
  | unimplemented =>
    simp only [exec, execUnimplemented] at h
    exact ⟨_, s, (Except.error.inj (outcome_fault.mp h)).symm, .inl rfl⟩

/-- What every execute phase that goes on keeps: IR, HALT and the canonical form of memory. -/
theorem exec_keeps {i : Instr} {s t : State} (h : exec i s = .next t) :
    t.ir = s.ir ∧ t.halt = s.halt ∧ (s.mem.wf = true → t.mem.wf = true) := by
  have hw : ∀ {instr : Ir} {v : Byte}, storeFrom v instr s = .ok t →
      t.ir = s.ir ∧ t.halt = s.halt ∧ (s.mem.wf = true → t.mem.wf = true) := fun hf => by
    obtain ⟨addr, u, hu, hw⟩ := storeFrom_ok.mp hf
    obtain rfl := (address_reads hu).reference
    obtain ⟨k, _, rfl⟩ := memWrite_ok.mp hw
    exact ⟨rfl, rfl, fun hs => wf_memWrite hs hw⟩
  have hm : ∀ {g : Byte → Byte} {instr : Ir}, modifyMemory g instr s = .ok t →
      t.ir = s.ir ∧ t.halt = s.halt ∧ (s.mem.wf = true → t.mem.wf = true) := fun hf => by
    obtain ⟨addr, k, _, hk, rfl⟩ := modifyMemory_ok.mp hf
    exact ⟨rfl, rfl, fun hs => wf_cellSet hs (isCellKey_of_busCell hk) _⟩
  cases i with
  | aslAcc | lsrAcc =>
    simp only [exec, execAslAcc, execLsrAcc] at h
    obtain ⟨_, _, hu, rfl⟩ := shiftA_ok.mp (outcome_next.mp h)
    obtain rfl := (value_reads hu).reference; exact ⟨rfl, rfl, id⟩
  | andImm | andZp | andAbs =>
    simp only [exec, execAndImm, execAndZp, execAndAbs] at h
    obtain ⟨_, _, hu, rfl⟩ := andA_ok.mp (outcome_next.mp h)
    obtain rfl := (value_reads hu).reference; exact ⟨rfl, rfl, id⟩
  | ldaImm | ldaZp | ldaAbs | ldxImm | ldxZp | ldxAbs | ldyImm | ldyZp | ldyAbs =>
    simp only [exec, execLdaImm, execLdaZp, execLdaAbs, execLdxImm, execLdxZp, execLdxAbs, execLdyImm, execLdyZp, execLdyAbs] at h
    obtain ⟨_, _, hu, rfl⟩ := loadInto_ok.mp (outcome_next.mp h)
    obtain rfl := (value_reads hu).reference; exact ⟨rfl, rfl, id⟩
  | staZp | staAbs | stxZp | stxAbs | styZp | styAbs =>
    simp only [exec, execStaZp, execStaAbs, execStxZp, execStxAbs, execStyZp, execStyAbs] at h
    exact hw (outcome_next.mp h)
  | cmpImm | cmpZp | cmpAbs | cpxImm | cpxZp | cpxAbs | cpyImm | cpyZp | cpyAbs =>
    simp only [exec, execCmpImm, execCmpZp, execCmpAbs, execCpxImm, execCpxZp, execCpxAbs, execCpyImm, execCpyZp, execCpyAbs] at h
    obtain ⟨_, _, hu, rfl⟩ := compareWith_ok.mp (outcome_next.mp h)
    obtain rfl := (value_reads hu).reference; exact ⟨rfl, rfl, id⟩
  | incZp | incAbs | decZp | decAbs =>
    simp only [exec, execIncZp, execIncAbs, execDecZp, execDecAbs] at h
    exact hm (outcome_next.mp h)
  | inx | dex | iny | dey | cld | sei | tax | txs => cases h; exact ⟨rfl, rfl, id⟩
  | bcc | bcs | beq | bne | bpl =>
    simp only [exec, execBcc, execBcs, execBeq, execBne, execBpl] at h
    rcases branch_ok.mp (outcome_next.mp h) with ⟨_, rfl⟩ | ⟨_, _, _, hu, rfl⟩
    · exact ⟨rfl, rfl, id⟩
    · obtain rfl := (address_reads hu).reference; exact ⟨rfl, rfl, id⟩
  | jmpAbs | jmpInd =>
    simp only [exec, execJmpAbs, execJmpInd] at h
    obtain ⟨_, _, hu, rfl⟩ := jump_ok.mp (outcome_next.mp h)
    obtain rfl := (address_reads hu).reference; exact ⟨rfl, rfl, id⟩
  | jsr =>
    simp only [exec, execJsr] at h
    obtain ⟨_, _, _, _, rfl⟩ := callSubroutine_ok.mp (outcome_next.mp h)
    exact ⟨rfl, rfl, fun hs => wf_stackCell (wf_stackCell hs _ _) _ _⟩
  | rts =>
    simp only [exec, execRts] at h
    obtain ⟨_, _, rfl⟩ := returnFromSubroutine_ok.mp (outcome_next.mp h); exact ⟨rfl, rfl, id⟩
  | pha =>
    simp only [exec, execPha, push_eq] at h
    cases h
    exact ⟨rfl, rfl, fun hs => wf_stackCell hs _ _⟩
  | unimplemented => cases h

end Sys2Proof.Machine
end

