-- ==== Sys2Proof/Laws/Environment.lean ====
section
/-! SUPPORT. What the execute phase does under any memory environment, said once, and that `exec` is the execute phase in
the reference environment. -/

namespace Sys2Proof.Machine

/-- `exec` is `execIn` at the default of `MEM` (00_scope.md R4). -/
@[simp] theorem execIn_reference (i : Instr) (s : State) : execIn i s .reference = exec i s := by
  cases i <;> rfl

/-! ## The shapes that make several accesses -/

/-- The pointer read of JMP indirect, low byte first (40_fetch_decode_operands.md R100). -/
theorem indirectTarget_of_reads {ptr : Addr} {s : State} {env : Environment} {lo hi : Byte} {m m' : Memory}
    (hp : ptr.toNat + 1 ≤ 0xFFFF) (h1 : env.read ptr s.mem = .ok (lo, m)) (h2 : env.read (ptr + 1) m = .ok (hi, m')) :
    indirectTarget ptr s env = .ok (wordOf hi lo, setMem m' s) := by
  have hw : wordAdd ptr 1 (setMem m s) = .ok (ptr + 1) := wordAdd_nat (n := 1) hp
  simp only [indirectTarget, memRead_env_ok.mpr ⟨m, h1, rfl⟩, hw,
    memRead_env_ok.mpr ⟨m', (setMem_mem m s).symm ▸ h2, rfl⟩]
  rfl

theorem modifyMemory_env_ok {g : Byte → Byte} {instr : Ir} {s t : State} {env : Environment} :
    modifyMemory g instr s env = .ok t ↔
      ∃ addr s1 v s2 s3, address instr s env = .ok (addr, s1) ∧ memRead addr s1 env = .ok (v, s2) ∧
        memWrite addr (g v) s2 env = .ok s3 ∧ t = setNZ (g v) s3 := by
  cases h : address instr s env with
  | error e => simp [modifyMemory, h]
  | ok p =>
    obtain ⟨addr, s1⟩ := p
    cases hr : memRead addr s1 env with
    | error c => simp [modifyMemory, h, hr]
    | ok q =>
      obtain ⟨v, s2⟩ := q
      cases hw : memWrite addr (g v) s2 env <;> simp [modifyMemory, h, hr, hw, eq_comm]

theorem modifyMemory_env_error {g : Byte → Byte} {instr : Ir} {s : State} {env : Environment} {f : Fault} :
    modifyMemory g instr s env = .error f ↔
      address instr s env = .error f ∨ ∃ addr s1, address instr s env = .ok (addr, s1) ∧
        (memRead addr s1 env = .error f ∨
          ∃ v s2, memRead addr s1 env = .ok (v, s2) ∧ memWrite addr (g v) s2 env = .error f) := by
  cases h : address instr s env with
  | error e => simp [modifyMemory, h]
  | ok p =>
    obtain ⟨addr, s1⟩ := p
    cases hr : memRead addr s1 env with
    | error c => simp [modifyMemory, h, hr]
    | ok q =>
      obtain ⟨v, s2⟩ := q
      cases hw : memWrite addr (g v) s2 env <;> simp [modifyMemory, h, hr, hw]

/-- JSR's two pushes, the high byte first (41_control_transfer.md R118). -/
theorem callSubroutine_env_ok {op : Operation} {w : Addr} {s t : State} {env : Environment} :
    callSubroutine ⟨op, .absolute, .word w⟩ s env = .ok t ↔
      ∃ ret s1 s2, wordAdd s.pc (-1) s = .ok ret ∧ push (highByte ret) s env = .ok s1 ∧
        push (lowByte ret) s1 env = .ok s2 ∧ t = setPC w s2 := by
  cases hw : wordAdd s.pc (-1) s with
  | error e => simp [callSubroutine, hw]
  | ok ret =>
    cases h1 : push (highByte ret) s env with
    | error e => simp [callSubroutine, pushWord, hw, h1]
    | ok s1 => cases h2 : push (lowByte ret) s1 env <;> simp [callSubroutine, pushWord, hw, h1, h2, eq_comm]

/-- Where JSR can fault, and what the second push leaves when it does (60_exceptions.md R172). -/
theorem callSubroutine_env_error {op : Operation} {w : Addr} {s : State} {env : Environment} {f : Fault} :
    callSubroutine ⟨op, .absolute, .word w⟩ s env = .error f ↔
      wordAdd s.pc (-1) s = .error f ∨ ∃ ret, wordAdd s.pc (-1) s = .ok ret ∧
        (push (highByte ret) s env = .error f ∨
          ∃ s1, push (highByte ret) s env = .ok s1 ∧ push (lowByte ret) s1 env = .error f) := by
  cases hw : wordAdd s.pc (-1) s with
  | error e => simp [callSubroutine, hw]
  | ok ret =>
    cases h1 : push (highByte ret) s env with
    | error e => simp [callSubroutine, pushWord, hw, h1]
    | ok s1 => cases h2 : push (lowByte ret) s1 env <;> simp [callSubroutine, pushWord, hw, h1, h2]

/-- RTS's two pops, the low byte first (41_control_transfer.md R119). -/
theorem returnFromSubroutine_env_ok {s t : State} {env : Environment} :
    returnFromSubroutine s env = .ok t ↔
      ∃ lo hi s1 s2 target, pop s env = .ok (lo, s1) ∧ pop s1 env = .ok (hi, s2) ∧
        wordAdd (wordOf hi lo) 1 s2 = .ok target ∧ t = setPC target s2 := by
  cases h1 : pop s env with
  | error e => simp [returnFromSubroutine, h1]
  | ok p1 =>
    obtain ⟨lo, s1⟩ := p1
    cases h2 : pop s1 env with
    | error e => simp [returnFromSubroutine, h1, h2]
    | ok p2 =>
      obtain ⟨hi, s2⟩ := p2
      cases hw : wordAdd (wordOf hi lo) 1 s2 <;> simp [returnFromSubroutine, h1, h2, hw, eq_comm]

/-- Where RTS can fault (60_exceptions.md R172). -/
theorem returnFromSubroutine_env_error {s : State} {env : Environment} {f : Fault} :
    returnFromSubroutine s env = .error f ↔
      pop s env = .error f ∨ ∃ lo s1, pop s env = .ok (lo, s1) ∧
        (pop s1 env = .error f ∨ ∃ hi s2, pop s1 env = .ok (hi, s2) ∧ wordAdd (wordOf hi lo) 1 s2 = .error f) := by
  cases h1 : pop s env with
  | error e => simp [returnFromSubroutine, h1]
  | ok p1 =>
    obtain ⟨lo, s1⟩ := p1
    cases h2 : pop s1 env with
    | error e => simp [returnFromSubroutine, h1, h2]
    | ok p2 =>
      obtain ⟨hi, s2⟩ := p2
      cases hw : wordAdd (wordOf hi lo) 1 s2 <;> simp [returnFromSubroutine, h1, h2, hw]

/-! ## Every execute phase -/

/-- The states an execute phase can have reached when it raises (60_exceptions.md R172), but for what its reads have
done to the cells: nothing else done; the first push of a JSR; one or two pops of an RTS. -/
def ReachedBeforeFault (i : Instr) (s : State) (env : Environment) (u : State) : Prop :=
  AfterReads env s u ∨
  (∃ w m, i = .jsr w ∧ env.write (stackAddr s.sp) (highByte (s.pc - 1)) s.mem = .ok m ∧
    u = setSP (s.sp - 1) (setMem m s)) ∨
  (i = .rts ∧ ∃ v, AfterReads env s v ∧ (u = setSP (s.sp + 1) v ∨ u = setSP (s.sp + 1 + 1) v))

/-- A pop has read, and moved SP. -/
theorem pop_reads {v : Byte} {s t : State} {env : Environment} (h : pop s env = .ok (v, t)) :
    ∃ u, AfterReads env s u ∧ t = setSP (s.sp + 1) u := by
  obtain ⟨m, hm, rfl⟩ := pop_env_ok.mp h
  exact ⟨setMem m s, ⟨m, rfl, fun hp => hp _ _ _ _ hm⟩, rfl⟩

theorem ret_eq {s : State} {ret : Addr} (h : wordAdd s.pc (-1) s = .ok ret) : ret = s.pc - 1 := by
  have := wordAdd_ok.mp h
  have h1 : (1 : Addr).toNat = 1 := rfl
  apply BitVec.eq_of_toNat_eq
  have := s.pc.isLt
  have := ret.isLt
  rw [BitVec.toNat_sub, h1]
  omega

/-- How an execute phase faults, in any environment. -/
theorem execIn_fault {i : Instr} {s : State} {env : Environment} {f : Fault} (h : execIn i s env = .fault f) :
    ∃ c u, f = .raised c (setHalt (some c) u) ∧ ReachedBeforeFault i s env u := by
  have same : ∀ {u : State} {P : FaultCause → Prop}, AfterReads env s u →
      (∃ c, P c ∧ f = .raised c (setHalt (some c) u)) →
      ∃ c u, f = .raised c (setHalt (some c) u) ∧ ReachedBeforeFault i s env u :=
    fun hu ⟨c, _, hc⟩ => ⟨c, _, hc, .inl hu⟩
  have hv : ∀ {instr : Ir}, value instr s env = .error f →
      ∃ c u, f = .raised c (setHalt (some c) u) ∧ ReachedBeforeFault i s env u :=
    fun hf => let ⟨c, hc⟩ := value_error hf; ⟨c, s, hc, .inl (.refl _ _)⟩
  have ha : ∀ {instr : Ir}, address instr s env = .error f →
      ∃ c u, f = .raised c (setHalt (some c) u) ∧ ReachedBeforeFault i s env u :=
    fun hf => let ⟨c, u, hu, hc⟩ := address_error hf; ⟨c, u, hc, .inl hu⟩
  have hw : ∀ {instr : Ir} {v : Byte}, storeFrom v instr s env = .error f →
      ∃ c u, f = .raised c (setHalt (some c) u) ∧ ReachedBeforeFault i s env u := fun hf => by
    rcases storeFrom_error.mp hf with h | ⟨_, _, hu, h⟩
    · exact ha h
    · exact same (address_reads hu) (memWrite_env_error.mp h)
  have hm : ∀ {g : Byte → Byte} {instr : Ir}, modifyMemory g instr s env = .error f →
      ∃ c u, f = .raised c (setHalt (some c) u) ∧ ReachedBeforeFault i s env u := fun hf => by
    rcases modifyMemory_env_error.mp hf with h | ⟨_, _, hu, h | ⟨_, _, hr, h⟩⟩
    · exact ha h
    · exact same (address_reads hu) (memRead_env_error.mp h)
    · exact same ((address_reads hu).trans (memRead_reads hr)) (memWrite_env_error.mp h)
  cases i with
  | aslAcc | lsrAcc =>
    simp only [execIn, execAslAcc, execLsrAcc] at h
    exact hv (shiftA_error.mp (outcome_fault.mp h))
  | andImm | andZp | andAbs =>
    simp only [execIn, execAndImm, execAndZp, execAndAbs] at h
    exact hv (andA_error.mp (outcome_fault.mp h))
  | ldaImm | ldaZp | ldaAbs | ldxImm | ldxZp | ldxAbs | ldyImm | ldyZp | ldyAbs =>
    simp only [execIn, execLdaImm, execLdaZp, execLdaAbs, execLdxImm, execLdxZp, execLdxAbs, execLdyImm, execLdyZp,
      execLdyAbs] at h
    exact hv (loadInto_error.mp (outcome_fault.mp h))
  | staZp | staAbs | stxZp | stxAbs | styZp | styAbs =>
    simp only [execIn, execStaZp, execStaAbs, execStxZp, execStxAbs, execStyZp, execStyAbs] at h
    exact hw (outcome_fault.mp h)
  | cmpImm | cmpZp | cmpAbs | cpxImm | cpxZp | cpxAbs | cpyImm | cpyZp | cpyAbs =>
    simp only [execIn, execCmpImm, execCmpZp, execCmpAbs, execCpxImm, execCpxZp, execCpxAbs, execCpyImm, execCpyZp,
      execCpyAbs] at h
    exact hv (compareWith_error.mp (outcome_fault.mp h))
  | incZp | incAbs | decZp | decAbs =>
    simp only [execIn, execIncZp, execIncAbs, execDecZp, execDecAbs] at h
    exact hm (outcome_fault.mp h)
  | inx | dex | iny | dey | cld | sei | tax | txs => cases h
  | bcc | bcs | beq | bne | bpl =>
    simp only [execIn, execBcc, execBcs, execBeq, execBne, execBpl] at h
    exact ha (branch_error.mp (outcome_fault.mp h)).2
  | jmpAbs | jmpInd =>
    simp only [execIn, execJmpAbs, execJmpInd] at h
    exact ha (jump_error.mp (outcome_fault.mp h))
  | jsr w =>
    simp only [execIn, execJsr] at h
    rcases callSubroutine_env_error.mp (outcome_fault.mp h) with h | ⟨ret, hret, h | ⟨s1, h1, h2⟩⟩
    · exact ⟨_, s, (wordAdd_error.mp h).2, .inl (.refl _ _)⟩
    · exact same (.refl _ _) (push_env_error.mp h)
    · obtain ⟨m, hm1, rfl⟩ := push_env_ok.mp h1
      obtain ⟨c, _, rfl⟩ := push_env_error.mp h2
      exact ⟨c, _, rfl, .inr (.inl ⟨w, m, rfl, ret_eq hret ▸ hm1, rfl⟩)⟩
  | rts =>
    simp only [execIn, execRts] at h
    rcases returnFromSubroutine_env_error.mp (outcome_fault.mp h) with h | ⟨_, s1, h1, h | ⟨_, s2, h2, h⟩⟩
    · obtain ⟨c, _, rfl⟩ := pop_env_error.mp h
      exact ⟨c, _, rfl, .inr (.inr ⟨rfl, s, .refl _ _, .inl rfl⟩)⟩
    · obtain ⟨u, ⟨m, rfl, hp⟩, rfl⟩ := pop_reads h1
      obtain ⟨c, _, rfl⟩ := pop_env_error.mp h
      exact ⟨c, _, rfl, .inr (.inr ⟨rfl, _, ⟨m, rfl, hp⟩, .inr rfl⟩)⟩
    · obtain ⟨u, ⟨m, rfl, hp⟩, rfl⟩ := pop_reads h1
      obtain ⟨u, ⟨m', rfl, hp'⟩, rfl⟩ := pop_reads h2
      obtain ⟨_, rfl⟩ := wordAdd_error.mp h
      exact ⟨_, _, rfl, .inr (.inr ⟨rfl, _, ⟨m', rfl, fun p => (hp' p).trans (hp p)⟩, .inr rfl⟩)⟩
  | pha =>
    simp only [execIn, execPha] at h
    exact same (.refl _ _) (push_env_error.mp (outcome_fault.mp h))
  | unimplemented =>
    simp only [execIn, execUnimplemented] at h
    exact ⟨_, s, (Except.error.inj (outcome_fault.mp h)).symm, .inl (.refl _ _)⟩

/-- An execute phase never refuses, in any environment. -/
theorem execIn_not_refused (i : Instr) (s : State) (env : Environment) (q : Refusal) : execIn i s env ≠ .refused q := by
  intro h
  cases i
  case inx | dex | iny | dey | cld | sei | tax | txs => cases h
  all_goals
    simp only [execIn, execAslAcc, execLsrAcc, execAndImm, execAndZp, execAndAbs, execLdaImm, execLdaZp, execLdaAbs,
      execLdxImm, execLdxZp, execLdxAbs, execLdyImm, execLdyZp, execLdyAbs, execStaZp, execStaAbs, execStxZp, execStxAbs,
      execStyZp, execStyAbs, execCmpImm, execCmpZp, execCmpAbs, execCpxImm, execCpxZp, execCpxAbs, execCpyImm,
      execCpyZp, execCpyAbs, execIncZp, execIncAbs, execDecZp, execDecAbs, execBcc, execBcs, execBeq, execBne, execBpl,
      execJmpAbs, execJmpInd, execJsr, execRts, execPha, execUnimplemented] at h
    exact outcome_not_refused h

/-- An execute phase never refuses. -/
theorem exec_not_refused (i : Instr) (s : State) (q : Refusal) : exec i s ≠ .refused q :=
  execIn_reference i s ▸ execIn_not_refused i s .reference q

/-- What every execute phase that goes on keeps, in any environment: IR and HALT. -/
theorem execIn_keeps {i : Instr} {s t : State} {env : Environment} (h : execIn i s env = .next t) :
    t.ir = s.ir ∧ t.halt = s.halt := by
  cases i with
  | aslAcc | lsrAcc =>
    simp only [execIn, execAslAcc, execLsrAcc] at h
    obtain ⟨_, _, hu, rfl⟩ := shiftA_ok.mp (outcome_next.mp h)
    obtain ⟨_, rfl, _⟩ := value_reads hu; exact ⟨rfl, rfl⟩
  | andImm | andZp | andAbs =>
    simp only [execIn, execAndImm, execAndZp, execAndAbs] at h
    obtain ⟨_, _, hu, rfl⟩ := andA_ok.mp (outcome_next.mp h)
    obtain ⟨_, rfl, _⟩ := value_reads hu; exact ⟨rfl, rfl⟩
  | ldaImm | ldaZp | ldaAbs | ldxImm | ldxZp | ldxAbs | ldyImm | ldyZp | ldyAbs =>
    simp only [execIn, execLdaImm, execLdaZp, execLdaAbs, execLdxImm, execLdxZp, execLdxAbs, execLdyImm, execLdyZp,
      execLdyAbs] at h
    obtain ⟨_, _, hu, rfl⟩ := loadInto_ok.mp (outcome_next.mp h)
    obtain ⟨_, rfl, _⟩ := value_reads hu; exact ⟨rfl, rfl⟩
  | staZp | staAbs | stxZp | stxAbs | styZp | styAbs =>
    simp only [execIn, execStaZp, execStaAbs, execStxZp, execStxAbs, execStyZp, execStyAbs] at h
    obtain ⟨_, _, hu, h⟩ := storeFrom_ok.mp (outcome_next.mp h)
    obtain ⟨_, rfl, _⟩ := address_reads hu
    obtain ⟨_, _, rfl⟩ := memWrite_env_ok.mp h; exact ⟨rfl, rfl⟩
  | cmpImm | cmpZp | cmpAbs | cpxImm | cpxZp | cpxAbs | cpyImm | cpyZp | cpyAbs =>
    simp only [execIn, execCmpImm, execCmpZp, execCmpAbs, execCpxImm, execCpxZp, execCpxAbs, execCpyImm, execCpyZp,
      execCpyAbs] at h
    obtain ⟨_, _, hu, rfl⟩ := compareWith_ok.mp (outcome_next.mp h)
    obtain ⟨_, rfl, _⟩ := value_reads hu; exact ⟨rfl, rfl⟩
  | incZp | incAbs | decZp | decAbs =>
    simp only [execIn, execIncZp, execIncAbs, execDecZp, execDecAbs] at h
    obtain ⟨_, _, _, _, _, hu, hr, hw, rfl⟩ := modifyMemory_env_ok.mp (outcome_next.mp h)
    obtain ⟨_, rfl, _⟩ := address_reads hu
    obtain ⟨_, rfl, _⟩ := memRead_reads hr
    obtain ⟨_, _, rfl⟩ := memWrite_env_ok.mp hw; exact ⟨rfl, rfl⟩
  | inx | dex | iny | dey | cld | sei | tax | txs => cases h; exact ⟨rfl, rfl⟩
  | bcc | bcs | beq | bne | bpl =>
    simp only [execIn, execBcc, execBcs, execBeq, execBne, execBpl] at h
    rcases branch_ok.mp (outcome_next.mp h) with ⟨_, rfl⟩ | ⟨_, _, _, hu, rfl⟩
    · exact ⟨rfl, rfl⟩
    · obtain ⟨_, rfl, _⟩ := address_reads hu; exact ⟨rfl, rfl⟩
  | jmpAbs | jmpInd =>
    simp only [execIn, execJmpAbs, execJmpInd] at h
    obtain ⟨_, _, hu, rfl⟩ := jump_ok.mp (outcome_next.mp h)
    obtain ⟨_, rfl, _⟩ := address_reads hu; exact ⟨rfl, rfl⟩
  | jsr =>
    simp only [execIn, execJsr] at h
    obtain ⟨_, _, _, _, h1, h2, rfl⟩ := callSubroutine_env_ok.mp (outcome_next.mp h)
    obtain ⟨_, _, rfl⟩ := push_env_ok.mp h1
    obtain ⟨_, _, rfl⟩ := push_env_ok.mp h2
    exact ⟨rfl, rfl⟩
  | rts =>
    simp only [execIn, execRts] at h
    obtain ⟨_, _, _, _, _, h1, h2, _, rfl⟩ := returnFromSubroutine_env_ok.mp (outcome_next.mp h)
    obtain ⟨_, _, rfl⟩ := pop_env_ok.mp h1
    obtain ⟨_, _, rfl⟩ := pop_env_ok.mp h2
    exact ⟨rfl, rfl⟩
  | pha =>
    simp only [execIn, execPha] at h
    obtain ⟨_, _, rfl⟩ := push_env_ok.mp (outcome_next.mp h); exact ⟨rfl, rfl⟩
  | unimplemented => cases h

end Sys2Proof.Machine
end

