-- ==== Sys2Proof/Laws/PerInstr.lean ====
section
/-! SUPPORT. Statements made per instruction. `EncodeLength`: the encoded length is that of the instruction's addressing
mode (30_encoding.md R70, R72). -/

namespace Sys2Proof.Laws

/-- The length column of 30_encoding.md R79, by the shape of the operand; the sentinel is its raw byte. -/
def encodedLength : Instr → Nat
  | .aslAcc | .lsrAcc | .inx | .dex | .iny | .dey | .rts | .pha | .cld | .sei | .tax | .txs | .unimplemented _ => 1
  | .andImm _ | .andZp _ | .ldaImm _ | .ldaZp _ | .ldxImm _ | .ldxZp _ | .ldyImm _ | .ldyZp _ | .staZp _ | .stxZp _
  | .styZp _ | .cmpImm _ | .cmpZp _ | .cpxImm _ | .cpxZp _ | .cpyImm _ | .cpyZp _ | .incZp _ | .decZp _
  | .bcc _ | .bcs _ | .beq _ | .bne _ | .bpl _ => 2
  | .andAbs _ | .ldaAbs _ | .ldxAbs _ | .ldyAbs _ | .staAbs _ | .stxAbs _ | .styAbs _ | .cmpAbs _ | .cpxAbs _
  | .cpyAbs _ | .incAbs _ | .decAbs _ | .jmpAbs _ | .jmpInd _ | .jsr _ => 3

def EncodeLength.Statement (i : Instr) : Prop := (encode i).length = encodedLength i

theorem EncodeLength.aslAcc : EncodeLength.Statement (.aslAcc) := rfl
theorem EncodeLength.lsrAcc : EncodeLength.Statement (.lsrAcc) := rfl
theorem EncodeLength.andImm (b : Byte) : EncodeLength.Statement (.andImm b) := rfl
theorem EncodeLength.andZp (b : Byte) : EncodeLength.Statement (.andZp b) := rfl
theorem EncodeLength.andAbs (w : Addr) : EncodeLength.Statement (.andAbs w) := rfl
theorem EncodeLength.ldaImm (b : Byte) : EncodeLength.Statement (.ldaImm b) := rfl
theorem EncodeLength.ldaZp (b : Byte) : EncodeLength.Statement (.ldaZp b) := rfl
theorem EncodeLength.ldaAbs (w : Addr) : EncodeLength.Statement (.ldaAbs w) := rfl
theorem EncodeLength.ldxImm (b : Byte) : EncodeLength.Statement (.ldxImm b) := rfl
theorem EncodeLength.ldxZp (b : Byte) : EncodeLength.Statement (.ldxZp b) := rfl
theorem EncodeLength.ldxAbs (w : Addr) : EncodeLength.Statement (.ldxAbs w) := rfl
theorem EncodeLength.ldyImm (b : Byte) : EncodeLength.Statement (.ldyImm b) := rfl
theorem EncodeLength.ldyZp (b : Byte) : EncodeLength.Statement (.ldyZp b) := rfl
theorem EncodeLength.ldyAbs (w : Addr) : EncodeLength.Statement (.ldyAbs w) := rfl
theorem EncodeLength.staZp (b : Byte) : EncodeLength.Statement (.staZp b) := rfl
theorem EncodeLength.staAbs (w : Addr) : EncodeLength.Statement (.staAbs w) := rfl
theorem EncodeLength.stxZp (b : Byte) : EncodeLength.Statement (.stxZp b) := rfl
theorem EncodeLength.stxAbs (w : Addr) : EncodeLength.Statement (.stxAbs w) := rfl
theorem EncodeLength.styZp (b : Byte) : EncodeLength.Statement (.styZp b) := rfl
theorem EncodeLength.styAbs (w : Addr) : EncodeLength.Statement (.styAbs w) := rfl
theorem EncodeLength.cmpImm (b : Byte) : EncodeLength.Statement (.cmpImm b) := rfl
theorem EncodeLength.cmpZp (b : Byte) : EncodeLength.Statement (.cmpZp b) := rfl
theorem EncodeLength.cmpAbs (w : Addr) : EncodeLength.Statement (.cmpAbs w) := rfl
theorem EncodeLength.cpxImm (b : Byte) : EncodeLength.Statement (.cpxImm b) := rfl
theorem EncodeLength.cpxZp (b : Byte) : EncodeLength.Statement (.cpxZp b) := rfl
theorem EncodeLength.cpxAbs (w : Addr) : EncodeLength.Statement (.cpxAbs w) := rfl
theorem EncodeLength.cpyImm (b : Byte) : EncodeLength.Statement (.cpyImm b) := rfl
theorem EncodeLength.cpyZp (b : Byte) : EncodeLength.Statement (.cpyZp b) := rfl
theorem EncodeLength.cpyAbs (w : Addr) : EncodeLength.Statement (.cpyAbs w) := rfl
theorem EncodeLength.incZp (b : Byte) : EncodeLength.Statement (.incZp b) := rfl
theorem EncodeLength.incAbs (w : Addr) : EncodeLength.Statement (.incAbs w) := rfl
theorem EncodeLength.decZp (b : Byte) : EncodeLength.Statement (.decZp b) := rfl
theorem EncodeLength.decAbs (w : Addr) : EncodeLength.Statement (.decAbs w) := rfl
theorem EncodeLength.inx : EncodeLength.Statement (.inx) := rfl
theorem EncodeLength.dex : EncodeLength.Statement (.dex) := rfl
theorem EncodeLength.iny : EncodeLength.Statement (.iny) := rfl
theorem EncodeLength.dey : EncodeLength.Statement (.dey) := rfl
theorem EncodeLength.bcc (b : Byte) : EncodeLength.Statement (.bcc b) := rfl
theorem EncodeLength.bcs (b : Byte) : EncodeLength.Statement (.bcs b) := rfl
theorem EncodeLength.beq (b : Byte) : EncodeLength.Statement (.beq b) := rfl
theorem EncodeLength.bne (b : Byte) : EncodeLength.Statement (.bne b) := rfl
theorem EncodeLength.bpl (b : Byte) : EncodeLength.Statement (.bpl b) := rfl
theorem EncodeLength.jmpAbs (w : Addr) : EncodeLength.Statement (.jmpAbs w) := rfl
theorem EncodeLength.jmpInd (w : Addr) : EncodeLength.Statement (.jmpInd w) := rfl
theorem EncodeLength.jsr (w : Addr) : EncodeLength.Statement (.jsr w) := rfl
theorem EncodeLength.rts : EncodeLength.Statement (.rts) := rfl
theorem EncodeLength.pha : EncodeLength.Statement (.pha) := rfl
theorem EncodeLength.cld : EncodeLength.Statement (.cld) := rfl
theorem EncodeLength.sei : EncodeLength.Statement (.sei) := rfl
theorem EncodeLength.tax : EncodeLength.Statement (.tax) := rfl
theorem EncodeLength.txs : EncodeLength.Statement (.txs) := rfl
theorem EncodeLength.unimplemented (b : Byte) : EncodeLength.Statement (.unimplemented b) := rfl

end Sys2Proof.Laws
end

