-- ==== Sys2Proof/Laws/Step.lean ====
section
/-! SUPPORT. What the two phases and the step can do, said once, and that the host's placements keep memory
canonical. -/

namespace Sys2Proof.Machine

/-! ## The decode phase -/

theorem fetchAfter_env_ok {pc0 : Addr} {k : Int} {s t : State} {env : Environment} {v : Byte} :
    fetchAfter pc0 k s env = .ok (v, t) ↔
      ∃ addr : Addr, (addr.toNat : Int) = pc0.toNat + k ∧ memRead addr s env = .ok (v, t) := by
  cases h : wordAdd pc0 k s with
  | error f =>
    simp only [fetchAfter, h, reduceCtorEq, false_iff, not_exists, not_and]
    intro addr ha
    rw [wordAdd_ok.mpr ha] at h
    cases h
  | ok addr =>
    simp only [fetchAfter, h]
    constructor
    · exact fun hr => ⟨addr, wordAdd_ok.mp h, hr⟩
    · rintro ⟨addr', ha, hr⟩
      have := wordAdd_ok.mp h
      have e : addr' = addr := BitVec.eq_of_toNat_eq (by omega)
      rwa [← e]

theorem fetchAfter_ok {pc0 : Addr} {k : Int} {s t : State} {v : Byte} :
    fetchAfter pc0 k s = .ok (v, t) ↔
      (∃ addr : Addr, (addr.toNat : Int) = pc0.toNat + k ∧ busRead addr s.mem = .ok v) ∧ t = s := by
  simp only [fetchAfter_env_ok, memRead_ok, ← and_assoc, exists_and_right]

theorem fetchAfter_reads {pc0 : Addr} {k : Int} {s t : State} {env : Environment} {v : Byte}
    (h : fetchAfter pc0 k s env = .ok (v, t)) : AfterReads env s t := by
  obtain ⟨_, _, h⟩ := fetchAfter_env_ok.mp h
  exact memRead_reads h

theorem fetchAfter_error {pc0 : Addr} {k : Int} {s : State} {env : Environment} {f : Fault}
    (h : fetchAfter pc0 k s env = .error f) : ∃ c, f = .raised c (setHalt (some c) s) := by
  unfold fetchAfter at h
  split at h
  · next e he =>
    obtain ⟨_, rfl⟩ := wordAdd_error.mp he
    exact ⟨_, (Except.error.inj h).symm⟩
  · obtain ⟨c, _, rfl⟩ := memRead_env_error.mp h
    exact ⟨c, rfl⟩

/-- What the operand fetches that complete have done. -/
theorem fetchOperand_reads {mode : Mode} {pc0 : Addr} {s t : State} {env : Environment} {operand : Operand}
    (h : fetchOperand mode pc0 s env = .ok (operand, t)) : AfterReads env s t := by
  have hb : ∀ {o}, fetchByteOperand pc0 s env = .ok (o, t) → AfterReads env s t := fun h => by
    unfold fetchByteOperand at h
    split at h
    · cases h
    · next h1 => cases h; exact fetchAfter_reads h1
  have hw : ∀ {o}, fetchWordOperand pc0 s env = .ok (o, t) → AfterReads env s t := fun h => by
    unfold fetchWordOperand at h
    split at h
    · cases h
    · next h1 =>
      split at h
      · cases h
      · next h2 => cases h; exact (fetchAfter_reads h1).trans (fetchAfter_reads h2)
  cases mode with
  | implied | accumulator => cases h; exact .refl _ _
  | immediate | zeropage | relative => exact hb h
  | absolute | indirect => exact hw h

/-- Operand fetches that fault have done nothing but read and set HALT. -/
theorem fetchOperand_error {mode : Mode} {pc0 : Addr} {s : State} {env : Environment} {f : Fault}
    (h : fetchOperand mode pc0 s env = .error f) : ∃ c u, AfterReads env s u ∧ f = .raised c (setHalt (some c) u) := by
  have hb : fetchByteOperand pc0 s env = .error f → ∃ c u, AfterReads env s u ∧ f = .raised c (setHalt (some c) u) :=
    fun h => by
      unfold fetchByteOperand at h
      split at h
      · next he =>
        obtain ⟨c, hc⟩ := Except.error.inj h ▸ fetchAfter_error he
        exact ⟨c, s, .refl _ _, hc⟩
      · cases h
  have hw : fetchWordOperand pc0 s env = .error f → ∃ c u, AfterReads env s u ∧ f = .raised c (setHalt (some c) u) :=
    fun h => by
      unfold fetchWordOperand at h
      split at h
      · next he =>
        obtain ⟨c, hc⟩ := Except.error.inj h ▸ fetchAfter_error he
        exact ⟨c, s, .refl _ _, hc⟩
      · next h1 =>
        split at h
        · next he =>
          obtain ⟨c, hc⟩ := Except.error.inj h ▸ fetchAfter_error he
          exact ⟨c, _, fetchAfter_reads h1, hc⟩
        · cases h
  cases mode with
  | implied | accumulator => cases h
  | immediate | zeropage | relative => exact hb h
  | absolute | indirect => exact hw h

/-- Everything a decode phase that completes does (40_fetch_decode_operands.md R91 to R93). -/
theorem decodeLatch_env_ok {table : Byte → OpCode} {s t : State} {env : Environment} :
    decodeLatch table s env = .ok t ↔
      ∃ b0 s1 operand s2 pc', memRead s.pc s env = .ok (b0, s1) ∧ (table b0).op ≠ .unimplemented ∧
        fetchOperand (table b0).mode s.pc s1 env = .ok (operand, s2) ∧
        (BitVec.toNat (w := 16) pc' : Int) = s.pc.toNat + modeLength (table b0).mode ∧
        t = setIR (some ⟨(table b0).op, (table b0).mode, operand⟩) (setPC pc' s2) := by
  constructor
  · intro h
    unfold decodeLatch at h
    split at h
    · cases h
    · next b0 s1 hb =>
      split at h
      · cases h
      · next hu =>
        split at h
        · cases h
        · next operand s2 ho =>
          split at h
          · cases h
          · next pc' hp =>
            cases h
            exact ⟨b0, s1, operand, s2, pc', hb, hu, ho, wordAdd_ok.mp hp, rfl⟩
  · rintro ⟨b0, s1, operand, s2, pc', hb, hu, ho, hp, rfl⟩
    simp only [decodeLatch, hb, if_neg hu, ho, wordAdd_ok.mpr hp]

theorem decodeLatch_ok {table : Byte → OpCode} {s t : State} :
    decodeLatch table s = .ok t ↔
      ∃ b0 operand pc', busRead s.pc s.mem = .ok b0 ∧ (table b0).op ≠ .unimplemented ∧
        fetchOperand (table b0).mode s.pc s = .ok (operand, s) ∧
        (BitVec.toNat (w := 16) pc' : Int) = s.pc.toNat + modeLength (table b0).mode ∧
        t = setIR (some ⟨(table b0).op, (table b0).mode, operand⟩) (setPC pc' s) := by
  rw [decodeLatch_env_ok]
  constructor
  · rintro ⟨b0, s1, operand, s2, pc', hb, hu, ho, hp, rfl⟩
    obtain ⟨hb, rfl⟩ := memRead_ok.mp hb
    obtain rfl := (fetchOperand_reads ho).reference
    exact ⟨b0, operand, pc', hb, hu, ho, hp, rfl⟩
  · rintro ⟨b0, operand, pc', hb, hu, ho, hp, rfl⟩
    exact ⟨b0, s, operand, s, pc', memRead_ok.mpr ⟨hb, rfl⟩, hu, ho, hp, rfl⟩

/-- What the decode phase has read when it completes. -/
theorem decodeLatch_reads {table : Byte → OpCode} {s t : State} {env : Environment}
    (h : decodeLatch table s env = .ok t) :
    ∃ instr pc' u, AfterReads env s u ∧ t = setIR (some instr) (setPC pc' u) := by
  obtain ⟨b0, s1, operand, s2, pc', hb, -, ho, -, rfl⟩ := decodeLatch_env_ok.mp h
  exact ⟨_, pc', s2, (memRead_reads hb).trans (fetchOperand_reads ho), rfl⟩

/-- A decode phase that faults has done nothing but read and set HALT (40_fetch_decode_operands.md R95). -/
theorem decodeLatch_env_error {table : Byte → OpCode} {s : State} {env : Environment} {f : Fault}
    (h : decodeLatch table s env = .error f) : ∃ c u, AfterReads env s u ∧ f = .raised c (setHalt (some c) u) := by
  unfold decodeLatch at h
  split at h
  · next e he =>
    obtain ⟨c, _, rfl⟩ := memRead_env_error.mp he
    exact ⟨c, s, .refl _ _, (Except.error.inj h).symm⟩
  · next b0 s1 h1 =>
    split at h
    · exact ⟨_, s1, memRead_reads h1, (Except.error.inj h).symm⟩
    · split at h
      · next e he =>
        obtain ⟨c, u, hu, hc⟩ := Except.error.inj h ▸ fetchOperand_error he
        exact ⟨c, u, (memRead_reads h1).trans hu, hc⟩
      · next operand s2 h2 =>
        split at h
        · next e he =>
          obtain ⟨_, rfl⟩ := wordAdd_error.mp he
          exact ⟨_, s2, (memRead_reads h1).trans (fetchOperand_reads h2), (Except.error.inj h).symm⟩
        · cases h

/-- In the reference environment it changes nothing but HALT. -/
theorem decodeLatch_error {table : Byte → OpCode} {s : State} {f : Fault} (h : decodeLatch table s = .error f) :
    ∃ c, f = .raised c (setHalt (some c) s) := by
  obtain ⟨c, u, hu, hc⟩ := decodeLatch_env_error h
  exact ⟨c, hu.reference ▸ hc⟩

/-! ## The execute phase -/

/-- The execute phase runs one meaning, or raises `ResolverMisuse` (40_fetch_decode_operands.md R98, R101). -/
theorem executeIr_env_cases (instr : Ir) (s : State) (env : Environment) :
    (∃ i, executeIr instr s env = execIn i s env ∧ (instrOfIr instr = some i ∨ instr.op = .unimplemented)) ∨
    (instrOfIr instr = none ∧ instr.op ≠ .unimplemented ∧
      executeIr instr s env = outcome (raise (.resolverMisuse instr.op instr.mode) s)) := by
  unfold executeIr
  split
  · next h => exact .inl ⟨.unimplemented 0, rfl, .inr h⟩
  · next h =>
    split
    · next i hi => exact .inl ⟨i, rfl, .inl hi⟩
    · next hn => exact .inr ⟨hn, h, rfl⟩

theorem executeIr_cases (instr : Ir) (s : State) :
    (∃ i, executeIr instr s = exec i s ∧ (instrOfIr instr = some i ∨ instr.op = .unimplemented)) ∨
    (instrOfIr instr = none ∧ instr.op ≠ .unimplemented ∧
      executeIr instr s = outcome (raise (.resolverMisuse instr.op instr.mode) s)) := by
  simpa only [execIn_reference] using executeIr_env_cases instr s .reference

/-- A populated pair runs its meaning (40_fetch_decode_operands.md R101). -/
theorem executeIr_of_instr {instr : Ir} {i : Instr} (hu : instr.op ≠ .unimplemented) (hi : instrOfIr instr = some i)
    (s : State) (env : Environment) : executeIr instr s env = execIn i s env := by
  simp only [executeIr, if_neg hu, hi]

theorem executeIr_not_refused (instr : Ir) (s : State) (env : Environment) (q : Refusal) :
    executeIr instr s env ≠ .refused q := by
  rcases executeIr_env_cases instr s env with ⟨i, hi, _⟩ | ⟨_, _, h⟩
  · rw [hi]; exact execIn_not_refused i s env q
  · rw [h]; exact outcome_not_refused

theorem executeIr_keeps {instr : Ir} {s t : State} (h : executeIr instr s = .next t) :
    t.ir = s.ir ∧ t.halt = s.halt ∧ (s.mem.wf = true → t.mem.wf = true) := by
  rcases executeIr_cases instr s with ⟨i, hi, _⟩ | ⟨_, _, hr⟩
  · exact exec_keeps (hi ▸ h)
  · rw [hr] at h; cases h

theorem executeIr_fault {instr : Ir} {s : State} {f : Fault} (h : executeIr instr s = .fault f) :
    ∃ c u, f = .raised c (setHalt (some c) u) ∧
      (u = s ∨ (c = .wordOverflow 0xFFFF 1 ∧ u = setSP (s.sp + 1 + 1) s)) := by
  rcases executeIr_cases instr s with ⟨i, hi, _⟩ | ⟨_, _, hr⟩
  · obtain ⟨c, u, hf, hu⟩ := exec_fault (hi ▸ h)
    exact ⟨c, u, hf, hu.imp id And.right⟩
  · rw [hr] at h
    exact ⟨_, s, (Except.error.inj (outcome_fault.mp h)).symm, .inl rfl⟩

/-! ## The step -/

/-- A running core's step: the decode phase, then the execute phase on what it latched (00_scope.md R11). -/
theorem stepWith_running {table : Byte → OpCode} {s : State} {env : Environment} (h : s.halt = none) :
    stepWith table s env =
      match decodeLatch table s env with
      | .error f => .fault f
      | .ok t => executePhase t env := by
  cases s
  cases h
  rfl

theorem stepWith_halted {table : Byte → OpCode} {s : State} {env : Environment} {c : FaultCause} (h : s.halt = some c) :
    stepWith table s env = .fault (.halted c) := by
  simp only [stepWith, h]

/-- A running core's step, once its decode phase has latched an instruction. -/
theorem stepWith_of_latch {table : Byte → OpCode} {s u : State} {env : Environment} {instr : Ir} {pc' : Addr}
    (h : s.halt = none) (hu : AfterReads env s u)
    (hd : decodeLatch table s env = .ok (setIR (some instr) (setPC pc' u))) :
    stepWith table s env = executeIr instr (setIR none (setPC pc' u)) env := by
  obtain ⟨m, rfl, -⟩ := hu
  rw [stepWith_running h, hd]
  simp only [executePhase, setIR_halt, setPC_halt, setMem_halt, h, setIR_ir]
  rfl

/-- The step, from what the decode phase read. -/
theorem stepWith_env_of_fetch {table : Byte → OpCode} {s s1 s2 : State} {env : Environment} (h : s.halt = none)
    {b0 : Byte} {operand : Operand} {pc' : Addr} (hb : memRead s.pc s env = .ok (b0, s1))
    (hu : (table b0).op ≠ .unimplemented)
    (ho : fetchOperand (table b0).mode s.pc s1 env = .ok (operand, s2))
    (hp : (pc'.toNat : Int) = s.pc.toNat + modeLength (table b0).mode) :
    stepWith table s env =
      executeIr ⟨(table b0).op, (table b0).mode, operand⟩ (setIR none (setPC pc' s2)) env :=
  stepWith_of_latch h ((memRead_reads hb).trans (fetchOperand_reads ho))
    (decodeLatch_env_ok.mpr ⟨b0, s1, operand, s2, pc', hb, hu, ho, hp, rfl⟩)

theorem stepWith_of_fetch {table : Byte → OpCode} {s : State} (h : s.halt = none) {b0 : Byte} {operand : Operand}
    {pc' : Addr} (hb : busRead s.pc s.mem = .ok b0) (hu : (table b0).op ≠ .unimplemented)
    (ho : fetchOperand (table b0).mode s.pc s = .ok (operand, s))
    (hp : (pc'.toNat : Int) = s.pc.toNat + modeLength (table b0).mode) :
    stepWith table s = executeIr ⟨(table b0).op, (table b0).mode, operand⟩ (setIR none (setPC pc' s)) :=
  stepWith_env_of_fetch h (memRead_ok.mpr ⟨hb, rfl⟩) hu ho hp

/-- Everything a step that goes on has done, in any environment. -/
theorem stepWith_env_next {table : Byte → OpCode} {s t : State} {env : Environment}
    (h : stepWith table s env = .next t) :
    s.halt = none ∧ ∃ instr pc' u, AfterReads env s u ∧ executeIr instr (setIR none (setPC pc' u)) env = .next t := by
  cases hh : s.halt with
  | some c => rw [stepWith_halted hh] at h; cases h
  | none =>
    cases hd : decodeLatch table s env with
    | error f => rw [stepWith_running hh, hd] at h; cases h
    | ok v =>
      obtain ⟨instr, pc', u, hu, rfl⟩ := decodeLatch_reads hd
      exact ⟨rfl, instr, pc', u, hu, stepWith_of_latch hh hu hd ▸ h⟩

theorem stepWith_next {table : Byte → OpCode} {s t : State} (h : stepWith table s = .next t) :
    s.halt = none ∧ ∃ instr pc', executeIr instr (setIR none (setPC pc' s)) = .next t := by
  obtain ⟨hh, instr, pc', u, hu, he⟩ := stepWith_env_next h
  obtain rfl := hu.reference
  exact ⟨hh, instr, pc', he⟩

/-! ## The placements from outside keep memory canonical -/

/-- The host's placement of bytes at consecutive addresses (log 9). -/
theorem wf_placeBytes {m : Memory} (hm : m.wf = true) (bytes : List Byte) (n : Nat) :
    (placeBytes n bytes m).wf = true := by
  induction bytes generalizing n m with
  | nil => exact hm
  | cons b rest ih =>
    refine ih ?_ (n + 1)
    split
    · split
      · next k hk => exact wf_cellSet hm (isCellKey_of_busCell hk) b
      · exact hm
    · exact hm

theorem wf_withFetchWord {s : State} (hs : s.mem.wf = true) (nbits w : Nat) :
    (s.withFetchWord nbits w).mem.wf = true := wf_placeBytes hs _ _

theorem prgWindow_length {prg window : List Byte} (h : prgWindow prg = some window) : window.length = 0x8000 := by
  unfold prgWindow at h
  split_ifs at h with h1 h2
  · cases h; exact h1
  · cases h; simp [h2]

/-- The memory at launch (20_memory.md R62). -/
theorem wf_launchMemory {window : List Byte} (h : window.length = 0x8000) (ram ppuReg apuReg : List Byte) :
    (launchMemory ram ppuReg apuReg window).wf = true := by
  unfold launchMemory
  refine wf_cellsLoad (wf_cellsLoad (wf_cellsLoad (wf_cellsLoad rfl _ _ ?_) _ _ ?_) _ _ ?_) _ _ ?_ <;> intro i hi <;>
    simp only [List.length_take, h] at hi <;>
    simp only [isCellKey, Bool.or_eq_true, Bool.and_eq_true, decide_eq_true_eq] <;> omega

theorem wf_hostPoke16 {addr w : Addr} {s t : State} (hs : s.mem.wf = true) (h : hostPoke16 addr w s = .ok t) :
    t.mem.wf = true := by
  unfold hostPoke16 at h
  split at h
  · cases h
  · next u hu =>
    split at h
    · cases h
    · exact wf_memWrite (wf_memWrite hs hu) h

/-- The reset state's memory is canonical. -/
theorem wf_reset : State.reset.mem.wf = true := rfl

end Sys2Proof.Machine
end

