-- ==== Sys2Proof/Tests/Slice0.lean ====
section
/-! SUPPORT. Tests: the well-formedness smoke, decodings of words written out from 30_encoding.md R71 and R79, single
steps whose results are the spec's own vectors (95_test_vectors.md, named in each docstring), and a witness for the
hypotheses of every obligation that has some. -/

namespace Sys2Proof.Tests
open Sys2Proof Sys2Proof.Machine

/-! ## Well-formedness smoke -/

/-- 30_encoding.md R80: a populated byte is no sentinel. -/
theorem test_wf_refuses_a_populated_byte :
    (Instr.unimplemented 0xA9).wf = false ∧ (Instr.unimplemented 0x4C).wf = false := by
  decide

/-- 30_encoding.md R80, R81: an unpopulated byte is one; operands have no illegal values. -/
theorem test_wf_accepts_the_rest :
    (Instr.unimplemented 0xEA).wf = true ∧ (Instr.unimplemented 0x00).wf = true ∧ (Instr.ldaImm 0xFF).wf = true ∧
    (Instr.jmpInd 0xFFFF).wf = true := by decide

/-! ## Decoding: the rows of V-DEC (operand bytes 0x34, then 0x12), one theorem per family -/

/-- The decoder reads the bytes as exactly this instruction and leaves the byte after it. -/
def reads (bytes : List Byte) (i : Instr) : Bool :=
  match decode (bytes ++ [0xEE]) with
  | .ok (j, rest) => decide (j = i) && decide (rest = [0xEE])
  | .error _ => false

theorem test_decode_shift_and_logic :
    reads [0x0A] (.aslAcc) = true ∧
    reads [0x4A] (.lsrAcc) = true ∧
    reads [0x29, 0x34] (.andImm 0x34) = true ∧
    reads [0x25, 0x34] (.andZp 0x34) = true ∧
    reads [0x2D, 0x34, 0x12] (.andAbs 0x1234) = true := by decide

theorem test_decode_loads :
    reads [0xA9, 0x34] (.ldaImm 0x34) = true ∧
    reads [0xA5, 0x34] (.ldaZp 0x34) = true ∧
    reads [0xAD, 0x34, 0x12] (.ldaAbs 0x1234) = true ∧
    reads [0xA2, 0x34] (.ldxImm 0x34) = true ∧
    reads [0xA6, 0x34] (.ldxZp 0x34) = true ∧
    reads [0xAE, 0x34, 0x12] (.ldxAbs 0x1234) = true ∧
    reads [0xA0, 0x34] (.ldyImm 0x34) = true ∧
    reads [0xA4, 0x34] (.ldyZp 0x34) = true ∧
    reads [0xAC, 0x34, 0x12] (.ldyAbs 0x1234) = true := by decide

theorem test_decode_stores :
    reads [0x85, 0x34] (.staZp 0x34) = true ∧
    reads [0x8D, 0x34, 0x12] (.staAbs 0x1234) = true ∧
    reads [0x86, 0x34] (.stxZp 0x34) = true ∧
    reads [0x8E, 0x34, 0x12] (.stxAbs 0x1234) = true ∧
    reads [0x84, 0x34] (.styZp 0x34) = true ∧
    reads [0x8C, 0x34, 0x12] (.styAbs 0x1234) = true := by decide

theorem test_decode_compares :
    reads [0xC9, 0x34] (.cmpImm 0x34) = true ∧
    reads [0xC5, 0x34] (.cmpZp 0x34) = true ∧
    reads [0xCD, 0x34, 0x12] (.cmpAbs 0x1234) = true ∧
    reads [0xE0, 0x34] (.cpxImm 0x34) = true ∧
    reads [0xE4, 0x34] (.cpxZp 0x34) = true ∧
    reads [0xEC, 0x34, 0x12] (.cpxAbs 0x1234) = true ∧
    reads [0xC0, 0x34] (.cpyImm 0x34) = true ∧
    reads [0xC4, 0x34] (.cpyZp 0x34) = true ∧
    reads [0xCC, 0x34, 0x12] (.cpyAbs 0x1234) = true := by decide

theorem test_decode_increments :
    reads [0xE6, 0x34] (.incZp 0x34) = true ∧
    reads [0xEE, 0x34, 0x12] (.incAbs 0x1234) = true ∧
    reads [0xC6, 0x34] (.decZp 0x34) = true ∧
    reads [0xCE, 0x34, 0x12] (.decAbs 0x1234) = true ∧
    reads [0xE8] (.inx) = true ∧
    reads [0xCA] (.dex) = true ∧
    reads [0xC8] (.iny) = true ∧
    reads [0x88] (.dey) = true := by decide

theorem test_decode_branches :
    reads [0x90, 0x34] (.bcc 0x34) = true ∧
    reads [0xB0, 0x34] (.bcs 0x34) = true ∧
    reads [0xF0, 0x34] (.beq 0x34) = true ∧
    reads [0xD0, 0x34] (.bne 0x34) = true ∧
    reads [0x10, 0x34] (.bpl 0x34) = true := by decide

theorem test_decode_jumps_and_calls :
    reads [0x4C, 0x34, 0x12] (.jmpAbs 0x1234) = true ∧
    reads [0x6C, 0x34, 0x12] (.jmpInd 0x1234) = true ∧
    reads [0x20, 0x34, 0x12] (.jsr 0x1234) = true ∧
    reads [0x60] (.rts) = true := by decide

theorem test_decode_stack_and_flags :
    reads [0x48] (.pha) = true ∧
    reads [0xD8] (.cld) = true ∧
    reads [0x78] (.sei) = true ∧
    reads [0xAA] (.tax) = true ∧
    reads [0x9A] (.txs) = true := by decide

/-- 30_encoding.md R80: four of the 205 bytes; nothing after the byte is taken. -/
theorem test_decode_unimplemented :
    reads [0x00] (.unimplemented 0x00) = true ∧ reads [0xEA] (.unimplemented 0xEA) = true ∧
    reads [0x69] (.unimplemented 0x69) = true ∧ reads [0xFF] (.unimplemented 0xFF) = true := by decide

/-- 30_encoding.md R72: an instruction with a byte missing is refused by name. -/
theorem test_decode_missing_bytes :
    decode [] = .error .noOpcodeByte ∧ decode [0xA9] = .error (.missingOperandBytes ⟨.lda, .immediate⟩) ∧
    decode [0x4C, 0x34] = .error (.missingOperandBytes ⟨.jmp, .absolute⟩) := ⟨rfl, rfl, rfl⟩

/-- A table word: byte 0 in bits 7 to 0, the next bytes above it; bits the row does not have are 0. -/
theorem test_decodeTableWord :
    decodeTableWord 24 0x12344C = some (.jmpAbs 0x1234) ∧ decodeTableWord 16 0x42A9 = some (.ldaImm 0x42) ∧
    decodeTableWord 8 0x42A9 = some (.ldaImm 0x00) ∧ decodeTableWord 8 0x02 = some (.unimplemented 0x02) := by decide

/-! ## Single steps: vectors of 95_test_vectors.md -/

/-- A core with these registers and these runs of bytes in memory. -/
def coreAt (pc : Addr) (a x y sp status : Byte) (cells : List (Nat × List Byte)) : State where
  a := a
  x := x
  y := y
  sp := sp
  status := status
  pc := pc
  ir := none
  halt := none
  mem := cells.foldl (fun m c => placeBytes c.1 c.2 m) []

/-- The registers a vector names. -/
def regsAre (t : State) (pc : Addr) (a x y sp status : Byte) : Bool :=
  decide (t.pc = pc) && decide (t.a = a) && decide (t.x = x) && decide (t.y = y) && decide (t.sp = sp) &&
    decide (t.status = status)

/-- The byte read at an address. -/
def holds (t : State) (addr : Addr) (v : Byte) : Bool :=
  match busRead addr t.mem with
  | .ok w => decide (w = v)
  | .error _ => false

/-- The step goes on to these registers and changes no cell. -/
def goesTo (s : State) (pc : Addr) (a x y sp status : Byte) : Bool :=
  match step s with
  | .next t => regsAre t pc a x y sp status && decide (t.mem = s.mem) && decide (t.ir = none)
  | _ => false

/-- The step goes on to these registers, and these addresses read these bytes. -/
def storesTo (s : State) (pc : Addr) (a x y sp status : Byte) (cells : List (Addr × Byte)) : Bool :=
  match step s with
  | .next t => regsAre t pc a x y sp status && cells.all (fun c => holds t c.1 c.2) && t.mem.wf
  | _ => false

/-- The step raises this fault with these registers, HALT latched, no cell changed. -/
def faultsWith (s : State) (c : FaultCause) (pc : Addr) (a x y sp status : Byte) : Bool :=
  match step s with
  | .fault (.raised d t) =>
    decide (d = c) && regsAre t pc a x y sp status && decide (t.halt = some c) && decide (t.mem = s.mem)
  | _ => false

/-- V-SH2: ``ASL A``. -/
theorem test_step_aslAcc_1 :
    goesTo (coreAt 0x8000 0x80 0x00 0x00 0xFD 0x00 [(0x8000, [0x0A])])
      0x8001 0x00 0x00 0x00 0xFD 0x03 = true := by
  decide

/-- V-SH4: ``ASL A``. -/
theorem test_step_aslAcc_2 :
    goesTo (coreAt 0x8000 0x40 0x00 0x00 0xFD 0x00 [(0x8000, [0x0A])])
      0x8001 0x80 0x00 0x00 0xFD 0x80 = true := by
  decide

/-- V-SH10: ``LSR A``. -/
theorem test_step_lsrAcc_1 :
    goesTo (coreAt 0x8000 0xFF 0x00 0x00 0xFD 0x80 [(0x8000, [0x4A])])
      0x8001 0x7F 0x00 0x00 0xFD 0x01 = true := by
  decide

/-- V-SH8: ``LSR A``. -/
theorem test_step_lsrAcc_2 :
    goesTo (coreAt 0x8000 0x01 0x00 0x00 0xFD 0x00 [(0x8000, [0x4A])])
      0x8001 0x00 0x00 0x00 0xFD 0x03 = true := by
  decide

/-- V-AND1: ``AND #$0F``. -/
theorem test_step_andImm_1 :
    goesTo (coreAt 0x8000 0xB5 0x00 0x00 0xFD 0x81 [(0x8000, [0x29, 0x0F])])
      0x8002 0x05 0x00 0x00 0xFD 0x01 = true := by
  decide

/-- V-AND3: ``AND #$FF``. -/
theorem test_step_andImm_2 :
    goesTo (coreAt 0x8000 0x80 0x00 0x00 0xFD 0x02 [(0x8000, [0x29, 0xFF])])
      0x8002 0x80 0x00 0x00 0xFD 0x80 = true := by
  decide

/-- V-AND4: ``AND $10``. -/
theorem test_step_andZp :
    goesTo (coreAt 0x8000 0xF0 0x00 0x00 0xFD 0x00 [(0x8000, [0x25, 0x10]), (0x0010, [0x3C])])
      0x8002 0x30 0x00 0x00 0xFD 0x00 = true := by
  decide

/-- V-AND5: ``AND $0310``. -/
theorem test_step_andAbs_1 :
    goesTo (coreAt 0x8000 0xAA 0x00 0x00 0xFD 0x00 [(0x8000, [0x2D, 0x10, 0x03]), (0x0310, [0x55])])
      0x8003 0x00 0x00 0x00 0xFD 0x02 = true := by
  decide

/-- V-AND6: ``AND $2008``. -/
theorem test_step_andAbs_2 :
    faultsWith
      (coreAt 0x8000 0xAA 0x00 0x00 0xFD 0x80 [(0x8000, [0x2D, 0x08, 0x20])])
      (.unimplementedRegion 0x2008) 0x8003 0xAA 0x00 0x00 0xFD 0x80 = true := by
  decide

/-- V-LD2: ``LDA #$00``. -/
theorem test_step_ldaImm_1 :
    goesTo (coreAt 0x8000 0x55 0x00 0x00 0xFD 0x80 [(0x8000, [0xA9, 0x00])])
      0x8002 0x00 0x00 0x00 0xFD 0x02 = true := by
  decide

/-- V-LD3: ``LDA #$80``. -/
theorem test_step_ldaImm_2 :
    goesTo (coreAt 0x8000 0x00 0x00 0x00 0xFD 0x02 [(0x8000, [0xA9, 0x80])])
      0x8002 0x80 0x00 0x00 0xFD 0x80 = true := by
  decide

/-- V-LD4: ``LDA $10``. -/
theorem test_step_ldaZp :
    goesTo (coreAt 0x8000 0x00 0x00 0x00 0xFD 0x00 [(0x8000, [0xA5, 0x10]), (0x0010, [0x7F])])
      0x8002 0x7F 0x00 0x00 0xFD 0x00 = true := by
  decide

/-- V-LD5: ``LDA $0810``. -/
theorem test_step_ldaAbs_1 :
    goesTo (coreAt 0x8000 0x00 0x00 0x00 0xFD 0x00 [(0x8000, [0xAD, 0x10, 0x08]), (0x0010, [0x99])])
      0x8003 0x99 0x00 0x00 0xFD 0x80 = true := by
  decide

/-- V-LD13: ``LDA $4018``. -/
theorem test_step_ldaAbs_2 :
    faultsWith
      (coreAt 0x8000 0x33 0x00 0x00 0xFD 0x02 [(0x8000, [0xAD, 0x18, 0x40])])
      (.unimplementedRegion 0x4018) 0x8003 0x33 0x00 0x00 0xFD 0x02 = true := by
  decide

/-- V-LD7: ``LDX #$FF``. -/
theorem test_step_ldxImm :
    goesTo (coreAt 0x8000 0x00 0x00 0x00 0xFD 0x00 [(0x8000, [0xA2, 0xFF])])
      0x8002 0x00 0xFF 0x00 0xFD 0x80 = true := by
  decide

/-- V-LD8: ``LDX $10``. -/
theorem test_step_ldxZp :
    goesTo (coreAt 0x8000 0x00 0x11 0x00 0xFD 0x80 [(0x8000, [0xA6, 0x10]), (0x0010, [0x00])])
      0x8002 0x00 0x00 0x00 0xFD 0x02 = true := by
  decide

/-- V-LD9: ``LDX $0200``. -/
theorem test_step_ldxAbs :
    goesTo (coreAt 0x8000 0x00 0x00 0x00 0xFD 0x00 [(0x8000, [0xAE, 0x00, 0x02]), (0x0200, [0x01])])
      0x8003 0x00 0x01 0x00 0xFD 0x00 = true := by
  decide

/-- V-LD10: ``LDY #$00``. -/
theorem test_step_ldyImm :
    goesTo (coreAt 0x8000 0x00 0x00 0x09 0xFD 0x00 [(0x8000, [0xA0, 0x00])])
      0x8002 0x00 0x00 0x00 0xFD 0x02 = true := by
  decide

/-- V-LD11: ``LDY $10``. -/
theorem test_step_ldyZp :
    goesTo (coreAt 0x8000 0x00 0x00 0x00 0xFD 0x00 [(0x8000, [0xA4, 0x10]), (0x0010, [0x80])])
      0x8002 0x00 0x00 0x80 0xFD 0x80 = true := by
  decide

/-- V-LD12: ``LDY $2000``. -/
theorem test_step_ldyAbs :
    goesTo (coreAt 0x8000 0x00 0x00 0x00 0xFD 0x00 [(0x8000, [0xAC, 0x00, 0x20]), (0x2000, [0x1F])])
      0x8003 0x00 0x00 0x1F 0xFD 0x00 = true := by
  decide

/-- V-ST1: ``STA $10``. -/
theorem test_step_staZp :
    storesTo
      (coreAt 0x8000 0x80 0x00 0x00 0xFD 0x02 [(0x8000, [0x85, 0x10])])
      0x8002 0x80 0x00 0x00 0xFD 0x02 [(0x0010, 0x80)] = true := by
  decide

/-- V-ST3: ``STA $1A00``. -/
theorem test_step_staAbs_1 :
    storesTo
      (coreAt 0x8000 0x44 0x00 0x00 0xFD 0x00 [(0x8000, [0x8D, 0x00, 0x1A])])
      0x8003 0x44 0x00 0x00 0xFD 0x00 [(0x0200, 0x44)] = true := by
  decide

/-- V-ST9: ``STA $2008``. -/
theorem test_step_staAbs_2 :
    faultsWith
      (coreAt 0x8000 0x01 0x00 0x00 0xFD 0x00 [(0x8000, [0x8D, 0x08, 0x20])])
      (.unimplementedRegion 0x2008) 0x8003 0x01 0x00 0x00 0xFD 0x00 = true := by
  decide

/-- V-ST4: ``STX $11``. -/
theorem test_step_stxZp :
    storesTo
      (coreAt 0x8000 0x00 0x00 0x00 0xFD 0x80 [(0x8000, [0x86, 0x11])])
      0x8002 0x00 0x00 0x00 0xFD 0x80 [(0x0011, 0x00)] = true := by
  decide

/-- V-ST5: ``STX $0201``. -/
theorem test_step_stxAbs :
    storesTo
      (coreAt 0x8000 0x00 0xFE 0x00 0xFD 0x00 [(0x8000, [0x8E, 0x01, 0x02])])
      0x8003 0x00 0xFE 0x00 0xFD 0x00 [(0x0201, 0xFE)] = true := by
  decide

/-- V-ST6: ``STY $22``. -/
theorem test_step_styZp :
    storesTo
      (coreAt 0x8000 0x00 0x00 0x01 0xFD 0x00 [(0x8000, [0x84, 0x22])])
      0x8002 0x00 0x00 0x01 0xFD 0x00 [(0x0022, 0x01)] = true := by
  decide

/-- V-ST7: ``STY $4017``. -/
theorem test_step_styAbs :
    storesTo
      (coreAt 0x8000 0x00 0x00 0xC0 0xFD 0x00 [(0x8000, [0x8C, 0x17, 0x40])])
      0x8003 0x00 0x00 0xC0 0xFD 0x00 [(0x4017, 0xC0)] = true := by
  decide

/-- V-CMP1: ``CMP #$10``. -/
theorem test_step_cmpImm_1 :
    goesTo (coreAt 0x8000 0x10 0x00 0x00 0xFD 0x80 [(0x8000, [0xC9, 0x10])])
      0x8002 0x10 0x00 0x00 0xFD 0x03 = true := by
  decide

/-- V-CMP3: ``CMP #$11``. -/
theorem test_step_cmpImm_2 :
    goesTo (coreAt 0x8000 0x10 0x00 0x00 0xFD 0x00 [(0x8000, [0xC9, 0x11])])
      0x8002 0x10 0x00 0x00 0xFD 0x80 = true := by
  decide

/-- V-CMP10: ``CMP $21``. -/
theorem test_step_cmpZp :
    goesTo (coreAt 0x8000 0x05 0x00 0x00 0xFD 0x00 [(0x8000, [0xC5, 0x21]), (0x0021, [0x90])])
      0x8002 0x05 0x00 0x00 0xFD 0x00 = true := by
  decide

/-- V-CMP11: ``CMP $0321``. -/
theorem test_step_cmpAbs :
    goesTo (coreAt 0x8000 0x90 0x00 0x00 0xFD 0xFF [(0x8000, [0xCD, 0x21, 0x03]), (0x0321, [0x05])])
      0x8003 0x90 0x00 0x00 0xFD 0xFD = true := by
  decide

/-- V-CMP12: ``CPX #$05``. -/
theorem test_step_cpxImm :
    goesTo (coreAt 0x8000 0x00 0x03 0x00 0xFD 0x00 [(0x8000, [0xE0, 0x05])])
      0x8002 0x00 0x03 0x00 0xFD 0x80 = true := by
  decide

/-- V-CMP13: ``CPX $10``. -/
theorem test_step_cpxZp :
    goesTo (coreAt 0x8000 0x00 0x03 0x00 0xFD 0x00 [(0x8000, [0xE4, 0x10]), (0x0010, [0x03])])
      0x8002 0x00 0x03 0x00 0xFD 0x03 = true := by
  decide

/-- V-CMP14: ``CPX $0210``. -/
theorem test_step_cpxAbs :
    goesTo (coreAt 0x8000 0x00 0xFF 0x00 0xFD 0x00 [(0x8000, [0xEC, 0x10, 0x02]), (0x0210, [0x01])])
      0x8003 0x00 0xFF 0x00 0xFD 0x81 = true := by
  decide

/-- V-CMP15: ``CPY #$01``. -/
theorem test_step_cpyImm :
    goesTo (coreAt 0x8000 0x00 0x00 0x01 0xFD 0x00 [(0x8000, [0xC0, 0x01])])
      0x8002 0x00 0x00 0x01 0xFD 0x03 = true := by
  decide

/-- V-CMP16: ``CPY $10``. -/
theorem test_step_cpyZp :
    goesTo (coreAt 0x8000 0x00 0x00 0x00 0xFD 0x00 [(0x8000, [0xC4, 0x10]), (0x0010, [0x01])])
      0x8002 0x00 0x00 0x00 0xFD 0x80 = true := by
  decide

/-- V-CMP17: ``CPY $0210``. -/
theorem test_step_cpyAbs :
    goesTo (coreAt 0x8000 0x00 0x00 0x80 0xFD 0x00 [(0x8000, [0xCC, 0x10, 0x02]), (0x0210, [0x7F])])
      0x8003 0x00 0x00 0x80 0xFD 0x01 = true := by
  decide

/-- V-ID2: ``INC $10``. -/
theorem test_step_incZp :
    storesTo
      (coreAt 0x8000 0x00 0x00 0x00 0xFD 0x81 [(0x8000, [0xE6, 0x10]), (0x0010, [0xFF])])
      0x8002 0x00 0x00 0x00 0xFD 0x03 [(0x0010, 0x00)] = true := by
  decide

/-- V-ID3: ``INC $0300``. -/
theorem test_step_incAbs_1 :
    storesTo
      (coreAt 0x8000 0x00 0x00 0x00 0xFD 0x00 [(0x8000, [0xEE, 0x00, 0x03]), (0x0300, [0x7F])])
      0x8003 0x00 0x00 0x00 0xFD 0x80 [(0x0300, 0x80)] = true := by
  decide

/-- V-ID4: ``INC $2008``. -/
theorem test_step_incAbs_2 :
    faultsWith
      (coreAt 0x8000 0x00 0x00 0x00 0xFD 0x02 [(0x8000, [0xEE, 0x08, 0x20])])
      (.unimplementedRegion 0x2008) 0x8003 0x00 0x00 0x00 0xFD 0x02 = true := by
  decide

/-- V-ID5: ``DEC $10``. -/
theorem test_step_decZp :
    storesTo
      (coreAt 0x8000 0x00 0x00 0x00 0xFD 0x00 [(0x8000, [0xC6, 0x10]), (0x0010, [0x00])])
      0x8002 0x00 0x00 0x00 0xFD 0x80 [(0x0010, 0xFF)] = true := by
  decide

/-- V-ID6: ``DEC $0200``. -/
theorem test_step_decAbs :
    storesTo
      (coreAt 0x8000 0x00 0x00 0x00 0xFD 0x00 [(0x8000, [0xCE, 0x00, 0x02]), (0x0200, [0x01])])
      0x8003 0x00 0x00 0x00 0xFD 0x02 [(0x0200, 0x00)] = true := by
  decide

/-- V-ID9: ``INX``. -/
theorem test_step_inx_1 :
    goesTo (coreAt 0x8000 0x00 0xFF 0x00 0xFD 0x81 [(0x8000, [0xE8])])
      0x8001 0x00 0x00 0x00 0xFD 0x03 = true := by
  decide

/-- V-FLT6: ``INX``. -/
theorem test_step_inx_2 :
    faultsWith
      (coreAt 0xFFFF 0x00 0x01 0x00 0xFD 0x00 [(0xFFFF, [0xE8])])
      (.wordOverflow 0xffff 1) 0xFFFF 0x00 0x01 0x00 0xFD 0x00 = true := by
  decide

/-- V-ID11: ``DEX``. -/
theorem test_step_dex :
    goesTo (coreAt 0x8000 0x00 0x00 0x00 0xFD 0x00 [(0x8000, [0xCA])])
      0x8001 0x00 0xFF 0x00 0xFD 0x80 = true := by
  decide

/-- V-ID14: ``INY``. -/
theorem test_step_iny :
    goesTo (coreAt 0x8000 0x00 0x00 0xFF 0xFD 0x00 [(0x8000, [0xC8])])
      0x8001 0x00 0x00 0x00 0xFD 0x02 = true := by
  decide

/-- V-ID17: ``DEY``. -/
theorem test_step_dey :
    goesTo (coreAt 0x8000 0x00 0x00 0x80 0xFD 0x80 [(0x8000, [0x88])])
      0x8001 0x00 0x00 0x7F 0xFD 0x00 = true := by
  decide

/-- V-BR1: ``BCC $800A``. -/
theorem test_step_bcc_1 :
    goesTo (coreAt 0x8000 0x00 0x00 0x00 0xFD 0x00 [(0x8000, [0x90, 0x08])])
      0x800A 0x00 0x00 0x00 0xFD 0x00 = true := by
  decide

/-- V-BR2: ``BCC $800A``. -/
theorem test_step_bcc_2 :
    goesTo (coreAt 0x8000 0x00 0x00 0x00 0xFD 0x01 [(0x8000, [0x90, 0x08])])
      0x8002 0x00 0x00 0x00 0xFD 0x01 = true := by
  decide

/-- V-BR3: ``BCS $800A``. -/
theorem test_step_bcs_1 :
    goesTo (coreAt 0x8000 0x00 0x00 0x00 0xFD 0x01 [(0x8000, [0xB0, 0x08])])
      0x800A 0x00 0x00 0x00 0xFD 0x01 = true := by
  decide

/-- V-BR4: ``BCS $800A``. -/
theorem test_step_bcs_2 :
    goesTo (coreAt 0x8000 0x00 0x00 0x00 0xFD 0x00 [(0x8000, [0xB0, 0x08])])
      0x8002 0x00 0x00 0x00 0xFD 0x00 = true := by
  decide

/-- V-BR5: ``BEQ $800A``. -/
theorem test_step_beq_1 :
    goesTo (coreAt 0x8000 0x00 0x00 0x00 0xFD 0x02 [(0x8000, [0xF0, 0x08])])
      0x800A 0x00 0x00 0x00 0xFD 0x02 = true := by
  decide

/-- V-BR21: ``BEQ $800A``. -/
theorem test_step_beq_2 :
    goesTo (coreAt 0x8000 0x00 0x00 0x00 0xFD 0xFD [(0x8000, [0xF0, 0x08])])
      0x8002 0x00 0x00 0x00 0xFD 0xFD = true := by
  decide

/-- V-BR12: ``BNE $8082``. -/
theorem test_step_bne_1 :
    goesTo (coreAt 0x8100 0x00 0x00 0x00 0xFD 0x00 [(0x8100, [0xD0, 0x80])])
      0x8082 0x00 0x00 0x00 0xFD 0x00 = true := by
  decide

/-- V-BR19: ``BNE above 0xFFFF``. -/
theorem test_step_bne_2 :
    faultsWith
      (coreAt 0xFF90 0x00 0x00 0x00 0xFD 0x00 [(0xFF90, [0xD0, 0x7F])])
      (.wordOverflow 0xff92 127) 0xFF92 0x00 0x00 0x00 0xFD 0x00 = true := by
  decide

/-- V-BR10: ``BPL $800A``. -/
theorem test_step_bpl_1 :
    goesTo (coreAt 0x8000 0x00 0x00 0x00 0xFD 0x80 [(0x8000, [0x10, 0x08])])
      0x8002 0x00 0x00 0x00 0xFD 0x80 = true := by
  decide

/-- V-BR16: ``BPL below 0``. -/
theorem test_step_bpl_2 :
    faultsWith
      (coreAt 0x0000 0x00 0x00 0x00 0xFD 0x00 [(0x0000, [0x10, 0xFD])])
      (.wordOverflow 0x2 (-3)) 0x0002 0x00 0x00 0x00 0xFD 0x00 = true := by
  decide

/-- V-JMP1: ``JMP $1234``. -/
theorem test_step_jmpAbs_1 :
    goesTo (coreAt 0x8000 0x00 0x00 0x00 0xFD 0x00 [(0x8000, [0x4C, 0x34, 0x12])])
      0x1234 0x00 0x00 0x00 0xFD 0x00 = true := by
  decide

/-- V-FLT10: ``JMP $8000``. -/
theorem test_step_jmpAbs_2 :
    faultsWith
      (coreAt 0xFFFD 0x00 0x00 0x00 0xFD 0x00 [(0xFFFD, [0x4C, 0x00, 0x80])])
      (.wordOverflow 0xfffd 3) 0xFFFD 0x00 0x00 0x00 0xFD 0x00 = true := by
  decide

/-- V-JMP4: ``JMP $02FF``. -/
theorem test_step_jmpInd_1 :
    goesTo (coreAt 0x8000 0x00 0x00 0x00 0xFD 0x00 [(0x8000, [0x6C, 0xFF, 0x02]), (0x02FF, [0x34]), (0x0300, [0x12]), (0x0200, [0x56])])
      0x1234 0x00 0x00 0x00 0xFD 0x00 = true := by
  decide

/-- V-JMP5: ``JMP $FFFF``. -/
theorem test_step_jmpInd_2 :
    faultsWith
      (coreAt 0x8000 0x00 0x00 0x00 0xFD 0x00 [(0x8000, [0x6C, 0xFF, 0xFF]), (0xFFFF, [0x11])])
      (.wordOverflow 0xffff 1) 0x8003 0x00 0x00 0x00 0xFD 0x00 = true := by
  decide

/-- V-JSR3: ``JSR $1234``. -/
theorem test_step_jsr_1 :
    storesTo
      (coreAt 0x8000 0x00 0x00 0x00 0x00 0x00 [(0x8000, [0x20, 0x34, 0x12])])
      0x1234 0x00 0x00 0x00 0xFE 0x00 [(0x0100, 0x80), (0x01FF, 0x02)] = true := by
  decide

/-- V-JSR1: ``JSR $9000``. -/
theorem test_step_jsr_2 :
    storesTo
      (coreAt 0x8000 0x00 0x00 0x00 0xFD 0x00 [(0x8000, [0x20, 0x00, 0x90])])
      0x9000 0x00 0x00 0x00 0xFB 0x00 [(0x01FD, 0x80), (0x01FC, 0x02)] = true := by
  decide

/-- V-RTS2: ``RTS``. -/
theorem test_step_rts_1 :
    goesTo (coreAt 0x9000 0x00 0x00 0x00 0xFF 0x00 [(0x9000, [0x60]), (0x0100, [0xFF]), (0x0101, [0x80])])
      0x8100 0x00 0x00 0x00 0x01 0x00 = true := by
  decide

/-- V-RTS3: ``RTS``. -/
theorem test_step_rts_2 :
    faultsWith
      (coreAt 0x9000 0x00 0x00 0x00 0xFB 0x00 [(0x9000, [0x60]), (0x01FC, [0xFF]), (0x01FD, [0xFF])])
      (.wordOverflow 0xffff 1) 0x9001 0x00 0x00 0x00 0xFD 0x00 = true := by
  decide

/-- V-STK2: ``PHA``. -/
theorem test_step_pha_1 :
    storesTo
      (coreAt 0x8000 0x00 0x00 0x00 0x00 0x00 [(0x8000, [0x48]), (0x0100, [0xEE])])
      0x8001 0x00 0x00 0x00 0xFF 0x00 [(0x0100, 0x00)] = true := by
  decide

/-- V-STK3: ``PHA``. -/
theorem test_step_pha_2 :
    storesTo
      (coreAt 0x8000 0x5A 0x00 0x00 0x7F 0xFF [(0x8000, [0x48])])
      0x8001 0x5A 0x00 0x00 0x7E 0xFF [(0x017F, 0x5A), (0x097F, 0x5A)] = true := by
  decide

/-- V-FT1: ``CLD``. -/
theorem test_step_cld :
    goesTo (coreAt 0x8000 0x00 0x00 0x00 0xFD 0xFF [(0x8000, [0xD8])])
      0x8001 0x00 0x00 0x00 0xFD 0xF7 = true := by
  decide

/-- V-FT3: ``SEI``. -/
theorem test_step_sei :
    goesTo (coreAt 0x8000 0x00 0x00 0x00 0xFD 0x00 [(0x8000, [0x78])])
      0x8001 0x00 0x00 0x00 0xFD 0x04 = true := by
  decide

/-- V-FT6: ``TAX``. -/
theorem test_step_tax_1 :
    goesTo (coreAt 0x8000 0x80 0x55 0x00 0xFD 0x03 [(0x8000, [0xAA])])
      0x8001 0x80 0x80 0x00 0xFD 0x81 = true := by
  decide

/-- V-FT5: ``TAX``. -/
theorem test_step_tax_2 :
    goesTo (coreAt 0x8000 0x00 0x55 0x00 0xFD 0x00 [(0x8000, [0xAA])])
      0x8001 0x00 0x00 0x00 0xFD 0x02 = true := by
  decide

/-- V-FT9: ``TXS``. -/
theorem test_step_txs :
    goesTo (coreAt 0x8000 0x00 0x00 0x00 0x33 0x80 [(0x8000, [0x9A])])
      0x8001 0x00 0x00 0x00 0x00 0x80 = true := by
  decide

/-- V-FLT3: ``ADC #``. -/
theorem test_step_unimplemented_and_unmapped_1 :
    faultsWith
      (coreAt 0x8000 0x00 0x00 0x00 0xFD 0x00 [(0x8000, [0x69, 0x01])])
      (.unimplementedOpcode 0x69 0x8000) 0x8000 0x00 0x00 0x00 0xFD 0x00 = true := by
  decide

/-- V-FLT13: ``fetch``. -/
theorem test_step_unimplemented_and_unmapped_2 :
    faultsWith
      (coreAt 0x4020 0x00 0x00 0x00 0xFD 0x00 [])
      (.invalidAddress 0x4020) 0x4020 0x00 0x00 0x00 0xFD 0x00 = true := by
  decide

/-- 00_scope.md R11, 20_memory.md R62: right after reset no program is there; the first step stops on byte 0x00. -/
theorem test_step_from_reset :
    step State.reset = .fault (.raised (.unimplementedOpcode 0x00 0x8000)
      (setHalt (some (.unimplementedOpcode 0x00 0x8000)) State.reset)) := rfl

/-- S2 of 95_test_vectors.md through `withFetchWord`: `LDA #$42`, then the bytes of the placed word are in memory. -/
theorem test_withFetchWord :
    storesTo (State.reset.withFetchWord 16 0x42A9) 0x8002 0x42 0x00 0x00 0xFD 0x34
      [(0x8000, 0xA9), (0x8001, 0x42), (0x8002, 0x00)] = true := by
  decide

/-! ## The bus and the address generator: V-BUS, V-WA -/

/-- The cell an address names, at each edge of the rows of 20_memory.md R51. -/
def namesCell (addr : Addr) (k : Nat) : Bool :=
  match busCell addr with
  | .ok j => decide (j = k)
  | .error _ => false

/-- The fault the bus answers. -/
def busFaults (addr : Addr) (c : FaultCause) : Bool :=
  match busCell addr with
  | .ok _ => false
  | .error d => decide (d = c)

/-- V-BUS1 to V-BUS4, V-BUS6. -/
theorem test_busCell_cells :
    namesCell 0x0000 0x0000 = true ∧ namesCell 0x07FF 0x07FF = true ∧ namesCell 0x0800 0x0000 = true ∧
    namesCell 0x1000 0x0000 = true ∧ namesCell 0x1800 0x0000 = true ∧ namesCell 0x1FFF 0x07FF = true ∧
    namesCell 0x2000 0x2000 = true ∧ namesCell 0x2007 0x2007 = true ∧ namesCell 0x4000 0x4000 = true ∧
    namesCell 0x4017 0x4017 = true ∧ namesCell 0x8000 0x8000 = true ∧ namesCell 0xFFFF 0xFFFF = true := by decide

/-- V-BUS5, V-BUS7 to V-BUS9. -/
theorem test_busCell_faults :
    busFaults 0x2008 (.unimplementedRegion 0x2008) = true ∧ busFaults 0x3FFF (.unimplementedRegion 0x3FFF) = true ∧
    busFaults 0x4018 (.unimplementedRegion 0x4018) = true ∧ busFaults 0x401F (.unimplementedRegion 0x401F) = true ∧
    busFaults 0x4020 (.invalidAddress 0x4020) = true ∧ busFaults 0x5FFF (.invalidAddress 0x5FFF) = true ∧
    busFaults 0x6000 (.unimplementedRegion 0x6000) = true ∧ busFaults 0x7FFF (.unimplementedRegion 0x7FFF) = true := by
  decide

/-- The sum, or none where the address generator faults. -/
def sumOf (w : Addr) (k : Int) : Option Addr :=
  match wordAdd w k State.reset with
  | .ok r => some r
  | .error _ => none

/-- V-WA2, V-WA5, V-WA7, V-WA9 to V-WA11, V-WA13. -/
theorem test_wordAdd :
    sumOf 0x80FF 1 = some 0x8100 ∧ sumOf 0xFFFF 1 = none ∧ sumOf 0xFFFC 3 = some 0xFFFF ∧
    sumOf 0x8100 (-128) = some 0x8080 ∧ sumOf 0x0002 (-2) = some 0x0000 ∧ sumOf 0x0002 (-3) = none ∧
    sumOf 0xFF80 127 = some 0xFFFF := by decide

/-- A write of the unlisted byte leaves no entry, whatever was there: equal memories are equal lists. -/
theorem test_memory_canonical :
    cellSet (cellSet (cellSet [] 5 0x11) 3 0x22) 5 0x00 = [(3, 0x22)] ∧
    cellSet (cellSet [] 5 0x11) 3 0x22 = cellSet (cellSet [] 3 0x22) 5 0x11 ∧
    Memory.wf [(5, 0x11), (3, 0x22)] = false ∧ Memory.wf [(3, 0x00)] = false ∧ Memory.wf [(0x0800, 0x01)] = false := by
  decide

/-! ## Witnesses: each meets the hypotheses of the obligation it names, clause by clause -/

/-- `INX` in the PRG window. -/
def inxCore : State := coreAt 0x8000 0x00 0xFF 0x00 0xFD 0x00 [(0x8000, [0xE8])]

theorem inxCore_inv : Inv inxCore := ⟨rfl, rfl, rfl⟩

theorem witness_DecodeOfEncode : (Instr.unimplemented 0x02).wf = true ∧ (Instr.jsr 0x9000).wf = true := by decide

theorem witness_DecodedBytesReencode :
    decode [0x4C, 0x34, 0x12, 0xEA] = .ok (.jmpAbs 0x1234, [0xEA]) ∧
    decode [0xEA, 0x34] = .ok (.unimplemented 0xEA, [0x34]) := ⟨rfl, rfl⟩

/-- Every mode of every clause. -/
theorem witness_LengthIsFixed :
    (∀ b ∈ ([0xE8, 0x0A, 0xA9, 0xA5, 0xF0, 0xAD, 0x6C] : List Byte), (optable b).op ≠ .unimplemented) ∧
    (optable 0xE8).mode = .implied ∧ decode [0xE8] = .ok (.inx, []) ∧
    (optable 0x0A).mode = .accumulator ∧ decode [0x0A] = .ok (.aslAcc, []) ∧
    (optable 0xA9).mode = .immediate ∧ decode [0xA9, 0x01] = .ok (.ldaImm 0x01, []) ∧
    (optable 0xA5).mode = .zeropage ∧ decode [0xA5, 0x01] = .ok (.ldaZp 0x01, []) ∧
    (optable 0xF0).mode = .relative ∧ decode [0xF0, 0x01] = .ok (.beq 0x01, []) ∧
    (optable 0xAD).mode = .absolute ∧ decode [0xAD, 0x01, 0x02] = .ok (.ldaAbs 0x0201, []) ∧
    (optable 0x6C).mode = .indirect ∧ decode [0x6C, 0x01, 0x02] = .ok (.jmpInd 0x0201, []) :=
  ⟨by decide, rfl, rfl, rfl, rfl, rfl, rfl, rfl, rfl, rfl, rfl, rfl, rfl, rfl, rfl⟩

/-- `JMP $8000` with its last byte at 0xFFFE, the highest place of a three-byte instruction. -/
def jmpCore : State := coreAt 0xFFFC 0x00 0x00 0x00 0xFD 0x00 [(0xFFFC, [0x4C, 0x00, 0x80])]

theorem witness_StepExecutes :
    jmpCore.halt = none ∧ (Instr.jmpAbs 0x8000).wf = true ∧ (∀ b, Instr.jmpAbs 0x8000 ≠ .unimplemented b) ∧
    decode [0x4C, 0x00, 0x80] = .ok (.jmpAbs 0x8000, []) ∧
    (∀ (k : Nat) (hk : k < ([0x4C, 0x00, 0x80] : List Byte).length),
      busRead (jmpCore.pc + BitVec.ofNat 16 k) jmpCore.mem = .ok ([0x4C, 0x00, 0x80] : List Byte)[k]) ∧
    jmpCore.pc.toNat + ([0x4C, 0x00, 0x80] : List Byte).length ≤ 0xFFFF :=
  ⟨rfl, rfl, nofun, rfl, fun
    | 0, _ => rfl
    | 1, _ => rfl
    | 2, _ => rfl
    | _ + 3, hk => absurd hk (by simp), by decide⟩

theorem witness_UnlistedOpcode :
    (0x00 : Byte) ∉ populatedOpcodes ∧ (0xFF : Byte) ∉ populatedOpcodes ∧ State.reset.halt = none ∧
    busRead State.reset.pc State.reset.mem = .ok 0x00 := ⟨by decide, by decide, rfl, rfl⟩

/-- A core about to fetch these bytes. -/
def fetchCore (pc : Nat) (bytes : List Byte) : State := coreAt (BitVec.ofNat 16 pc) 0 0 0 0xFD 0 [(pc, bytes)]

/-- The seven clauses of 40_fetch_decode_operands.md R95, each at a boundary. -/
theorem witness_DecodePhaseFaults :
    busRead (fetchCore 0x2008 []).pc (fetchCore 0x2008 []).mem = .error (.unimplementedRegion 0x2008) ∧
    busRead (fetchCore 0x8000 [0xEA]).pc (fetchCore 0x8000 [0xEA]).mem = .ok 0xEA ∧
    (optable 0xEA).op = .unimplemented ∧ (optable 0xA9).op ≠ .unimplemented ∧ (optable 0x4C).op ≠ .unimplemented ∧
    (optable 0xE8).op ≠ .unimplemented ∧
    (2 ≤ instructionLength 0xA9 ∧ busRead 0xFFFF (fetchCore 0xFFFF [0xA9]).mem = .ok 0xA9) ∧
    (busRead 0x2007 (fetchCore 0x2007 [0xA9]).mem = .ok 0xA9 ∧
      busRead (0x2007 + 1) (fetchCore 0x2007 [0xA9]).mem = .error (.unimplementedRegion 0x2008)) ∧
    (instructionLength 0x4C = 3 ∧ busRead 0xFFFE (fetchCore 0xFFFE [0x4C, 0x00]).mem = .ok 0x4C) ∧
    (busRead 0x2006 (fetchCore 0x2006 [0x4C, 0x00]).mem = .ok 0x4C ∧
      busRead (0x2006 + 1) (fetchCore 0x2006 [0x4C, 0x00]).mem = .ok 0x00 ∧
      busRead (0x2006 + 2) (fetchCore 0x2006 [0x4C, 0x00]).mem = .error (.unimplementedRegion 0x2008)) ∧
    (0xFFFF + instructionLength 0xE8 = 0x10000 ∧ busRead 0xFFFF (fetchCore 0xFFFF [0xE8]).mem = .ok 0xE8) ∧
    (0xFFFE + instructionLength 0xA9 = 0x10000 ∧ busRead 0xFFFE (fetchCore 0xFFFE [0xA9]).mem = .ok 0xA9) ∧
    (0xFFFD + instructionLength 0x4C = 0x10000 ∧ busRead 0xFFFD (fetchCore 0xFFFD [0x4C]).mem = .ok 0x4C) :=
  ⟨rfl, rfl, rfl, by decide, by decide, by decide, ⟨by decide, rfl⟩, ⟨rfl, rfl⟩, ⟨rfl, rfl⟩, ⟨rfl, rfl, rfl⟩, ⟨rfl, rfl⟩,
    ⟨rfl, rfl⟩, ⟨rfl, rfl⟩⟩

/-- Each length, at the highest place an instruction of that length can stand. -/
theorem witness_DecodePhaseLatches :
    (0xFFFE + instructionLength 0xE8 ≤ 0xFFFF ∧ instructionLength 0xE8 = 1 ∧
      busRead 0xFFFE (fetchCore 0xFFFE [0xE8]).mem = .ok 0xE8) ∧
    (0xFFFD + instructionLength 0xA9 ≤ 0xFFFF ∧ instructionLength 0xA9 = 2 ∧
      busRead 0xFFFD (fetchCore 0xFFFD [0xA9, 0x07]).mem = .ok 0xA9 ∧
      busRead (0xFFFD + 1) (fetchCore 0xFFFD [0xA9, 0x07]).mem = .ok 0x07) ∧
    (0xFFFC + instructionLength 0x4C ≤ 0xFFFF ∧ instructionLength 0x4C = 3 ∧ busRead 0xFFFC jmpCore.mem = .ok 0x4C ∧
      busRead (0xFFFC + 1) jmpCore.mem = .ok 0x00 ∧ busRead (0xFFFC + 2) jmpCore.mem = .ok 0x80) :=
  ⟨⟨by decide, rfl, rfl⟩, ⟨by decide, rfl, rfl, rfl⟩, ⟨by decide, rfl, rfl, rfl, rfl⟩⟩

theorem witness_HaltedCore : ∃ s c, State.halt s = some c := ⟨setHalt (some .unimplementedOperation) inxCore, _, rfl⟩

theorem witness_StepAnswers : inxCore.halt = none ∧ ∃ t, step inxCore = .next t := ⟨rfl, _, rfl⟩

/-- A decode fault, an execute fault, and the one execute fault that has changed SP (V-RTS3). -/
theorem witness_FaultLeaves :
    (∃ c t, step State.reset = .fault (.raised c t)) ∧
    (∃ c t, step (fetchCore 0x8000 [0xAD, 0x18, 0x40]) = .fault (.raised c t)) ∧
    (∃ c t, step (coreAt 0x9000 0 0 0 0xFB 0 [(0x9000, [0x60]), (0x01FC, [0xFF, 0xFF])]) = .fault (.raised c t) ∧
      t.sp ≠ 0xFB) := ⟨⟨_, _, rfl⟩, ⟨_, _, rfl⟩, ⟨_, _, rfl, by decide⟩⟩

/-- A decode fault; a latched core; and a host that has changed A, PC and memory before `execute`. -/
theorem witness_HostMayAct :
    (∃ f, hostMove .decode State.reset = .fault f) ∧
    (∃ t, hostMove .decode inxCore = .next t ∧ t.ir ≠ none ∧
      ∃ u : State, u.ir = t.ir ∧ u.halt = none ∧ u.a ≠ t.a ∧ u.pc ≠ t.pc ∧ u.mem ≠ t.mem) :=
  ⟨⟨_, rfl⟩, _, rfl, by decide, setA 0x77 (setPC 0x1234 (setMem [] (setIR (some ⟨.inx, .implied, .nothing⟩) inxCore))),
    rfl, rfl, by decide, by decide, by decide⟩

theorem witness_StepKeepsTheInvariant : Inv inxCore ∧ ∃ t, step inxCore = .next t := ⟨inxCore_inv, _, rfl⟩

theorem witness_UnreadFlags :
    AgreeButUnread inxCore (setStatus 0x7C inxCore) ∧ inxCore.status ≠ 0x7C :=
  ⟨⟨rfl, rfl, rfl, rfl, rfl, rfl, rfl, rfl, rfl, rfl, rfl⟩, by decide⟩

/-- A store, a load, a compare that finds equality, CLD and SEI each go on. -/
theorem witness_Writers :
    (∃ t, exec (.staZp 0x10) inxCore = .next t) ∧ (∃ t, exec (.ldaImm 0x10) inxCore = .next t) ∧
    (∃ t, exec (.cpxImm 0xFF) inxCore = .next t ∧ flagZ t = true) ∧ (∃ t, exec .cld inxCore = .next t) ∧
    (∃ t, exec .sei inxCore = .next t) := ⟨⟨_, rfl⟩, ⟨_, rfl⟩, ⟨_, rfl, rfl⟩, ⟨_, rfl⟩, ⟨_, rfl⟩⟩

theorem witness_WordAdd :
    ((0xFFFF : Addr).toNat : Int) = (0xFFFC : Addr).toNat + 3 ∧ ((0 : Addr).toNat : Int) = (2 : Addr).toNat + (-2) ∧
    ((2 : Addr).toNat : Int) + (-3) < 0 ∧ 0xFFFF < ((0xFFFF : Addr).toNat : Int) + 1 := by decide

/-- Both ends of the mirrored range, and of the pages that never fault. -/
theorem witness_RamMirrors :
    (0x1FFF : Addr).toNat < 0x2000 ∧ (0x07FF : Addr).toNat % 0x0800 = (0x1FFF : Addr).toNat % 0x0800 ∧
    (0x0000 : Addr).toNat % 0x0800 = (0x1800 : Addr).toNat % 0x0800 ∧ (0x01FF : Addr).toNat < 0x0200 := by decide

theorem witness_WriteThenRead :
    (∃ t, memWrite 0x1FFF 0xCD inxCore = .ok t) ∧ (∃ f, memWrite 0x2008 0xCD inxCore = .error f) :=
  ⟨⟨_, rfl⟩, ⟨_, rfl⟩⟩

/-- V-ST12, a three-byte opcode at the highest place it can stand with both operand bytes readable, and a byte the table
does not list. -/
theorem witness_StoredOpcode :
    (∃ t, exec (.staAbs 0x8003) (setA 0xE8 inxCore) = .next t ∧ (setPC 0x8003 t).halt = none) ∧
    (∃ t, exec (.staAbs 0xFFFC) (setA 0x4C inxCore) = .next t ∧ (optable 0x4C).op ≠ .unimplemented ∧
      0xFFFC + instructionLength 0x4C ≤ 0xFFFF ∧ (∃ v, busRead (0xFFFC + BitVec.ofNat 16 1) t.mem = .ok v) ∧
      ∃ v, busRead (0xFFFC + BitVec.ofNat 16 2) t.mem = .ok v) ∧
    (∃ t, exec (.staAbs 0xFFFF) (setA 0xEA inxCore) = .next t ∧ (setPC 0xFFFF t).halt = none ∧
      (0xEA : Byte) ∉ populatedOpcodes) :=
  ⟨⟨_, rfl, rfl⟩, ⟨_, rfl, by decide, by decide, ⟨_, rfl⟩, ⟨_, rfl⟩⟩, ⟨_, rfl, rfl, by decide⟩⟩

/-- An operand that reads, at the last RAM mirror and the last PRG cell, and one that faults: the value, store and
modify forms. -/
theorem witness_Operands :
    (∃ v, busRead 0x1FFF inxCore.mem = .ok v) ∧ (∃ v, busRead 0xFFFF inxCore.mem = .ok v) ∧
    (∃ c, busRead 0x4018 inxCore.mem = .error c) ∧ (∃ k, busCell 0x4017 = .ok k) ∧ (∃ c, busCell 0x4020 = .error c) :=
  ⟨⟨_, rfl⟩, ⟨_, rfl⟩, ⟨_, rfl⟩, ⟨_, rfl⟩, ⟨_, rfl⟩⟩

/-- Each flag set and clear; a target at each end of the address space; both overflows. -/
theorem witness_Branches :
    flagC (setStatus 0x01 inxCore) = true ∧ flagZ (setStatus 0x02 inxCore) = true ∧
    flagN (setStatus 0x80 inxCore) = true ∧ flagC inxCore = false ∧ flagZ inxCore = false ∧ flagN inxCore = false ∧
    ((0x0000 : Addr).toNat : Int) = (0x0002 : Addr).toNat + (0xFE : Byte).toInt ∧
    ((0xFFFF : Addr).toNat : Int) = (0xFF80 : Addr).toNat + (0x7F : Byte).toInt ∧
    ((0x0002 : Addr).toNat : Int) + (0xFD : Byte).toInt < 0 ∧
    0xFFFF < ((0xFF92 : Addr).toNat : Int) + (0x7F : Byte).toInt := by decide

/-- The pointer read, the fault of each byte, and the pointer 0xFFFF. -/
theorem witness_JmpIndirect :
    ((0xFFFE : Addr) ≠ 0xFFFF ∧ (∃ v, busRead 0xFFFE inxCore.mem = .ok v) ∧
      ∃ v, busRead (0xFFFE + 1) inxCore.mem = .ok v) ∧
    (∃ c, busRead 0x2008 inxCore.mem = .error c) ∧
    ((∃ v, busRead 0x2007 inxCore.mem = .ok v) ∧ ∃ c, busRead (0x2007 + 1) inxCore.mem = .error c) :=
  ⟨⟨by decide, ⟨_, rfl⟩, ⟨_, rfl⟩⟩, ⟨_, rfl⟩, ⟨_, rfl⟩, ⟨_, rfl⟩⟩

theorem witness_Jsr : 1 ≤ (setPC 0x0001 inxCore).pc.toNat ∧ (setPC 0x0000 inxCore).pc = 0 := by decide

/-- A state that returns (V-RTS2, the stack wraps) and one that overflows (V-RTS3). -/
theorem witness_Rts :
    ((∃ t, exec .rts (coreAt 0x9001 0 0 0 0xFF 0 [(0x0100, [0xFF, 0x80])]) = .next t ∧ t.pc = 0x8100) ∧
      wordOf 0x80 0xFF ≠ 0xFFFF) ∧
    (∃ c t, exec .rts (coreAt 0x9001 0 0 0 0xFB 0 [(0x01FC, [0xFF, 0xFF])]) = .fault (.raised c t) ∧ t.sp = 0xFD) ∧
    wordOf 0xFF 0xFF = 0xFFFF := ⟨⟨⟨_, rfl, rfl⟩, by decide⟩, ⟨_, _, rfl, rfl⟩, rfl⟩

/-- The state the call leaves, and one that has changed A and PC since. -/
theorem witness_RtsAfterJsr :
    1 ≤ inxCore.pc.toNat ∧ ∃ t, exec (.jsr 0x9000) inxCore = .next t ∧ (setPC 0x9001 (setA 0x55 t)).sp = t.sp ∧
      (setPC 0x9001 (setA 0x55 t)).mem = t.mem := ⟨by decide, _, rfl, rfl, rfl⟩

/-- A table with a pair outside the matrix, which reads bytes and latches. -/
theorem witness_ForeignPair :
    inxCore.halt = none ∧ busRead inxCore.pc inxCore.mem = .ok 0xE8 ∧ populatedPair .sta .immediate = false ∧
    ∃ t, decodeLatch (fun _ => ⟨.sta, .immediate⟩) inxCore = .ok t := ⟨rfl, rfl, rfl, _, rfl⟩

theorem witness_AnyTable :
    optable 0xA9 = ⟨.lda, .immediate⟩ ∧ optable 0x4C = ⟨.jmp, .absolute⟩ ∧
    (∃ m, Answers .reference 0xFFFD [0xA9, 0x07] (fetchCore 0xFFFD [0xA9, 0x07]).mem m ∧ 0xFFFD + 2 ≤ 0xFFFF) ∧
    (∃ m, Answers .reference 0xFFFC [0x4C, 0x00, 0x80] jmpCore.mem m ∧ 0xFFFC + 3 ≤ 0xFFFF) :=
  ⟨rfl, rfl, ⟨_, ⟨_, rfl, _, rfl, rfl⟩, by decide⟩, ⟨_, ⟨_, rfl, _, rfl, _, rfl, rfl⟩, by decide⟩⟩

/-- `JMP $FFFC` at 0xFFFC. -/
theorem witness_EndedRun : Ended (fetchCore 0xFFFC [0x4C, 0xFC, 0xFF]) := ⟨rfl, rfl, by decide, rfl, rfl, rfl⟩

/-- 95_test_vectors.md, part 4, item 8: at 0xFFFD to 0xFFFF a JMP to itself is no end of a run, and its step faults. -/
theorem test_no_end_without_room :
    ¬ Ended (fetchCore 0xFFFD [0x4C, 0xFD, 0xFF]) ∧ ¬ Ended (fetchCore 0xFFFF [0x4C]) ∧
    (∃ c t, step (fetchCore 0xFFFD [0x4C, 0xFD, 0xFF]) = .fault (.raised c t)) ∧
    ¬ Ended (setHalt (some .unimplementedOperation) (fetchCore 0xFFFC [0x4C, 0xFC, 0xFF])) :=
  ⟨fun h => absurd h.room (by decide), fun h => absurd h.room (by decide), ⟨_, _, rfl⟩, fun h => nomatch h.running⟩

/-- Launch parameters with a PRG image of `n` bytes. -/
def launchOf (n : Nat) : Launch :=
  ⟨0xC000, 0x01, 0x02, 0x03, 0xFD, 0x34, [0x11], [0x22], [0x33], List.replicate n 0x44⟩

/-- A 16 KiB and a 32 KiB image launch; 0x5000 bytes do not (S9). -/
theorem witness_Launch :
    (launchOf 0x4000).prg.length = 0x4000 ∧ (∃ s, launchState (launchOf 0x4000) = some s) ∧
    (∃ s, launchState (launchOf 0x8000) = some s) ∧ launchState (launchOf 0x5000) = none := by
  refine ⟨List.length_replicate, ?_, ?_, ?_⟩ <;>
    simp only [launchState, prgWindow, launchOf, List.length_replicate, Nat.reduceEqDiff, if_true, if_false]
  · exact ⟨_, rfl⟩
  · exact ⟨_, rfl⟩

theorem witness_Peek16 : ∃ t, hostMove (.poke16 0x1FFF 0x1234) inxCore = .next t := ⟨_, rfl⟩

theorem witness_HostMoves :
    (∃ t, hostMove (.poke 0x8000 0xEA) inxCore = .next t) ∧ (∃ t, hostMove .step inxCore = .next t) ∧
    (∃ t, hostMove (.reset (launchOf 0x4000)) inxCore = .next t) := by
  refine ⟨⟨_, rfl⟩, ⟨_, rfl⟩, ?_⟩
  obtain ⟨s, hs⟩ := witness_Launch.2.1
  exact ⟨s, by simp only [hostMove, hs]⟩

/-! ## Other memory environments -/

/-- The reference environment but for one stack cell, 0x01FC, which answers a fault of its own (60_exceptions.md R170,
last paragraph). -/
def faultyStack : Environment where
  read addr m := if addr = 0x01FC then .error (.otherBusFault 7 addr) else Environment.reference.read addr m
  write addr v m := if addr = 0x01FC then .error (.otherBusFault 7 addr) else busWrite addr v m

/-- An environment that answers INX to every read, lists one more byte at each, and faults on every write. -/
def countingRom : Environment where
  read _ m := .ok (0xE8, (m.length, 0x01) :: m)
  write addr _ _ := .error (.otherBusFault 0 addr)

/-- At 0xFFFE, the highest place of a one-byte instruction: one fetch, with its side effect. -/
theorem witness_StepInAnyEnvironment :
    (setPC 0xFFFE State.reset).halt = none ∧ Instr.inx.wf = true ∧ (∀ b, Instr.inx ≠ .unimplemented b) ∧
    decode [0xE8] = .ok (.inx, []) ∧ (∃ m, Answers countingRom 0xFFFE [0xE8] State.reset.mem m) ∧ 0xFFFE + 1 ≤ 0xFFFF ∧
    ∃ t, stepWith optable (setPC 0xFFFE State.reset) countingRom = .next t ∧ t.x = 0x01 ∧ t.mem.length = 1 :=
  ⟨rfl, rfl, nofun, rfl, ⟨_, _, rfl, rfl⟩, by decide, _, rfl, rfl, rfl⟩

/-- A read and a write that complete, and one that faults, in the environment with the faulty cell; a read that completes
before a write that faults; and the pointer reads of JMP indirect. -/
theorem witness_DataAccesses :
    (∃ p, faultyStack.read 0x01FB inxCore.mem = .ok p) ∧ (∃ c, faultyStack.read 0x01FC inxCore.mem = .error c) ∧
    (∃ m, faultyStack.write 0x01FD 0x55 inxCore.mem = .ok m) ∧
    (∃ c, faultyStack.write 0x01FC 0x55 inxCore.mem = .error c) ∧
    (∃ m c, countingRom.read 0x00FF inxCore.mem = .ok (0xE8, m) ∧
      (0xE9 : Byte).toNat = ((0xE8 : Byte).toNat + 1) % 256 ∧ countingRom.write 0x00FF 0xE9 m = .error c) ∧
    (∃ lo m p, countingRom.read 0xFFFE inxCore.mem = .ok (lo, m) ∧ countingRom.read (0xFFFE + 1) m = .ok p) ∧
    (∃ lo m c, faultyStack.read 0x01FB inxCore.mem = .ok (lo, m) ∧ faultyStack.read (0x01FB + 1) m = .error c) :=
  ⟨⟨_, rfl⟩, ⟨_, rfl⟩, ⟨_, rfl⟩, ⟨_, rfl⟩, ⟨_, _, rfl, rfl, rfl⟩, ⟨_, _, _, rfl, rfl⟩, _, _, _, rfl, rfl⟩

/-- The step raises the stack fault with this SP and this byte at 0x01FD, in the environment with the faulty cell. -/
def stackFaults (s : State) (sp at01FD : Byte) : Bool :=
  match stepWith optable s faultyStack with
  | .fault (.raised d t) =>
    decide (d = .otherBusFault 7 0x01FC) && decide (t.halt = some d) && decide (t.sp = sp) &&
      decide (cellGet t.mem 0x01FD = at01FD)
  | _ => false

/-- 60_exceptions.md R172: JSR's second and its first push, PHA's only push, an RTS's first and its second read fault. -/
theorem witness_StackAccesses :
    stackFaults (fetchCore 0x8000 [0x20, 0x00, 0x90]) 0xFC 0x80 = true ∧
    stackFaults (setSP 0xFC (fetchCore 0x8000 [0x20, 0x00, 0x90])) 0xFC 0x00 = true ∧
    stackFaults (setSP 0xFC (fetchCore 0x8000 [0x48])) 0xFC 0x00 = true ∧
    stackFaults (setSP 0xFB (fetchCore 0x8000 [0x60])) 0xFC 0x00 = true ∧
    stackFaults (setSP 0xFA (fetchCore 0x8000 [0x60])) 0xFC 0x00 = true := by decide

/-- Each clause that completes: PHA, JSR at PC 1, RTS. -/
theorem witness_StackAccessesComplete :
    1 ≤ (setPC 0x0001 inxCore).pc.toNat ∧
    (∃ t, execIn .pha (setPC 0x0001 inxCore) faultyStack = .next t) ∧
    (∃ t, execIn (.jsr 0x9000) (setSP 0xFF (setPC 0x0001 inxCore)) faultyStack = .next t) ∧
    (∃ t, execIn .rts (setSP 0xFC (setPC 0x0001 inxCore)) faultyStack = .next t) :=
  ⟨by decide, ⟨_, rfl⟩, ⟨_, rfl⟩, ⟨_, rfl⟩⟩

/-- A table, an environment and a state for each outcome of a step. -/
theorem witness_StepIsTotal :
    (setPC 0xFFFE State.reset).halt = none ∧ (∃ t, stepWith optable (setPC 0xFFFE State.reset) countingRom = .next t) ∧
    (∃ c t, stepWith optable (setPC 0xFFFF State.reset) countingRom = .fault (.raised c t)) ∧
    Environment.reference.ReadsArePure := by
  refine ⟨rfl, ⟨_, rfl⟩, ⟨_, _, rfl⟩, fun addr m v m' h => ?_⟩
  cases hb : busRead addr m <;> simp_all [Environment.reference, Except.map]

/-- 20_memory.md R63: the low byte of a host `poke16` lies at the address, the high byte one above. -/
theorem test_poke16_low_byte_first :
    ∃ t, hostMove (.poke16 0x0010 0x1234) inxCore = .next t ∧ busRead 0x0010 t.mem = .ok 0x34 ∧
      busRead 0x0011 t.mem = .ok 0x12 := ⟨_, rfl, rfl, rfl⟩

/-- 60_exceptions.md R174, R185: a host read that completes changes nothing, one that faults halts the core (log 16). -/
theorem test_host_peek :
    hostMove (.peek 0x8000) inxCore = .next inxCore ∧
    (∃ c t, hostMove (.peek 0x4020) inxCore = .fault (.raised c t) ∧ t.halt = some (.invalidAddress 0x4020)) :=
  ⟨rfl, _, _, rfl, rfl⟩

end Sys2Proof.Tests
end

section
/-! PROOFS. The family 00_scope.md: a step runs the instruction at PC, in any memory environment (O56) and so in the
reference one (O8). -/

namespace Sys2Proof.Machine

/-! ## Answers of an environment, and the fetches they complete -/

/-- In the reference environment the answers are the bytes behind the bus, and no cell changes (20_memory.md R46). -/
theorem answers_reference {addr : Addr} {bytes : List Byte} {m : Memory}
    (h : ∀ (k : Nat) (hk : k < bytes.length), busRead (addr + BitVec.ofNat 16 k) m = .ok bytes[k]) :
    Answers .reference addr bytes m m := by
  induction bytes generalizing addr with
  | nil => rfl
  | cons b rest ih =>
    have hfirst : busRead addr m = .ok b := BitVec.add_zero addr ▸ h 0 (Nat.zero_lt_succ _)
    refine ⟨m, reference_read_ok.mpr ⟨hfirst, rfl⟩, ih fun k hk => ?_⟩
    have hshift : addr + BitVec.ofNat 16 (k + 1) = addr + 1 + BitVec.ofNat 16 k := by
      rw [Nat.add_comm, BitVec.ofNat_add, ← BitVec.add_assoc]
      rfl
    exact hshift ▸ h (k + 1) (Nat.succ_lt_succ hk)

/-- The byte `n` after the opcode is read where `WordAdd` is exact (40_fetch_decode_operands.md R90, R93). -/
theorem fetchAfter_of_read {env : Environment} {pc0 : Addr} {n : Nat} {s : State} {v : Byte} {m : Memory}
    (hn : pc0.toNat + n ≤ 0xFFFF) (h : env.read (pc0 + BitVec.ofNat 16 n) s.mem = .ok (v, m)) :
    fetchAfter pc0 n s env = .ok (v, setMem m s) :=
  fetchAfter_env_ok.mpr ⟨_, wordAdd_ok.mp (wordAdd_nat (s := s) hn), memRead_env_ok.mpr ⟨m, h, rfl⟩⟩

theorem fetchByteOperand_of_answers {env : Environment} {pc0 : Addr} {b1 : Byte} {s : State} {m : Memory}
    (hroom : pc0.toNat + 1 ≤ 0xFFFF) (h : Answers env (pc0 + 1) [b1] s.mem m) :
    fetchByteOperand pc0 s env = .ok (.byte b1, setMem m s) := by
  obtain ⟨m1, h1, rfl⟩ := h
  have hf : fetchAfter pc0 1 s env = _ := fetchAfter_of_read hroom h1
  simp only [fetchByteOperand, hf]

theorem fetchWordOperand_of_answers {env : Environment} {pc0 : Addr} {b1 b2 : Byte} {s : State} {m : Memory}
    (hroom : pc0.toNat + 2 ≤ 0xFFFF) (h : Answers env (pc0 + 1) [b1, b2] s.mem m) :
    fetchWordOperand pc0 s env = .ok (.word (wordOf b2 b1), setMem m s) := by
  obtain ⟨m1, h1, m2, h2, rfl⟩ := h
  have hf1 : fetchAfter pc0 1 s env = _ := fetchAfter_of_read (Nat.le_of_succ_le hroom) h1
  rw [BitVec.add_assoc] at h2
  have hf2 : fetchAfter pc0 2 (setMem m1 s) env = _ := fetchAfter_of_read hroom h2
  simp only [fetchWordOperand, hf1, hf2]
  rfl

/-- The operand fetches read the operand that `takeOperand` takes from the answered bytes (30_encoding.md R72, R73). -/
theorem fetchOperand_of_answers {env : Environment} {mode : Mode} {pc0 : Addr} {bytes : List Byte} {operand : Operand}
    {s : State} {m : Memory} (ho : takeOperand mode bytes = some (operand, []))
    (hroom : pc0.toNat + bytes.length ≤ 0xFFFF) (h : Answers env (pc0 + 1) bytes s.mem m) :
    fetchOperand mode pc0 s env = .ok (operand, setMem m s) := by
  cases mode with
  | implied | accumulator =>
    cases ho
    cases h
    rfl
  | immediate | zeropage | relative =>
    match bytes, ho with
    | [_], rfl => exact fetchByteOperand_of_answers hroom h
  | absolute | indirect =>
    match bytes, ho with
    | [_, _], rfl => exact fetchWordOperand_of_answers hroom h

/-! ## The step -/

/-- Under every table and in every environment a step runs the instruction its answers decode to, with PC past its bytes
(00_scope.md R11, 40_fetch_decode_operands.md R93, R94). -/
theorem stepWith_of_answers {table : Byte → OpCode} {env : Environment} {s : State} {i : Instr} {bytes : List Byte}
    {m : Memory} (hh : s.halt = none) (hi : ∀ b, i ≠ .unimplemented b) (hd : decodeWith table bytes = .ok (i, []))
    (ha : Answers env s.pc bytes s.mem m) (hroom : s.pc.toNat + bytes.length ≤ 0xFFFF) :
    stepWith table s env =
      execIn i (setIR none (setPC (s.pc + BitVec.ofNat 16 bytes.length) (setMem m s))) env := by
  cases bytes with
  | nil => cases hd
  | cons b0 rest =>
    obtain ⟨m1, hread, hrest⟩ := ha
    have hu : (table b0).op ≠ .unimplemented := fun hu => by
      cases (decodeWith_unimplemented hu rest).symm.trans hd
      exact hi b0 rfl
    obtain ⟨operand, ho, hinstr⟩ := (decodeWith_ok hu).mp hd
    have hlen : (b0 :: rest).length = modeLength (table b0).mode := by simpa using takeOperand_length ho
    have hfetch : fetchOperand (table b0).mode s.pc (setMem m1 s) env = .ok (operand, setMem m s) :=
      fetchOperand_of_answers ho (Nat.le_of_succ_le hroom) hrest
    have hpc : ((s.pc + BitVec.ofNat 16 (b0 :: rest).length).toNat : Int) =
        s.pc.toNat + modeLength (table b0).mode := by
      rw [← hlen]
      exact wordAdd_ok.mp (wordAdd_nat (s := s) hroom)
    rw [stepWith_env_of_fetch hh (memRead_env_ok.mpr ⟨m1, hread, rfl⟩) hu hfetch hpc,
      executeIr_of_instr hu hinstr]

/-- Settles O56: the decode phase reads exactly the answered bytes; `execIn` at the reference environment is `exec`. -/
theorem stepExecutesInAnyEnvironment : Obligations.StepExecutesInAnyEnvironment :=
  ⟨fun _ _ _ _ _ hh _ hi hd ha hroom => stepWith_of_answers hh hi hd ha hroom, execIn_reference⟩

/-- Settles O8: the statement about every environment, at the reference environment, whose reads change no cell. -/
theorem stepExecutesTheDecodedInstruction : Obligations.StepExecutesTheDecodedInstruction := by
  intro s i bytes hh _ hi hd hread hroom
  have hstep := stepWith_of_answers hh hi hd (answers_reference hread) hroom
  rwa [execIn_reference] at hstep

end Sys2Proof.Machine
end

section
/-! PROOFS. The family 10_state.md: HALT and reset (O12, O17, O18), the host's moves (O55), which registers and bits
of S an instruction writes (O20, O21), and the flags that nothing reads (O19). -/

namespace Sys2Proof.Machine

/-! ## HALT and reset -/

/-- Settles O12: the phases and the step look at HALT before anything else (60_exceptions.md R171). -/
theorem haltedCoreHasNoStep : Obligations.HaltedCoreHasNoStep := by
  intro s c hhalt
  refine ⟨stepWith_halted hhalt, ?_, ?_⟩
  · simp only [hostMove, decodePhaseWith, hhalt]
  · simp only [hostMove, executePhase, hhalt]

/-- Settles O17: no cell is listed after reset, nothing is latched and HALT is none (10_state.md R35). -/
theorem resetMeetsTheInvariant : Obligations.ResetMeetsTheInvariant := ⟨wf_reset, rfl, rfl⟩

/-- Settles O18: memory lists no cell after reset, so every cell holds the unlisted byte. -/
theorem resetLeavesTheModelsValues : Obligations.ResetLeavesTheModelsValues :=
  ⟨rfl, rfl, rfl, rfl, rfl, rfl, rfl, rfl, fun _ _ hcell => busRead_of_cell hcell _⟩

/-! ## The invariant between steps, and the host -/

/-- A step that goes on latches nothing and halts nothing. -/
theorem inv_of_stepWith {table : Byte → OpCode} {s t : State} (hs : Inv s) (h : stepWith table s = .next t) :
    Inv t := by
  obtain ⟨_, instr, pc', hexec⟩ := stepWith_next h
  obtain ⟨hir, hhalt, hmem⟩ := executeIr_keeps hexec
  exact ⟨hmem hs.memory, hir, hhalt.trans hs.running⟩

theorem inv_of_launchState {l : Launch} {t : State} (h : launchState l = some t) : Inv t := by
  unfold launchState at h
  split at h
  · cases h
  · next hw =>
    cases h
    exact ⟨wf_launchMemory (prgWindow_length hw) _ _ _, rfl, rfl⟩

theorem inv_of_memWrite {addr : Addr} {v : Byte} {s t : State} (hs : Inv s) (h : memWrite addr v s = .ok t) :
    Inv t := by
  obtain ⟨k, hk, rfl⟩ := memWrite_ok.mp h
  exact ⟨wf_cellSet hs.memory (isCellKey_of_busCell hk) v, hs.noLatch, hs.running⟩

/-- A `poke16` that completes is two writes (20_memory.md R63). -/
theorem hostPoke16_ok {addr w : Addr} {s t : State} :
    hostPoke16 addr w s = .ok t ↔
      ∃ u next, memWrite addr (lowByte w) s = .ok u ∧ wordAdd addr 1 u = .ok next ∧
        memWrite next (highByte w) u = .ok t := by
  cases hu : memWrite addr (lowByte w) s with
  | error f => simp [hostPoke16, hu]
  | ok u => cases hn : wordAdd addr 1 u <;> simp [hostPoke16, hu, hn]

theorem hostMove_reset {l : Launch} {s t : State} : hostMove (.reset l) s = .next t ↔ launchState l = some t := by
  cases h : launchState l <;> simp [hostMove, h]

/-- A host read answers its byte or Word and the state after it; the move keeps the state. -/
theorem map_snd_eq_ok {α : Type} {r : Except Fault (α × State)} {t : State} :
    r.map Prod.snd = .ok t ↔ ∃ v, r = .ok (v, t) := by
  cases r <;> simp [Except.map, Prod.ext_iff]

/-- Nothing is latched between steps, so the host's execute is no move there; its decode latches (10_state.md R33). -/
theorem inv_of_hostMove {m : HostMove} {s t : State} (hs : Inv s) (hm : m ≠ .decode) (h : hostMove m s = .next t) :
    Inv t := by
  cases m with
  | writeA | writeX | writeY | writeSP | writeS | writePC =>
    cases h
    exact ⟨hs.memory, hs.noLatch, hs.running⟩
  | peek =>
    obtain ⟨_, hr⟩ := map_snd_eq_ok.mp (outcome_next.mp h)
    obtain ⟨_, rfl⟩ := memRead_ok.mp hr
    exact hs
  | peek16 =>
    obtain ⟨_, hr⟩ := map_snd_eq_ok.mp (outcome_next.mp h)
    obtain rfl := (indirectTarget_reads hr).reference
    exact hs
  | poke => exact inv_of_memWrite hs (outcome_next.mp h)
  | poke16 =>
    obtain ⟨u, next, hlow, _, hhigh⟩ := hostPoke16_ok.mp (outcome_next.mp h)
    exact inv_of_memWrite (inv_of_memWrite hs hlow) hhigh
  | decode => exact absurd rfl hm
  | execute =>
    simp only [hostMove, executePhase, hs.running, hs.noLatch] at h
    cases h
  | step => exact inv_of_stepWith hs h
  | reset => exact inv_of_launchState (hostMove_reset.mp h)

/-- Settles O55: a move writes memory through the bus only, and a reset builds its state anew. -/
theorem hostMovesKeepTheInvariant : Obligations.HostMovesKeepTheInvariant :=
  ⟨fun _ _ _ => ⟨rfl, rfl, rfl, rfl, rfl, rfl⟩, fun _ _ _ hs hm h => inv_of_hostMove hs hm h,
    fun _ _ _ h => inv_of_launchState (hostMove_reset.mp h)⟩

/-! ## Who writes what -/

/-- The states an instruction can go on to: which registers, bits of S and cells it writes, and from what
(41_control_transfer.md to 47_flag_transfer.md); what the operand or the bus answers is left open. -/
def GoesOnTo (i : Instr) (s t : State) : Prop :=
  match i with
  | .aslAcc => t = setNZ (s.a <<< 1) (setA (s.a <<< 1) (setC (carryOfLeftShift s.a) s))
  | .lsrAcc => t = setNZ (s.a >>> 1) (setA (s.a >>> 1) (setC (carryOfRightShift s.a) s))
  | .andImm _ | .andZp _ | .andAbs _ => ∃ v, t = setNZ (s.a &&& v) (setA (s.a &&& v) s)
  | .ldaImm _ | .ldaZp _ | .ldaAbs _ => ∃ v, t = setA v (setNZ v s)
  | .ldxImm _ | .ldxZp _ | .ldxAbs _ => ∃ v, t = setX v (setNZ v s)
  | .ldyImm _ | .ldyZp _ | .ldyAbs _ => ∃ v, t = setY v (setNZ v s)
  | .staZp _ | .staAbs _ => ∃ k, t = setMem (cellSet s.mem k s.a) s
  | .stxZp _ | .stxAbs _ => ∃ k, t = setMem (cellSet s.mem k s.x) s
  | .styZp _ | .styAbs _ => ∃ k, t = setMem (cellSet s.mem k s.y) s
  | .cmpImm _ | .cmpZp _ | .cmpAbs _ => ∃ v, t = setC (carryOfCompare s.a v) (setNZ (s.a - v) s)
  | .cpxImm _ | .cpxZp _ | .cpxAbs _ => ∃ v, t = setC (carryOfCompare s.x v) (setNZ (s.x - v) s)
  | .cpyImm _ | .cpyZp _ | .cpyAbs _ => ∃ v, t = setC (carryOfCompare s.y v) (setNZ (s.y - v) s)
  | .incZp _ | .incAbs _ =>
    ∃ k, t = setNZ (increment (cellGet s.mem k)) (setMem (cellSet s.mem k (increment (cellGet s.mem k))) s)
  | .decZp _ | .decAbs _ =>
    ∃ k, t = setNZ (decrement (cellGet s.mem k)) (setMem (cellSet s.mem k (decrement (cellGet s.mem k))) s)
  | .inx => t = setNZ (increment s.x) (setX (increment s.x) s)
  | .dex => t = setNZ (decrement s.x) (setX (decrement s.x) s)
  | .iny => t = setNZ (increment s.y) (setY (increment s.y) s)
  | .dey => t = setNZ (decrement s.y) (setY (decrement s.y) s)
  | .bcc _ | .bcs _ | .beq _ | .bne _ | .bpl _ | .jmpAbs _ | .jmpInd _ => ∃ w, t = setPC w s
  | .jsr w => ∃ m, t = setPC w (setSP (s.sp - 1 - 1) (setMem m s))
  | .rts => ∃ w, t = setPC w (setSP (s.sp + 1 + 1) s)
  | .pha => ∃ k, t = setSP (s.sp - 1) (setMem (cellSet s.mem k s.a) s)
  | .cld => t = setD false s
  | .sei => t = setI true s
  | .tax => t = setNZ s.a (setX s.a s)
  | .txs => t = setSP s.x s
  | .unimplemented _ => False

theorem storeFrom_goesOn {v : Byte} {instr : Ir} {s t : State} (h : storeFrom v instr s = .ok t) :
    ∃ k, t = setMem (cellSet s.mem k v) s := by
  obtain ⟨addr, u, hu, hw⟩ := storeFrom_ok.mp h
  obtain rfl := (address_reads hu).reference
  obtain ⟨k, _, rfl⟩ := memWrite_ok.mp hw
  exact ⟨k, rfl⟩

theorem modifyMemory_goesOn {f : Byte → Byte} {instr : Ir} {s t : State} (h : modifyMemory f instr s = .ok t) :
    ∃ k, t = setNZ (f (cellGet s.mem k)) (setMem (cellSet s.mem k (f (cellGet s.mem k))) s) := by
  obtain ⟨_, k, _, _, rfl⟩ := modifyMemory_ok.mp h
  exact ⟨k, rfl⟩

theorem jump_goesOn {instr : Ir} {s t : State} (h : jump instr s = .ok t) : ∃ w, t = setPC w s := by
  obtain ⟨w, u, hu, rfl⟩ := jump_ok.mp h
  obtain rfl := (address_reads hu).reference
  exact ⟨w, rfl⟩

/-- A branch that is not taken leaves PC as it is (41_control_transfer.md R110). -/
theorem branch_goesOn {cond : Bool} {instr : Ir} {s t : State} (h : branch cond instr s = .ok t) :
    ∃ w, t = setPC w s := by
  cases cond with
  | false => exact ⟨s.pc, (Except.ok.inj h).symm⟩
  | true => exact jump_goesOn h

/-- Everything an execute phase that goes on has done. -/
theorem exec_goesOn {i : Instr} {s t : State} (h : exec i s = .next t) : GoesOnTo i s t := by
  cases i with
  | aslAcc | lsrAcc | inx | dex | iny | dey | cld | sei | tax | txs =>
    cases h
    rfl
  | andImm | andZp | andAbs =>
    simp only [exec, execAndImm, execAndZp, execAndAbs] at h
    obtain ⟨v, u, hu, rfl⟩ := andA_ok.mp (outcome_next.mp h)
    obtain rfl := (value_reads hu).reference
    exact ⟨v, rfl⟩
  | ldaImm | ldaZp | ldaAbs | ldxImm | ldxZp | ldxAbs | ldyImm | ldyZp | ldyAbs =>
    simp only [exec, execLdaImm, execLdaZp, execLdaAbs, execLdxImm, execLdxZp, execLdxAbs, execLdyImm, execLdyZp,
      execLdyAbs] at h
    obtain ⟨v, u, hu, rfl⟩ := loadInto_ok.mp (outcome_next.mp h)
    obtain rfl := (value_reads hu).reference
    exact ⟨v, rfl⟩
  | staZp | staAbs | stxZp | stxAbs | styZp | styAbs => exact storeFrom_goesOn (outcome_next.mp h)
  | cmpImm | cmpZp | cmpAbs | cpxImm | cpxZp | cpxAbs | cpyImm | cpyZp | cpyAbs =>
    simp only [exec, execCmpImm, execCmpZp, execCmpAbs, execCpxImm, execCpxZp, execCpxAbs, execCpyImm, execCpyZp,
      execCpyAbs] at h
    obtain ⟨v, u, hu, rfl⟩ := compareWith_ok.mp (outcome_next.mp h)
    obtain rfl := (value_reads hu).reference
    exact ⟨v, rfl⟩
  | incZp | incAbs | decZp | decAbs => exact modifyMemory_goesOn (outcome_next.mp h)
  | bcc | bcs | beq | bne | bpl => exact branch_goesOn (outcome_next.mp h)
  | jmpAbs | jmpInd =>
    simp only [exec, execJmpAbs, execJmpInd] at h
    exact jump_goesOn (outcome_next.mp h)
  | jsr w =>
    obtain ⟨_, _, ht, _, rfl⟩ := callSubroutine_ok.mp (outcome_next.mp h)
    cases ht
    exact ⟨_, rfl⟩
  | rts =>
    obtain ⟨w, _, rfl⟩ := returnFromSubroutine_ok.mp (outcome_next.mp h)
    exact ⟨w, rfl⟩
  | pha =>
    obtain rfl := Except.ok.inj ((push_eq s.a s).symm.trans (outcome_next.mp h))
    exact ⟨_, rfl⟩
  | unimplemented => cases h

/-- Settles O20, by what each instruction goes on to. The tuples stand in the statement's order (A, X, Y, SP, PC,
memory, latches), with `nofun` where the instruction is a listed writer. -/
theorem registersAreWrittenOnlyByTheirWriters : Obligations.RegistersAreWrittenOnlyByTheirWriters := by
  intro i s t h
  have hgoes := exec_goesOn h
  cases i with
  | aslAcc | lsrAcc =>
    obtain rfl := hgoes
    exact ⟨nofun, by simp [SameMemory, SameLatches]⟩
  | andImm | andZp | andAbs | ldaImm | ldaZp | ldaAbs =>
    obtain ⟨_, rfl⟩ := hgoes
    exact ⟨nofun, by simp [SameMemory, SameLatches]⟩
  | inx | dex | tax =>
    obtain rfl := hgoes
    exact ⟨by simp, nofun, by simp [SameMemory, SameLatches]⟩
  | ldxImm | ldxZp | ldxAbs =>
    obtain ⟨_, rfl⟩ := hgoes
    exact ⟨by simp, nofun, by simp [SameMemory, SameLatches]⟩
  | iny | dey =>
    obtain rfl := hgoes
    exact ⟨by simp, by simp, nofun, by simp [SameMemory, SameLatches]⟩
  | ldyImm | ldyZp | ldyAbs =>
    obtain ⟨_, rfl⟩ := hgoes
    exact ⟨by simp, by simp, nofun, by simp [SameMemory, SameLatches]⟩
  | staZp | staAbs | stxZp | stxAbs | styZp | styAbs | incZp | incAbs | decZp | decAbs =>
    obtain ⟨_, rfl⟩ := hgoes
    exact ⟨by simp, by simp, by simp, by simp, by simp, nofun, by simp [SameLatches]⟩
  | cld | sei =>
    obtain rfl := hgoes
    simp [SameMemory, SameLatches]
  | cmpImm | cmpZp | cmpAbs | cpxImm | cpxZp | cpxAbs | cpyImm | cpyZp | cpyAbs =>
    obtain ⟨_, rfl⟩ := hgoes
    simp [SameMemory, SameLatches]
  | bcc | bcs | beq | bne | bpl | jmpAbs | jmpInd =>
    obtain ⟨_, rfl⟩ := hgoes
    exact ⟨by simp, by simp, by simp, by simp, nofun, by simp [SameMemory, SameLatches]⟩
  | jsr =>
    obtain ⟨_, rfl⟩ := hgoes
    exact ⟨by simp, by simp, by simp, nofun, nofun, nofun, by simp [SameLatches]⟩
  | rts =>
    obtain ⟨_, rfl⟩ := hgoes
    exact ⟨by simp, by simp, by simp, nofun, nofun, by simp [SameMemory, SameLatches]⟩
  | pha =>
    obtain ⟨_, rfl⟩ := hgoes
    exact ⟨by simp, by simp, by simp, nofun, by simp, nofun, by simp [SameLatches]⟩
  | txs =>
    obtain rfl := hgoes
    exact ⟨by simp, by simp, by simp, nofun, by simp [SameMemory, SameLatches]⟩
  | unimplemented => exact hgoes.elim

/-- Settles O21, likewise: `nofun` stands at N and Z, then at C, where the instruction is a listed writer. -/
theorem flagsAreWrittenOnlyByTheirWriters : Obligations.FlagsAreWrittenOnlyByTheirWriters := by
  intro i s t h
  have hgoes := exec_goesOn h
  cases i with
  | aslAcc | lsrAcc =>
    obtain rfl := hgoes
    exact ⟨nofun, nofun, by simp⟩
  | cmpImm | cmpZp | cmpAbs | cpxImm | cpxZp | cpxAbs | cpyImm | cpyZp | cpyAbs =>
    obtain ⟨_, rfl⟩ := hgoes
    exact ⟨nofun, nofun, by simp⟩
  | inx | dex | iny | dey | tax =>
    obtain rfl := hgoes
    exact ⟨nofun, by simp⟩
  | andImm | andZp | andAbs | ldaImm | ldaZp | ldaAbs | ldxImm | ldxZp | ldxAbs | ldyImm | ldyZp | ldyAbs | incZp
  | incAbs | decZp | decAbs =>
    obtain ⟨_, rfl⟩ := hgoes
    exact ⟨nofun, by simp⟩
  | cld | sei | txs =>
    obtain rfl := hgoes
    simp
  | staZp | staAbs | stxZp | stxAbs | styZp | styAbs | bcc | bcs | beq | bne | bpl | jmpAbs | jmpInd | jsr | rts
  | pha =>
    obtain ⟨_, rfl⟩ := hgoes
    simp
  | unimplemented => exact hgoes.elim

/-! ## The unread flags: V, U, B, D and I reach no other part of the state -/

section
variable {s t : State} (h : AgreeButUnread s t)
include h

/-! ### The same write to two states that agree leaves states that agree -/

theorem agree_setA (v : Byte) : AgreeButUnread (setA v s) (setA v t) := by simp_all [AgreeButUnread]
theorem agree_setX (v : Byte) : AgreeButUnread (setX v s) (setX v t) := by simp_all [AgreeButUnread]
theorem agree_setY (v : Byte) : AgreeButUnread (setY v s) (setY v t) := by simp_all [AgreeButUnread]
theorem agree_setSP (v : Byte) : AgreeButUnread (setSP v s) (setSP v t) := by simp_all [AgreeButUnread]
theorem agree_setPC (w : Addr) : AgreeButUnread (setPC w s) (setPC w t) := by simp_all [AgreeButUnread]
theorem agree_setIR (i : Option Ir) : AgreeButUnread (setIR i s) (setIR i t) := by simp_all [AgreeButUnread]
theorem agree_setHalt (c : Option FaultCause) : AgreeButUnread (setHalt c s) (setHalt c t) := by
  simp_all [AgreeButUnread]
theorem agree_setMem (m : Memory) : AgreeButUnread (setMem m s) (setMem m t) := by simp_all [AgreeButUnread]
theorem agree_setNZ (v : Byte) : AgreeButUnread (setNZ v s) (setNZ v t) := by simp_all [AgreeButUnread]
theorem agree_setC (b : Bool) : AgreeButUnread (setC b s) (setC b t) := by simp_all [AgreeButUnread]
theorem agree_setD (b : Bool) : AgreeButUnread (setD b s) (setD b t) := by simp_all [AgreeButUnread]
theorem agree_setI (b : Bool) : AgreeButUnread (setI b s) (setI b t) := by simp_all [AgreeButUnread]

end

/-! ### The shared operations answer alike -/

/-- Two results of one operation, from `s` and from `t`: the same cause raised with nothing else done, or the same
answer, which `pair` puts with the state or writes into it. -/
def AnswersAlike {α β : Type} (s t : State) (pair : α → State → β) (r r' : Except Fault β) : Prop :=
  (∃ c, r = .error (.raised c (setHalt (some c) s)) ∧ r' = .error (.raised c (setHalt (some c) t))) ∨
  ∃ v, r = .ok (pair v s) ∧ r' = .ok (pair v t)

theorem answersAlike_raised {α β : Type} (s t : State) (pair : α → State → β) (c : FaultCause) :
    AnswersAlike s t pair (.error (.raised c (setHalt (some c) s))) (.error (.raised c (setHalt (some c) t))) :=
  .inl ⟨c, rfl, rfl⟩

theorem answersAlike_ok {α β : Type} (s t : State) (pair : α → State → β) (v : α) :
    AnswersAlike s t pair (.ok (pair v s)) (.ok (pair v t)) := .inr ⟨v, rfl, rfl⟩

/-- WordAdd reads nothing of the state (40_fetch_decode_operands.md R90). -/
theorem wordAdd_alike (w : Addr) (k : Int) (s t : State) :
    AnswersAlike s t (fun r _ => r) (wordAdd w k s) (wordAdd w k t) := by
  simp only [wordAdd]
  split
  · exact answersAlike_raised ..
  · exact answersAlike_ok s t (fun r _ => r) _

section
variable {s t : State} (h : AgreeButUnread s t)
include h

theorem memRead_alike (addr : Addr) : AnswersAlike s t Prod.mk (memRead addr s) (memRead addr t) := by
  have ⟨_, _, _, _, _, _, _, hmem, _⟩ := h
  cases hb : busRead addr s.mem with
  | error c => exact .inl ⟨c, memRead_error.mpr ⟨c, hb, rfl⟩, memRead_error.mpr ⟨c, hmem ▸ hb, rfl⟩⟩
  | ok v => exact .inr ⟨v, memRead_ok.mpr ⟨hb, rfl⟩, memRead_ok.mpr ⟨hmem ▸ hb, rfl⟩⟩

/-! #### The resolvers (40_fetch_decode_operands.md R96 to R100) -/

theorem indirectTarget_alike (ptr : Addr) :
    AnswersAlike s t Prod.mk (indirectTarget ptr s) (indirectTarget ptr t) := by
  unfold indirectTarget
  obtain ⟨c, hs, ht⟩ | ⟨lo, hs, ht⟩ := memRead_alike h ptr <;> simp only [hs, ht]
  · exact answersAlike_raised ..
  obtain ⟨c, hs, ht⟩ | ⟨next, hs, ht⟩ := wordAdd_alike ptr 1 s t <;> simp only [hs, ht]
  · exact answersAlike_raised ..
  obtain ⟨c, hs, ht⟩ | ⟨hi, hs, ht⟩ := memRead_alike h next <;> simp only [hs, ht]
  · exact answersAlike_raised ..
  · exact answersAlike_ok ..

theorem value_alike (instr : Ir) : AnswersAlike s t Prod.mk (value instr s) (value instr t) := by
  have ⟨ha, _⟩ := h
  unfold value
  split
  · rw [ha]
    exact answersAlike_ok ..
  · exact answersAlike_ok ..
  · exact memRead_alike h _
  · exact memRead_alike h _
  · exact answersAlike_raised ..

theorem address_alike (instr : Ir) : AnswersAlike s t Prod.mk (address instr s) (address instr t) := by
  have ⟨_, _, _, _, hpc, _⟩ := h
  unfold address
  split
  · exact answersAlike_ok ..
  · exact answersAlike_ok ..
  · next b _ _ =>
    simp only [relativeTarget, hpc]
    obtain ⟨c, hs, ht⟩ | ⟨target, hs, ht⟩ := wordAdd_alike s.pc (sext16 b) s t <;> rw [hs, ht]
    · exact answersAlike_raised ..
    · exact answersAlike_ok ..
  · exact indirectTarget_alike h _
  · exact answersAlike_raised ..

/-! #### The fetches (40_fetch_decode_operands.md R91 to R95) -/

theorem fetchAfter_alike (pc0 : Addr) (k : Int) :
    AnswersAlike s t Prod.mk (fetchAfter pc0 k s) (fetchAfter pc0 k t) := by
  unfold fetchAfter
  obtain ⟨c, hs, ht⟩ | ⟨addr, hs, ht⟩ := wordAdd_alike pc0 k s t <;> simp only [hs, ht]
  · exact answersAlike_raised ..
  · exact memRead_alike h addr

theorem fetchByteOperand_alike (pc0 : Addr) :
    AnswersAlike s t Prod.mk (fetchByteOperand pc0 s) (fetchByteOperand pc0 t) := by
  unfold fetchByteOperand
  obtain ⟨c, hs, ht⟩ | ⟨b1, hs, ht⟩ := fetchAfter_alike h pc0 1 <;> simp only [hs, ht]
  · exact answersAlike_raised ..
  · exact answersAlike_ok ..

theorem fetchWordOperand_alike (pc0 : Addr) :
    AnswersAlike s t Prod.mk (fetchWordOperand pc0 s) (fetchWordOperand pc0 t) := by
  unfold fetchWordOperand
  obtain ⟨c, hs, ht⟩ | ⟨b1, hs, ht⟩ := fetchAfter_alike h pc0 1 <;> simp only [hs, ht]
  · exact answersAlike_raised ..
  obtain ⟨c, hs, ht⟩ | ⟨b2, hs, ht⟩ := fetchAfter_alike h pc0 2 <;> simp only [hs, ht]
  · exact answersAlike_raised ..
  · exact answersAlike_ok ..

theorem fetchOperand_alike (mode : Mode) (pc0 : Addr) :
    AnswersAlike s t Prod.mk (fetchOperand mode pc0 s) (fetchOperand mode pc0 t) := by
  cases mode with
  | implied | accumulator => exact answersAlike_ok ..
  | immediate | zeropage | relative => exact fetchByteOperand_alike h pc0
  | absolute | indirect => exact fetchWordOperand_alike h pc0

/-- The decode phase's two writes, of the PC and the instruction it has found (40_fetch_decode_operands.md R95). -/
theorem decodeLatch_alike (table : Byte → OpCode) :
    AnswersAlike s t (fun (latch : Ir × Addr) u => setIR (some latch.1) (setPC latch.2 u)) (decodeLatch table s)
      (decodeLatch table t) := by
  have ⟨_, _, _, _, hpc, _⟩ := h
  unfold decodeLatch
  rw [hpc]
  obtain ⟨c, hs, ht⟩ | ⟨b0, hs, ht⟩ := memRead_alike h s.pc <;> simp only [hs, ht]
  · exact answersAlike_raised ..
  split
  · exact answersAlike_raised ..
  obtain ⟨c, hs, ht⟩ | ⟨operand, hs, ht⟩ := fetchOperand_alike h (table b0).mode s.pc <;> simp only [hs, ht]
  · exact answersAlike_raised ..
  obtain ⟨c, hs, ht⟩ | ⟨pc', hs, ht⟩ := wordAdd_alike s.pc (modeLength (table b0).mode) s t <;> simp only [hs, ht]
  · exact answersAlike_raised ..
  · exact .inr ⟨(_, pc'), rfl, rfl⟩

/-! ### The meanings -/

theorem outcomesAgree_raised (c : FaultCause) :
    OutcomesAgree (outcome (.error (.raised c (setHalt (some c) s))))
      (outcome (.error (.raised c (setHalt (some c) t)))) := ⟨rfl, agree_setHalt h (some c)⟩

theorem shiftA_agree (carry : Byte → Bool) (shift : Byte → Byte) (instr : Ir) :
    OutcomesAgree (outcome (shiftA carry shift instr s)) (outcome (shiftA carry shift instr t)) := by
  unfold shiftA
  obtain ⟨c, hs, ht⟩ | ⟨v, hs, ht⟩ := value_alike h instr <;> simp only [hs, ht]
  · exact outcomesAgree_raised h c
  · exact agree_setNZ (agree_setA (agree_setC h _) _) _

theorem andA_agree (instr : Ir) : OutcomesAgree (outcome (andA instr s)) (outcome (andA instr t)) := by
  have ⟨ha, _⟩ := h
  unfold andA
  obtain ⟨c, hs, ht⟩ | ⟨v, hs, ht⟩ := value_alike h instr <;> simp only [hs, ht]
  · exact outcomesAgree_raised h c
  · rw [ha]
    exact agree_setNZ (agree_setA h _) _

theorem loadInto_agree {write : Byte → State → State}
    (hw : ∀ {s t : State}, AgreeButUnread s t → ∀ v, AgreeButUnread (write v s) (write v t)) (instr : Ir) :
    OutcomesAgree (outcome (loadInto write instr s)) (outcome (loadInto write instr t)) := by
  unfold loadInto
  obtain ⟨c, hs, ht⟩ | ⟨v, hs, ht⟩ := value_alike h instr <;> simp only [hs, ht]
  · exact outcomesAgree_raised h c
  · exact hw (agree_setNZ h v) v

theorem compareWith_agree (r : Byte) (instr : Ir) :
    OutcomesAgree (outcome (compareWith r instr s)) (outcome (compareWith r instr t)) := by
  unfold compareWith
  obtain ⟨c, hs, ht⟩ | ⟨v, hs, ht⟩ := value_alike h instr <;> simp only [hs, ht]
  · exact outcomesAgree_raised h c
  · exact agree_setC (agree_setNZ h _) _

/-- What `MemWrite` leaves of the cells (20_memory.md R42). -/
theorem memWrite_alike (addr : Addr) (v : Byte) :
    AnswersAlike s t setMem (memWrite addr v s) (memWrite addr v t) := by
  have ⟨_, _, _, _, _, _, _, hmem, _⟩ := h
  cases hc : busCell addr with
  | error c => exact .inl ⟨c, memWrite_error.mpr ⟨c, hc, rfl⟩, memWrite_error.mpr ⟨c, hc, rfl⟩⟩
  | ok k => exact .inr ⟨_, memWrite_ok.mpr ⟨k, hc, rfl⟩, memWrite_ok.mpr ⟨k, hc, hmem ▸ rfl⟩⟩

theorem storeFrom_agree (v : Byte) (instr : Ir) :
    OutcomesAgree (outcome (storeFrom v instr s)) (outcome (storeFrom v instr t)) := by
  unfold storeFrom
  obtain ⟨c, hs, ht⟩ | ⟨addr, hs, ht⟩ := address_alike h instr <;> simp only [hs, ht]
  · exact outcomesAgree_raised h c
  obtain ⟨c, hs, ht⟩ | ⟨m, hs, ht⟩ := memWrite_alike h addr v <;> rw [hs, ht]
  · exact outcomesAgree_raised h c
  · exact agree_setMem h m

theorem modifyMemory_agree (f : Byte → Byte) (instr : Ir) :
    OutcomesAgree (outcome (modifyMemory f instr s)) (outcome (modifyMemory f instr t)) := by
  unfold modifyMemory
  obtain ⟨c, hs, ht⟩ | ⟨addr, hs, ht⟩ := address_alike h instr <;> simp only [hs, ht]
  · exact outcomesAgree_raised h c
  obtain ⟨c, hs, ht⟩ | ⟨v, hs, ht⟩ := memRead_alike h addr <;> simp only [hs, ht]
  · exact outcomesAgree_raised h c
  obtain ⟨c, hs, ht⟩ | ⟨m, hs, ht⟩ := memWrite_alike h addr (f v) <;> simp only [hs, ht]
  · exact outcomesAgree_raised h c
  · exact agree_setNZ (agree_setMem h m) _

theorem jump_agree (instr : Ir) : OutcomesAgree (outcome (jump instr s)) (outcome (jump instr t)) := by
  unfold jump
  obtain ⟨c, hs, ht⟩ | ⟨target, hs, ht⟩ := address_alike h instr <;> simp only [hs, ht]
  · exact outcomesAgree_raised h c
  · exact agree_setPC h target

/-- A taken branch is a jump (41_control_transfer.md R110). -/
theorem branch_agree (cond : Bool) (instr : Ir) :
    OutcomesAgree (outcome (branch cond instr s)) (outcome (branch cond instr t)) := by
  cases cond with
  | false => exact h
  | true => exact jump_agree h instr

theorem push_agree (v : Byte) : OutcomesAgree (outcome (push v s)) (outcome (push v t)) := by
  have ⟨_, _, _, hsp, _, _, _, hmem, _⟩ := h
  rw [push_eq, push_eq, hsp, hmem]
  exact agree_setSP (agree_setMem h _) _

theorem callSubroutine_agree (instr : Ir) :
    OutcomesAgree (outcome (callSubroutine instr s)) (outcome (callSubroutine instr t)) := by
  have ⟨_, _, _, hsp, hpc, _, _, hmem, _⟩ := h
  unfold callSubroutine
  obtain ⟨c, hs, ht⟩ | ⟨target, hs, ht⟩ := address_alike h instr <;> simp only [hs, ht, hpc]
  · exact outcomesAgree_raised h c
  obtain ⟨c, hs, ht⟩ | ⟨ret, hs, ht⟩ := wordAdd_alike s.pc (-1) s t <;> simp only [hs, ht]
  · exact outcomesAgree_raised h c
  · simp only [pushWord, push_eq, setSP_sp, setSP_mem, setMem_mem, hsp, hmem]
    exact agree_setPC (agree_setSP (agree_setMem (agree_setSP (agree_setMem h _) _) _) _) target

theorem returnFromSubroutine_agree :
    OutcomesAgree (outcome (returnFromSubroutine s)) (outcome (returnFromSubroutine t)) := by
  have ⟨_, _, _, hsp, _, _, _, hmem, _⟩ := h
  simp only [returnFromSubroutine, pop_eq, setSP_sp, setSP_mem, hsp, hmem]
  have hpopped := agree_setSP (agree_setSP h (s.sp + 1)) (s.sp + 1 + 1)
  obtain ⟨c, hs, ht⟩ | ⟨target, hs, ht⟩ := wordAdd_alike (wordOf (cellGet s.mem (0x100 + (s.sp + 1 + 1).toNat))
    (cellGet s.mem (0x100 + (s.sp + 1).toNat))) 1 (setSP (s.sp + 1 + 1) (setSP (s.sp + 1) s))
    (setSP (s.sp + 1 + 1) (setSP (s.sp + 1) t)) <;> simp only [hs, ht]
  · exact outcomesAgree_raised hpopped c
  · exact agree_setPC hpopped target

/-! ### The two phases and the step -/

theorem exec_agree (i : Instr) : OutcomesAgree (exec i s) (exec i t) := by
  have ⟨ha, hx, hy, _, _, _, _, _, hN, hZ, hC⟩ := h
  cases i with
  | aslAcc | lsrAcc =>
    simp only [exec, execAslAcc, execLsrAcc]
    exact shiftA_agree h _ _ _
  | andImm | andZp | andAbs =>
    simp only [exec, execAndImm, execAndZp, execAndAbs]
    exact andA_agree h _
  | ldaImm | ldaZp | ldaAbs =>
    simp only [exec, execLdaImm, execLdaZp, execLdaAbs]
    exact loadInto_agree h agree_setA _
  | ldxImm | ldxZp | ldxAbs =>
    simp only [exec, execLdxImm, execLdxZp, execLdxAbs]
    exact loadInto_agree h agree_setX _
  | ldyImm | ldyZp | ldyAbs =>
    simp only [exec, execLdyImm, execLdyZp, execLdyAbs]
    exact loadInto_agree h agree_setY _
  | staZp | staAbs | stxZp | stxAbs | styZp | styAbs =>
    simp only [exec, execStaZp, execStaAbs, execStxZp, execStxAbs, execStyZp, execStyAbs, ha, hx, hy]
    exact storeFrom_agree h _ _
  | cmpImm | cmpZp | cmpAbs | cpxImm | cpxZp | cpxAbs | cpyImm | cpyZp | cpyAbs =>
    simp only [exec, execCmpImm, execCmpZp, execCmpAbs, execCpxImm, execCpxZp, execCpxAbs, execCpyImm, execCpyZp,
      execCpyAbs, ha, hx, hy]
    exact compareWith_agree h _ _
  | incZp | incAbs | decZp | decAbs =>
    simp only [exec, execIncZp, execIncAbs, execDecZp, execDecAbs]
    exact modifyMemory_agree h _ _
  | inx | dex =>
    simp only [exec, execInx, execDex, hx]
    exact agree_setNZ (agree_setX h _) _
  | iny | dey =>
    simp only [exec, execIny, execDey, hy]
    exact agree_setNZ (agree_setY h _) _
  | bcc | bcs | beq | bne | bpl =>
    simp only [exec, execBcc, execBcs, execBeq, execBne, execBpl, hN, hZ, hC]
    exact branch_agree h _ _
  | jmpAbs | jmpInd =>
    simp only [exec, execJmpAbs, execJmpInd]
    exact jump_agree h _
  | jsr => exact callSubroutine_agree h _
  | rts => exact returnFromSubroutine_agree h
  | pha =>
    simp only [exec, execPha, ha]
    exact push_agree h _
  | cld => exact agree_setD h _
  | sei => exact agree_setI h _
  | tax =>
    simp only [exec, execTax, ha]
    exact agree_setNZ (agree_setX h _) _
  | txs =>
    simp only [exec, execTxs, hx]
    exact agree_setSP h _
  | unimplemented => exact outcomesAgree_raised h _

theorem executeIr_agree (instr : Ir) : OutcomesAgree (executeIr instr s) (executeIr instr t) := by
  simp only [executeIr, execIn_reference]
  split
  · exact outcomesAgree_raised h _
  · split
    · exact exec_agree h _
    · exact outcomesAgree_raised h _

theorem stepWith_agree (table : Byte → OpCode) : OutcomesAgree (stepWith table s) (stepWith table t) := by
  have ⟨_, _, _, _, _, _, hhalt, _⟩ := h
  cases hs : s.halt with
  | some c =>
    rw [stepWith_halted hs, stepWith_halted (hhalt.trans hs)]
    exact rfl
  | none =>
    have ht : t.halt = none := hhalt.trans hs
    obtain ⟨c, hds, hdt⟩ | ⟨⟨instr, pc'⟩, hds, hdt⟩ := decodeLatch_alike h table
    · rw [stepWith_running hs, stepWith_running ht, hds, hdt]
      exact outcomesAgree_raised h c
    · rw [stepWith_of_latch hs (.refl _ _) hds, stepWith_of_latch ht (.refl _ _) hdt]
      exact executeIr_agree (agree_setIR (agree_setPC h pc') none) instr

end

/-- Settles O19: both phases read the state only in what the two states agree in. -/
theorem unreadFlagsDoNotInterfere : Obligations.UnreadFlagsDoNotInterfere := fun _ _ h => stepWith_agree h optable

end Sys2Proof.Machine
end

section
/-! PROOFS. The family 20_memory.md: the invariant (O16), the bus (O24, O25), writes and what later reads and fetches
see (O26, O27), the arrays at launch (O52), the host's Words (O54) and data accesses in any environment (O57). -/

namespace Sys2Proof.Machine

/-- Settles O16: a step's one way to memory is the execute phase, which writes through the bus. -/
theorem stepKeepsTheInvariant : Obligations.StepKeepsTheInvariant := fun _ _ hs h => inv_of_stepWith hs h

/-! ## The bus decode -/

theorem busCell_of_ram {addr : Addr} (h : addr.toNat < 0x2000) : busCell addr = .ok (addr.toNat % 0x0800) := by
  rcases busCell_cases addr with ⟨_, hc⟩ | ⟨hr, _⟩ | ⟨hr, _⟩ | ⟨hr, _⟩
  · exact hc
  all_goals omega

/-- PPUREG, APUREG and PRGWIN: the key is the address (log 19). -/
theorem busCell_of_window {addr : Addr}
    (h : (0x2000 ≤ addr.toNat ∧ addr.toNat < 0x2008) ∨ (0x4000 ≤ addr.toNat ∧ addr.toNat < 0x4018) ∨
      0x8000 ≤ addr.toNat) : busCell addr = .ok addr.toNat := by
  rcases busCell_cases addr with ⟨hr, _⟩ | ⟨_, hc⟩ | ⟨hr, _⟩ | ⟨hr, _⟩
  case inr.inl => exact hc
  all_goals omega

theorem busCell_of_unimplementedRegion {addr : Addr}
    (h : (0x2008 ≤ addr.toNat ∧ addr.toNat < 0x4000) ∨ (0x4018 ≤ addr.toNat ∧ addr.toNat < 0x4020) ∨
      (0x6000 ≤ addr.toNat ∧ addr.toNat < 0x8000)) : busCell addr = .error (.unimplementedRegion addr) := by
  rcases busCell_cases addr with ⟨hr, _⟩ | ⟨hr, _⟩ | ⟨_, hc⟩ | ⟨hr, _⟩
  case inr.inr.inl => exact hc
  all_goals omega

theorem busCell_of_hole {addr : Addr} (h : 0x4020 ≤ addr.toNat ∧ addr.toNat < 0x6000) :
    busCell addr = .error (.invalidAddress addr) := by
  rcases busCell_cases addr with ⟨hr, _⟩ | ⟨hr, _⟩ | ⟨hr, _⟩ | ⟨_, hc⟩
  case inr.inr.inr => exact hc
  all_goals omega

/-- The cell an address names: RAM's modulo 0x0800, every other its own. -/
theorem cell_of_busCell {addr : Addr} {k : Nat} (h : busCell addr = .ok k) :
    (addr.toNat < 0x2000 ∧ k = addr.toNat % 0x0800) ∨ (0x2000 ≤ addr.toNat ∧ k = addr.toNat) := by
  rcases busCell_cases addr with ⟨hr, hc⟩ | ⟨hr, hc⟩ | ⟨_, hc⟩ | ⟨_, hc⟩ <;> cases hc.symm.trans h <;> omega

theorem busWrite_of_cell {addr : Addr} {k : Nat} (h : busCell addr = .ok k) (v : Byte) (m : Memory) :
    busWrite addr v m = .ok (cellSet m k v) := by simp [busWrite, h]

/-- One decode serves reads and writes, so they fault alike (20_memory.md R51). -/
theorem bus_faults {addr : Addr} {c : FaultCause} (h : busCell addr = .error c) (v : Byte) (m : Memory) :
    busRead addr m = .error c ∧ busWrite addr v m = .error c :=
  ⟨busRead_of_fault h m, by simp [busWrite, h]⟩

theorem busRead_of_busWrite {addr : Addr} {k : Nat} (h : busCell addr = .ok k) (v : Byte) (m : Memory) :
    ∃ m', busWrite addr v m = .ok m' ∧ busRead addr m' = .ok v :=
  ⟨_, busWrite_of_cell h v m, by rw [busRead_cellSet, if_pos h]⟩

/-- Settles O24, row by row of the decode. -/
theorem busDecodesEveryAddress : Obligations.BusDecodesEveryAddress := by
  intro addr v m
  have hram {k : Nat} (hlt : addr.toNat < 0x2000) (hk : addr.toNat % 0x0800 = k) : busCell addr = .ok k :=
    hk ▸ busCell_of_ram hlt
  refine ⟨fun _ => hram ?_ ?_, fun _ _ => hram ?_ ?_, fun _ _ => hram ?_ ?_, fun _ _ => hram ?_ ?_,
    fun h1 h2 => busCell_of_window (.inl ⟨h1, h2⟩),
    fun h1 h2 => bus_faults (busCell_of_unimplementedRegion (.inl ⟨h1, h2⟩)) v m,
    fun h1 h2 => busCell_of_window (.inr (.inl ⟨h1, h2⟩)),
    fun h1 h2 => bus_faults (busCell_of_unimplementedRegion (.inr (.inl ⟨h1, h2⟩))) v m,
    fun h1 h2 => bus_faults (busCell_of_hole ⟨h1, h2⟩) v m,
    fun h1 h2 => bus_faults (busCell_of_unimplementedRegion (.inr (.inr ⟨h1, h2⟩))) v m,
    fun h1 => busCell_of_window (.inr (.inr h1)),
    fun k hk => ⟨⟨_, busRead_of_cell hk m⟩, busRead_of_busWrite hk v m⟩⟩
  all_goals omega

/-! ## Reads and writes through the port -/

theorem memRead_of_cell {addr : Addr} {k : Nat} (h : busCell addr = .ok k) (s : State) :
    memRead addr s = .ok (cellGet s.mem k, s) := memRead_ok.mpr ⟨busRead_of_cell h _, rfl⟩

theorem memWrite_of_cell {addr : Addr} {k : Nat} (h : busCell addr = .ok k) (v : Byte) (s : State) :
    memWrite addr v s = .ok (setMem (cellSet s.mem k v) s) := memWrite_ok.mpr ⟨k, h, rfl⟩

/-- A write that completes changes one cell (20_memory.md R42, R47). -/
theorem storedOnly_of_memWrite {addr : Addr} {v : Byte} {s t : State} (h : memWrite addr v s = .ok t) :
    StoredOnly addr v s t := by
  obtain ⟨k, hk, rfl⟩ := memWrite_ok.mp h
  exact ⟨fun a ha => (busRead_stored hk _ v a).trans (if_pos ha),
    fun a ha => (busRead_stored hk _ v a).trans (if_neg ha)⟩

/-- A write that completes changes memory alone. -/
theorem memWrite_keeps {addr : Addr} {v : Byte} {s t : State} (h : memWrite addr v s = .ok t) :
    SameRegisters s t ∧ t.status = s.status ∧ t.pc = s.pc ∧ SameLatches s t := by
  obtain ⟨k, _, rfl⟩ := memWrite_ok.mp h
  exact ⟨⟨rfl, rfl, rfl, rfl⟩, rfl, rfl, rfl, rfl⟩

/-- Settles O25: the addresses of a RAM cell decode to one key. -/
theorem ramMirrorsNameOneCell : Obligations.RamMirrorsNameOneCell := by
  refine ⟨fun _ h => busCell_of_ram h, fun addr mirror v s haddr hmirror hsame => ?_, fun addr v s h => ?_⟩
  · have hwrite := memWrite_of_cell (busCell_of_ram haddr) v s
    have hcell : busCell mirror = busCell addr := by rw [busCell_of_ram haddr, busCell_of_ram hmirror, hsame]
    exact ⟨_, hwrite, memRead_ok.mpr ⟨(storedOnly_of_memWrite hwrite).1 mirror hcell, rfl⟩⟩
  · have hcell := busCell_of_ram (addr := addr) (by omega)
    exact ⟨⟨_, memRead_of_cell hcell s⟩, _, memWrite_of_cell hcell v s⟩

/-- Settles O26: one cell written, or the bus fault raised before any change. -/
theorem writeThenReadReturnsTheByte : Obligations.WriteThenReadReturnsTheByte := by
  refine fun addr v s => ⟨fun t h => ⟨storedOnly_of_memWrite h, memWrite_keeps h⟩, fun f h => ?_⟩
  obtain ⟨c, _, hf⟩ := memWrite_error.mp h
  exact ⟨c, hf⟩

/-! ## A stored byte is fetched -/

/-- Only from the top address is there no next one. -/
theorem succ_le_of_ne_top {w : Addr} (h : w ≠ 0xFFFF) : w.toNat + 1 ≤ 0xFFFF := by
  have hne : w.toNat ≠ 0xFFFF := fun e => h (BitVec.eq_of_toNat_eq e)
  have := w.isLt
  omega

/-- The grid of 30_encoding.md R79, written out twice, lists the same bytes. -/
theorem optableRows_keys : optableRows.map Prod.fst = populatedOpcodes := rfl

theorem optable_op_of_unlisted {b : Byte} (h : b ∉ populatedOpcodes) : (optable b).op = .unimplemented := by
  by_contra hu
  exact h (optableRows_keys ▸ List.mem_map_of_mem (f := Prod.fst) (optable_mem hu))

/-- Where the operand bytes of a mode read, the operand is fetched (40_fetch_decode_operands.md R92). -/
theorem fetchOperand_of_busReads {mode : Mode} {pc0 : Addr} {s : State} (hroom : pc0.toNat + modeLength mode ≤ 0xFFFF)
    (hread : ∀ k, 0 < k → k < modeLength mode → ∃ v, busRead (pc0 + BitVec.ofNat 16 k) s.mem = .ok v) :
    ∃ operand, fetchOperand mode pc0 s = .ok (operand, s) := by
  have fetched {n : Nat} (h0 : 0 < n) (hn : n < modeLength mode) : ∃ v, fetchAfter pc0 n s = .ok (v, s) := by
    obtain ⟨v, hv⟩ := hread n h0 hn
    exact ⟨v, fetchAfter_of_read (by omega) (reference_read_ok.mpr ⟨hv, rfl⟩)⟩
  cases mode with
  | implied | accumulator => exact ⟨_, rfl⟩
  | immediate | zeropage | relative =>
    obtain ⟨b1, h1 : fetchAfter pc0 1 s = _⟩ := fetched (n := 1) (by decide) (by decide)
    exact ⟨.byte b1, by simp only [fetchOperand, fetchByteOperand, h1]⟩
  | absolute | indirect =>
    obtain ⟨b1, h1 : fetchAfter pc0 1 s = _⟩ := fetched (n := 1) (by decide) (by decide)
    obtain ⟨b2, h2 : fetchAfter pc0 2 s = _⟩ := fetched (n := 2) (by decide) (by decide)
    exact ⟨.word (wordOf b2 b1), by simp only [fetchOperand, fetchWordOperand, h1, h2]⟩

theorem decodePhaseWith_running {table : Byte → OpCode} {s : State} {env : Environment} (h : s.halt = none) :
    decodePhaseWith table s env = outcome (decodeLatch table s env) := by
  simp only [decodePhaseWith, h]

/-- A listed opcode byte whose operand bytes read is latched, and PC advances by its length
(40_fetch_decode_operands.md R93). -/
theorem decodePhaseWith_of_busReads {table : Byte → OpCode} {s : State} {b0 : Byte} (hh : s.halt = none)
    (hb : busRead s.pc s.mem = .ok b0) (hu : (table b0).op ≠ .unimplemented)
    (hroom : s.pc.toNat + modeLength (table b0).mode ≤ 0xFFFF)
    (hread : ∀ k, 0 < k → k < modeLength (table b0).mode →
      ∃ v, busRead (s.pc + BitVec.ofNat 16 k) s.mem = .ok v) :
    ∃ operand, decodePhaseWith table s =
      .next (setIR (some ⟨(table b0).op, (table b0).mode, operand⟩)
        (setPC (s.pc + BitVec.ofNat 16 (modeLength (table b0).mode)) s)) := by
  obtain ⟨operand, ho⟩ := fetchOperand_of_busReads hroom hread
  have hpc := wordAdd_ok.mp (wordAdd_nat (s := s) hroom)
  rw [decodePhaseWith_running hh]
  exact ⟨operand, outcome_next.mpr (decodeLatch_ok.mpr ⟨b0, operand, _, hb, hu, ho, hpc, rfl⟩)⟩

/-- An unlisted opcode byte faults before any operand fetch (40_fetch_decode_operands.md R95). -/
theorem decodeLatch_of_unlisted {table : Byte → OpCode} {s : State} {b0 : Byte} (hb : busRead s.pc s.mem = .ok b0)
    (hu : (table b0).op = .unimplemented) : decodeLatch table s = raise (.unimplementedOpcode b0 s.pc) s := by
  simp only [decodeLatch, memRead_ok.mpr ⟨hb, rfl⟩, if_pos hu]

/-- A fault of the decode phase is the step's. -/
theorem decodeRaises_of_decodeLatch {s : State} {c : FaultCause} (hh : s.halt = none)
    (hd : decodeLatch optable s = raise c s) : DecodeRaises s c := by
  refine ⟨?_, ?_⟩
  · rw [decodePhaseWith_running hh, hd]
    rfl
  · rw [step, stepWith_running hh, hd]
    rfl

/-- Settles O27: the fetch reads the cell that STA wrote, and the decode phase takes what it reads. -/
theorem storedOpcodeIsFetched : Obligations.StoredOpcodeIsFetched := by
  intro s t u w hsta hmem hpc hh
  subst hpc
  have hwrite : memWrite u.pc s.a s = .ok t := outcome_next.mp hsta
  have hread : busRead u.pc u.mem = .ok s.a := hmem ▸ (storedOnly_of_memWrite hwrite).1 u.pc rfl
  refine ⟨hread, decodePhaseWith_of_busReads hh hread, fun ha hw => ?_, fun ha => ?_⟩
  · have hinx : Answers .reference u.pc [0xE8] u.mem u.mem :=
      ⟨_, reference_read_ok.mpr ⟨ha ▸ hread, rfl⟩, rfl⟩
    have hstep := stepExecutesInAnyEnvironment.1 .reference u .inx [0xE8] u.mem hh rfl nofun rfl hinx
      (succ_le_of_ne_top hw)
    rwa [execIn_reference] at hstep
  · exact decodeRaises_of_decodeLatch hh (decodeLatch_of_unlisted hread (optable_op_of_unlisted ha))

/-! ## The arrays at launch -/

theorem cellGet_cellsLoad_inside {bytes : List Byte} {k : Nat} {v : Byte} (h : bytes[k]? = some v) (base : Nat)
    (m : Memory) : cellGet (cellsLoad base bytes m) (base + k) = v := by
  obtain ⟨hk, rfl⟩ := List.getElem?_eq_some_iff.mp h
  rw [cellGet_cellsLoad, dif_pos ⟨by omega, by omega⟩]
  simp

theorem cellGet_cellsLoad_below {base j : Nat} (h : j < base) (bytes : List Byte) (m : Memory) :
    cellGet (cellsLoad base bytes m) j = cellGet m j := by
  rw [cellGet_cellsLoad, dif_neg (by omega)]

/-- The window holds the image from its start on, and a 16 KiB image again in its upper half (20_memory.md R58). -/
theorem prgWindow_getElem? {prg window : List Byte} (hw : prgWindow prg = some window) {k : Nat}
    (hk : k < prg.length) :
    window[k]? = some prg[k] ∧ (prg.length = 0x4000 → window[0x4000 + k]? = some prg[k]) := by
  unfold prgWindow at hw
  split_ifs at hw with h32 h16
  · cases hw
    exact ⟨List.getElem?_eq_getElem hk, fun h => by omega⟩
  · cases hw
    refine ⟨?_, fun _ => ?_⟩
    · rw [List.getElem?_append_left hk, List.getElem?_eq_getElem hk]
    · rw [List.getElem?_append_right (by omega), ← h16, Nat.add_sub_cancel_left, List.getElem?_eq_getElem hk]

theorem isCellKey_iff {k : Nat} :
    isCellKey k = true ↔ k < 0x0800 ∨ (0x2000 ≤ k ∧ k < 0x2008) ∨ (0x4000 ≤ k ∧ k < 0x4018) ∨
      (0x8000 ≤ k ∧ k < 0x10000) := by
  simp only [isCellKey, Bool.or_eq_true, Bool.and_eq_true, decide_eq_true_eq, or_assoc]

/-- The key of a cell, as an address, names that cell. -/
theorem busRead_key {k : Nat} (h : isCellKey k = true) (m : Memory) :
    busRead (BitVec.ofNat 16 k) m = .ok (cellGet m k) := by
  rw [isCellKey_iff] at h
  have hk : (BitVec.ofNat 16 k).toNat = k := BitVec.toNat_ofNat k 16 ▸ Nat.mod_eq_of_lt (by omega)
  refine busRead_of_cell ?_ m
  by_cases hram : k < 0x2000
  · rw [busCell_of_ram (by omega), hk, Nat.mod_eq_of_lt (by omega)]
  · rw [busCell_of_window (by omega), hk]

/-- The four arrays hold the bytes they are given, read at the addresses that are their keys: each array lies below the
ones loaded after it (20_memory.md R50, R62). -/
theorem busRead_launchMemory (ram ppuReg apuReg : List Byte) {window : List Byte} (hw : window.length = 0x8000) :
    (∀ k v, k < 0x0800 → ram[k]? = some v →
      busRead (BitVec.ofNat 16 k) (launchMemory ram ppuReg apuReg window) = .ok v) ∧
    (∀ k v, k < 8 → ppuReg[k]? = some v →
      busRead (BitVec.ofNat 16 (0x2000 + k)) (launchMemory ram ppuReg apuReg window) = .ok v) ∧
    (∀ k v, k < 24 → apuReg[k]? = some v →
      busRead (BitVec.ofNat 16 (0x4000 + k)) (launchMemory ram ppuReg apuReg window) = .ok v) ∧
    (∀ k v, window[k]? = some v →
      busRead (BitVec.ofNat 16 (0x8000 + k)) (launchMemory ram ppuReg apuReg window) = .ok v) := by
  unfold launchMemory
  refine ⟨fun k v hk h => ?_, fun k v hk h => ?_, fun k v hk h => ?_, fun k v h => ?_⟩
  · rw [busRead_key (isCellKey_iff.mpr (by omega)), cellGet_cellsLoad_below (by omega),
      cellGet_cellsLoad_below (by omega), cellGet_cellsLoad_below (by omega), ← Nat.zero_add k,
      cellGet_cellsLoad_inside ((List.getElem?_take_of_lt hk).trans h)]
  · rw [busRead_key (isCellKey_iff.mpr (by omega)), cellGet_cellsLoad_below (by omega),
      cellGet_cellsLoad_below (by omega), cellGet_cellsLoad_inside ((List.getElem?_take_of_lt hk).trans h)]
  · rw [busRead_key (isCellKey_iff.mpr (by omega)), cellGet_cellsLoad_below (by omega),
      cellGet_cellsLoad_inside ((List.getElem?_take_of_lt hk).trans h)]
  · have hk : k < 0x8000 := hw ▸ (List.getElem?_eq_some_iff.mp h).1
    rw [busRead_key (isCellKey_iff.mpr (by omega)), cellGet_cellsLoad_inside h]

theorem launchState_eq_some {l : Launch} {s : State} :
    launchState l = some s ↔ ∃ window, prgWindow l.prg = some window ∧
      s = ⟨l.a, l.x, l.y, l.sp, l.status, l.pc, none, none, launchMemory l.ram l.ppuReg l.apuReg window⟩ := by
  cases h : prgWindow l.prg <;> simp [launchState, h, eq_comm]

/-- Settles O52: the arrays read what they were given, and the window was given the image. -/
theorem launchBuildsTheArrays : Obligations.LaunchBuildsTheArrays := by
  intro l s h
  have hinv := inv_of_launchState h
  obtain ⟨window, hw, rfl⟩ := launchState_eq_some.mp h
  obtain ⟨hram, hppu, hapu, hwindow⟩ := busRead_launchMemory l.ram l.ppuReg l.apuReg (prgWindow_length hw)
  refine ⟨hinv, rfl, rfl, rfl, rfl, rfl, rfl, fun k hk hlt => hram k _ hlt (List.getElem?_eq_getElem hk),
    fun k hk hlt => hppu k _ hlt (List.getElem?_eq_getElem hk),
    fun k hk hlt => hapu k _ hlt (List.getElem?_eq_getElem hk),
    fun k hk => hwindow k _ (prgWindow_getElem? hw hk).1, fun h16 k hk => ?_⟩
  have hupper := hwindow (0x4000 + k) _ ((prgWindow_getElem? hw hk).2 h16)
  rwa [← Nat.add_assoc] at hupper

/-! ## The host's Words -/

/-- Neighbouring addresses never name one cell. -/
theorem busCell_next_ne {addr next : Addr} {k : Nat} (h : busCell addr = .ok k) (hnext : next.toNat = addr.toNat + 1) :
    busCell addr ≠ busCell next := by
  intro heq
  have haddr := cell_of_busCell h
  have hcell := cell_of_busCell (heq ▸ h)
  omega

/-- Settles O54: the two bytes lie in different cells, so the second write leaves the first. -/
theorem peek16AfterPoke16ReturnsTheWord : Obligations.Peek16AfterPoke16ReturnsTheWord := by
  intro addr w s t h
  obtain ⟨u, next, hlow, hnext, hhigh⟩ := hostPoke16_ok.mp (outcome_next.mp h)
  obtain ⟨k, hk, _⟩ := memWrite_ok.mp hlow
  have hsucc : next.toNat = addr.toNat + 1 := by
    have := wordAdd_ok.mp hnext
    omega
  have hroom : addr.toNat + 1 ≤ 0xFFFF := by
    have := next.isLt
    omega
  obtain rfl : addr + 1 = next := Except.ok.inj ((wordAdd_nat (n := 1) hroom).symm.trans hnext)
  have hreadHigh : busRead (addr + 1) t.mem = .ok (highByte w) := (storedOnly_of_memWrite hhigh).1 _ rfl
  have hreadLow : busRead addr t.mem = .ok (lowByte w) :=
    ((storedOnly_of_memWrite hhigh).2 addr (busCell_next_ne hk hsucc)).trans ((storedOnly_of_memWrite hlow).1 addr rfl)
  have hpeek : hostPeek16 addr t = .ok (w, t) :=
    wordOf_high_low w ▸ indirectTarget_of_reads hroom (reference_read_ok.mpr ⟨hreadLow, rfl⟩)
      (reference_read_ok.mpr ⟨hreadHigh, rfl⟩)
  have hkeep := memWrite_keeps hhigh
  obtain ⟨_, _, rfl⟩ := memWrite_ok.mp hlow
  exact ⟨hpeek, hreadLow, hreadHigh, hkeep⟩

/-! ## Data accesses in any environment -/

/-- The two forms with a data read before the work of their immediate form; `run` is the shape of the three
(40_fetch_decode_operands.md R96). -/
theorem bothForms_readsThrough {zp imm : Byte → Instr} {abs : Addr → Instr} (op : Operation)
    (run : Ir → State → Environment → Except Fault State)
    (hzp : ∀ b s env, execIn (zp b) s env = outcome (run ⟨op, .zeropage, .byte b⟩ s env))
    (habs : ∀ w s env, execIn (abs w) s env = outcome (run ⟨op, .absolute, .word w⟩ s env))
    (hok : ∀ {instr s env v m}, value instr s env = .ok (v, setMem m s) →
      outcome (run instr s env) = exec (imm v) (setMem m s))
    (herr : ∀ {instr s env f}, value instr s env = .error f → run instr s env = .error f) :
    BothForms zp abs (ReadsThrough · imm) := by
  have through {i : Instr} {instr : Ir} {addr : Addr} (hi : ∀ s env, execIn i s env = outcome (run instr s env))
      (hvalue : ∀ s env, value instr s env = memRead addr s env) : ReadsThrough i imm addr := fun env s =>
    ⟨fun _ m hread => (hi s env).trans (hok ((hvalue s env).trans (memRead_env_ok.mpr ⟨m, hread, rfl⟩))),
      fun c hread => (hi s env).trans
        (outcome_fault.mpr (herr ((hvalue s env).trans (memRead_env_error.mpr ⟨c, hread, rfl⟩))))⟩
  exact ⟨fun b => through (hzp b) (value_zeropage op b), fun w => through (habs w) (value_absolute op w)⟩

theorem storesThrough_of_memWrite {i : Instr} {addr : Addr} {reg : State → Byte}
    (hi : ∀ s env, execIn i s env = outcome (memWrite addr (reg s) s env)) : StoresThrough i addr reg := by
  refine fun env s => ⟨fun m hwrite => ?_, fun c hwrite => ?_⟩
  · rw [hi, memWrite_env_ok.mpr ⟨m, hwrite, rfl⟩]
    rfl
  · rw [hi, memWrite_env_error.mpr ⟨c, hwrite, rfl⟩]
    rfl

theorem modifyMemory_modifiesThrough {i : Instr} {instr : Ir} {addr : Addr} {g : Byte → Byte} {delta : Nat}
    (haddr : ∀ s env, address instr s env = .ok (addr, s))
    (hi : ∀ s env, execIn i s env = outcome (modifyMemory g instr s env))
    (hg : ∀ v, (g v).toNat = (v.toNat + delta) % 256) : ModifiesThrough i addr delta := by
  refine fun env s => ⟨fun c hread => ?_, fun v r m hread hr => ?_⟩
  · have hfault := memRead_env_error.mpr ⟨c, hread, rfl⟩
    rw [hi, modifyMemory_env_error.mpr (.inr ⟨addr, s, haddr s env, .inl hfault⟩)]
    rfl
  · obtain rfl : g v = r := BitVec.eq_of_toNat_eq ((hg v).trans hr.symm)
    have hbyte := memRead_env_ok.mpr ⟨m, hread, rfl⟩
    refine ⟨fun m' hwrite => ?_, fun c hwrite => ?_⟩
    · have hstore : memWrite addr (g v) (setMem m s) env = _ := memWrite_env_ok.mpr ⟨m', hwrite, rfl⟩
      rw [hi, modifyMemory_env_ok.mpr ⟨addr, s, v, _, _, haddr s env, hbyte, hstore, rfl⟩]
      rfl
    · have hfault : memWrite addr (g v) (setMem m s) env = _ := memWrite_env_error.mpr ⟨c, hwrite, rfl⟩
      rw [hi, modifyMemory_env_error.mpr (.inr ⟨addr, s, haddr s env, .inr ⟨v, _, hbyte, hfault⟩⟩)]
      rfl

theorem increment_toNat (v : Byte) : (increment v).toNat = (v.toNat + 1) % 256 := BitVec.toNat_add v 1

theorem decrement_toNat (v : Byte) : (decrement v).toNat = (v.toNat + 255) % 256 := by
  rw [decrement, BitVec.toNat_sub]
  exact congrArg (· % 256) (Nat.add_comm _ _)

/-- JMP indirect reads its pointer's two bytes, low byte first (40_fetch_decode_operands.md R100). -/
theorem jmpInd_jumpsThrough (ptr : Addr) : JumpsThrough ptr := by
  have fault {env : Environment} {s : State} {f : Fault} (h : indirectTarget ptr s env = .error f) :
      execIn (.jmpInd ptr) s env = .fault f := outcome_fault.mpr (jump_error.mpr h)
  refine fun env s => ⟨fun c hread => fault ?_, fun lo m hptr hlow => ?_⟩
  · simp only [indirectTarget, memRead_env_error.mpr ⟨c, hread, rfl⟩]
  · have hroom := succ_le_of_ne_top hptr
    refine ⟨fun c hread => fault ?_, fun hi m' hhigh => ?_⟩
    · have hnext : wordAdd ptr 1 (setMem m s) = .ok (ptr + 1) := wordAdd_nat (n := 1) hroom
      have hfault : memRead (ptr + 1) (setMem m s) env = _ := memRead_env_error.mpr ⟨c, hread, rfl⟩
      simp only [indirectTarget, memRead_env_ok.mpr ⟨m, hlow, rfl⟩, hnext, hfault]
    · exact outcome_next.mpr (jump_ok.mpr ⟨_, _, indirectTarget_of_reads hroom hlow hhigh, rfl⟩)

/-- Settles O57: each form unfolds to its shape, at the address its mode resolves to. -/
theorem dataAccessesGoThroughTheEnvironment : Obligations.DataAccessesGoThroughTheEnvironment :=
  ⟨bothForms_readsThrough .and @andA (fun _ _ _ => rfl) (fun _ _ _ => rfl)
      (fun h => outcome_next.mpr (andA_ok.mpr ⟨_, _, h, rfl⟩)) andA_error.mpr,
    bothForms_readsThrough .cmp (fun instr s => @compareWith s.a instr s) (fun _ _ _ => rfl) (fun _ _ _ => rfl)
      (fun h => outcome_next.mpr (compareWith_ok.mpr ⟨_, _, h, rfl⟩)) compareWith_error.mpr,
    bothForms_readsThrough .cpx (fun instr s => @compareWith s.x instr s) (fun _ _ _ => rfl) (fun _ _ _ => rfl)
      (fun h => outcome_next.mpr (compareWith_ok.mpr ⟨_, _, h, rfl⟩)) compareWith_error.mpr,
    bothForms_readsThrough .cpy (fun instr s => @compareWith s.y instr s) (fun _ _ _ => rfl) (fun _ _ _ => rfl)
      (fun h => outcome_next.mpr (compareWith_ok.mpr ⟨_, _, h, rfl⟩)) compareWith_error.mpr,
    bothForms_readsThrough .lda (@loadInto setA) (fun _ _ _ => rfl) (fun _ _ _ => rfl)
      (fun h => outcome_next.mpr (loadInto_ok.mpr ⟨_, _, h, rfl⟩)) loadInto_error.mpr,
    bothForms_readsThrough .ldx (@loadInto setX) (fun _ _ _ => rfl) (fun _ _ _ => rfl)
      (fun h => outcome_next.mpr (loadInto_ok.mpr ⟨_, _, h, rfl⟩)) loadInto_error.mpr,
    bothForms_readsThrough .ldy (@loadInto setY) (fun _ _ _ => rfl) (fun _ _ _ => rfl)
      (fun h => outcome_next.mpr (loadInto_ok.mpr ⟨_, _, h, rfl⟩)) loadInto_error.mpr,
    ⟨fun _ => storesThrough_of_memWrite fun _ _ => rfl, fun _ => storesThrough_of_memWrite fun _ _ => rfl⟩,
    ⟨fun _ => storesThrough_of_memWrite fun _ _ => rfl, fun _ => storesThrough_of_memWrite fun _ _ => rfl⟩,
    ⟨fun _ => storesThrough_of_memWrite fun _ _ => rfl, fun _ => storesThrough_of_memWrite fun _ _ => rfl⟩,
    ⟨fun b => modifyMemory_modifiesThrough (address_zeropage .inc b) (fun _ _ => rfl) increment_toNat,
      fun w => modifyMemory_modifiesThrough (address_absolute .inc w) (fun _ _ => rfl) increment_toNat⟩,
    ⟨fun b => modifyMemory_modifiesThrough (address_zeropage .dec b) (fun _ _ => rfl) decrement_toNat,
      fun w => modifyMemory_modifiesThrough (address_absolute .dec w) (fun _ _ => rfl) decrement_toNat⟩,
    jmpInd_jumpsThrough⟩

end Sys2Proof.Machine
end

section
/-! PROOFS. The family 30_encoding.md: decode and encode agree (O5, O6), lengths (O7), the opcode bytes (O1 to O4), the
unlisted ones (O9), and the two attested instructions under any table (O50). -/

namespace Sys2Proof.Machine

/-! ## Decode and encode -/

/-- A Word's two bytes, low byte first, are read back as the Word (30_encoding.md R71, R73). -/
theorem decode_encodeF3 {b0 : Byte} {i : Addr → Instr}
    (h : ∀ lo hi rest, decode (b0 :: lo :: hi :: rest) = .ok (i (wordOf hi lo), rest)) (w : Addr) (rest : List Byte) :
    decode (encodeF3 b0 w ++ rest) = .ok (i w, rest) := by
  have hread := h (lowByte w) (highByte w) rest
  rwa [wordOf_high_low] at hread

/-- The bytes of an operand, low byte first (30_encoding.md R71). -/
def operandBytes : Operand → List Byte
  | .nothing => []
  | .byte b => [b]
  | .word w => [lowByte w, highByte w]

/-- The operand taken is the bytes before the rest. -/
theorem operandBytes_of_takeOperand {mode : Mode} {bs rest : List Byte} {operand : Operand}
    (h : takeOperand mode bs = some (operand, rest)) : operandBytes operand ++ rest = bs := by
  cases mode with
  | implied | accumulator =>
    cases h
    rfl
  | immediate | zeropage | relative =>
    match bs, h with
    | _ :: _, rfl => rfl
  | absolute | indirect =>
    match bs, h with
    | b1 :: b2 :: _, rfl => simp [operandBytes]

/-- The instruction of a row of 30_encoding.md R79 encodes to the row's opcode byte and its operand's bytes. Row by row:
of the three operand variants only the one of the row's mode gives an instruction (R72). -/
theorem encode_of_row {row : Byte × OpCode} (hrow : row ∈ optableRows) {operand : Operand} {i : Instr}
    (h : instrOfIr ⟨row.2.op, row.2.mode, operand⟩ = some i) :
    i.wf = true ∧ encode i = row.1 :: operandBytes operand := by
  fin_cases hrow
  all_goals
    cases operand <;> cases h
    exact ⟨rfl, rfl⟩

/-- Settles O5, format by format (30_encoding.md R71): the table gives back the entry of each opcode byte. -/
theorem decodeOfEncodeIsTheInstruction : Obligations.DecodeOfEncodeIsTheInstruction := by
  intro i rest hwf
  cases i with
  | aslAcc | lsrAcc | inx | dex | iny | dey | rts | pha | cld | sei | tax | txs => rfl
  | andImm | andZp | ldaImm | ldaZp | ldxImm | ldxZp | ldyImm | ldyZp | staZp | stxZp | styZp | cmpImm | cmpZp | cpxImm
  | cpxZp | cpyImm | cpyZp | incZp | decZp | bcc | bcs | beq | bne | bpl => rfl
  | andAbs w | ldaAbs w | ldxAbs w | ldyAbs w | staAbs w | stxAbs w | styAbs w | cmpAbs w | cpxAbs w | cpyAbs w
  | incAbs w | decAbs w | jmpAbs w | jmpInd w | jsr w => exact decode_encodeF3 (fun _ _ _ => rfl) w rest
  | unimplemented b => exact decodeWith_unimplemented (of_decide_eq_true hwf) rest

/-- Settles O6: the operand was taken from the front of the bytes, by an entry that is a row of the table. -/
theorem decodedBytesReencode : Obligations.DecodedBytesReencode := by
  intro bytes rest i hd
  cases bytes with
  | nil => cases hd
  | cons b0 bs =>
    by_cases hu : (optable b0).op = .unimplemented
    · cases (decodeWith_unimplemented hu bs).symm.trans hd
      exact ⟨decide_eq_true hu, rfl⟩
    · obtain ⟨operand, ho, hi⟩ := (decodeWith_ok hu).mp hd
      obtain ⟨hwf, hencode⟩ := encode_of_row (optable_mem hu) hi
      exact ⟨hwf, by rw [hencode, List.cons_append, operandBytes_of_takeOperand ho]⟩

/-- Settles O7: the decoder takes the opcode byte and the operand bytes of its entry's mode. -/
theorem lengthIsFixedByTheOpcodeByte : Obligations.LengthIsFixedByTheOpcodeByte := by
  intro b0 bytes rest i hu hd
  obtain ⟨_, ho, _⟩ := (decodeWith_ok hu).mp hd
  have hlen : (b0 :: bytes).length = rest.length + modeLength (optable b0).mode := takeOperand_length ho
  refine ⟨?_, ?_, ?_⟩
  · rintro (hm | hm) <;> rwa [hm] at hlen
  · rintro (hm | hm | hm) <;> rwa [hm] at hlen
  · rintro (hm | hm) <;> rwa [hm] at hlen

/-! ## The opcode bytes -/

/-- Settles O1: the bytes are rows of the default table. -/
theorem attestedOpcodeBytesDecode : Obligations.AttestedOpcodeBytesDecode := ⟨fun _ _ => rfl, fun _ _ _ => rfl⟩

/-- Settles O2, by running the decoder on each word. -/
theorem tableWordsDecodeToTheirRows : Obligations.TableWordsDecodeToTheirRows :=
  ⟨rfl, rfl, rfl, rfl, rfl, rfl, rfl, rfl, rfl, rfl, rfl, rfl⟩

theorem lookupRow_op_ne_unimplemented {rows : List (Byte × OpCode)} (hrows : ∀ row ∈ rows, row.2.op ≠ .unimplemented)
    {b : Byte} (hb : b ∈ rows.map Prod.fst) : (lookupRow rows b).op ≠ .unimplemented := by
  induction rows with
  | nil => cases hb
  | cons row rest ih =>
    obtain ⟨hrow, hrest⟩ := List.forall_mem_cons.mp hrows
    simp only [lookupRow]
    split
    · exact hrow
    · next hk => exact ih hrest ((List.mem_cons.mp hb).resolve_left (Ne.symm hk))

/-- The sentinel is in no row, so the listed bytes are the populated ones (30_encoding.md R79, R80). -/
theorem optable_op_ne_unimplemented {b : Byte} : (optable b).op ≠ .unimplemented ↔ b ∈ populatedOpcodes := by
  have hrows : ∀ row ∈ optableRows, row.2.op ≠ .unimplemented := by decide
  exact ⟨fun h => by_contra fun hb => h (optable_op_of_unlisted hb),
    fun hb => lookupRow_op_ne_unimplemented hrows (optableRows_keys ▸ hb)⟩

/-- The bytes numbered 0 to 255 that are listed are the 51 of the grid, which are distinct. -/
theorem listedBytes_perm :
    ((List.range 256).filter (fun n => decide (BitVec.ofNat 8 n ∈ populatedOpcodes))).Perm
      (populatedOpcodes.map BitVec.toNat) := by
  have hdistinct : populatedOpcodes.Nodup := by decide
  refine (List.perm_ext_iff_of_nodup (List.nodup_range.filter _) (hdistinct.map BitVec.toNat_injective)).mpr fun n => ?_
  simp only [List.mem_filter, List.mem_range, decide_eq_true_eq, List.mem_map]
  constructor
  · rintro ⟨hn, hb⟩
    exact ⟨_, hb, Nat.mod_eq_of_lt hn⟩
  · rintro ⟨b, hb, rfl⟩
    exact ⟨b.isLt, by simpa using hb⟩

/-- A byte is listed or the sentinel's. -/
theorem length_eq_listed_add_unimplemented (ns : List Nat) :
    ns.length = (ns.filter (fun n => decide (BitVec.ofNat 8 n ∈ populatedOpcodes))).length +
      (ns.filter (fun n => decide ((optable (BitVec.ofNat 8 n)).op = .unimplemented))).length := by
  have hunlisted (n : Nat) : (!decide (BitVec.ofNat 8 n ∈ populatedOpcodes)) =
      decide ((optable (BitVec.ofNat 8 n)).op = .unimplemented) := by
    rw [← decide_not, decide_eq_decide, ← optable_op_ne_unimplemented, not_not]
  simpa only [hunlisted] using
    List.length_eq_length_filter_add (l := ns) (fun n => decide (BitVec.ofNat 8 n ∈ populatedOpcodes))

/-- Settles O3: of the 256 bytes, all but the 51 listed are the sentinel's. -/
theorem optableLeaves205BytesUnimplemented : Obligations.OptableLeaves205BytesUnimplemented := by
  refine ⟨?_, fun _ => optable_op_ne_unimplemented⟩
  have hsplit := length_eq_listed_add_unimplemented (List.range 256)
  have hlisted : populatedOpcodes.length = 51 := rfl
  simp only [listedBytes_perm.length_eq, List.length_range, List.length_map, hlisted] at hsplit
  omega

/-- Settles O4, arm by arm of the encoder. -/
theorem encodingsAreTheDefaultTable : Obligations.EncodingsAreTheDefaultTable := by
  simp [Obligations.EncodingsAreTheDefaultTable, encode, encodeF1, encodeF2, encodeF3]

/-- Settles O9: the entry is the sentinel's, looked up before any operand fetch (40_fetch_decode_operands.md R95). -/
theorem unlistedOpcodeFaultsInDecode : Obligations.UnlistedOpcodeFaultsInDecode := by
  intro b hb
  have hu := optable_op_of_unlisted hb
  exact ⟨decodeWith_unimplemented hu,
    fun _ hh hread => decodeRaises_of_decodeLatch hh (decodeLatch_of_unlisted hread hu)⟩

/-! ## Any table -/

theorem nzOf_setNZ (v : Byte) (s : State) : NZOf v (setNZ v s) := ⟨flagN_setNZ v s, flagZ_setNZ v s⟩

theorem sameFlagsExcept_setNZ (v : Byte) (s : State) : SameFlagsExcept [1, 7] s (setNZ v s) := by
  intro j hj
  obtain ⟨h1, h7⟩ : j ≠ 1 ∧ j ≠ 7 := by simpa using hj
  rw [setNZ_bit, if_neg h1, if_neg h7]

/-- Settles O50: which instruction bytes decode to rests on the entry of their opcode byte alone. -/
theorem attestedInstructionsRunUnderAnyTable : Obligations.AttestedInstructionsRunUnderAnyTable := by
  intro table env s hlda hjmp hh
  refine ⟨fun v m hroom ha => ?_, fun lo hi m hroom ha => ?_⟩
  · have hd : decodeWith table [0xA9, v] = .ok (.ldaImm v, []) := by
      simp only [decodeWith, hlda]
      rfl
    exact ⟨_, stepWith_of_answers hh (by nofun) hd ha hroom, rfl, rfl, nzOf_setNZ v _, sameFlagsExcept_setNZ v _, rfl⟩
  · have hd : decodeWith table [0x4C, lo, hi] = .ok (.jmpAbs (wordOf hi lo), []) := by
      simp only [decodeWith, hjmp]
      rfl
    exact stepWith_of_answers hh (by nofun) hd ha hroom

end Sys2Proof.Machine
end

section
/-! PROOFS. The family 40_fetch_decode_operands.md: the decode phase's faults and its latch (O10, O11), the result flags
(O22), a pair outside the matrix (O49), the address generator (O23) and the sentinel (O48). -/

namespace Sys2Proof.Machine

/-! ## The address generator and the sentinel -/

/-- Settles O23: the sum is answered where it is a Word, and is the fault everywhere else. -/
theorem wordAddIsExactOrOverflows : Obligations.WordAddIsExactOrOverflows :=
  fun _ _ _ => ⟨fun _ hsum => wordAdd_ok.mpr hsum, fun hout => wordAdd_error.mpr ⟨hout, rfl⟩⟩

/-- Above 0xFFFF the sum is the fault (40_fetch_decode_operands.md R90). -/
theorem wordAdd_of_overflow {w : Addr} {n : Nat} (h : 0xFFFF < w.toNat + n) (s : State) :
    wordAdd w n s = raise (.wordOverflow w n) s :=
  (wordAddIsExactOrOverflows w n s).2 (.inr (by omega))

/-- Settles O48: the sentinel's meaning is the raise and nothing else. -/
theorem executingTheSentinelStops : Obligations.ExecutingTheSentinelStops := fun _ _ => rfl

/-! ## The fetch of one byte, in the reference environment -/

theorem memRead_of_busFault {addr : Addr} {s : State} {c : FaultCause} (h : busRead addr s.mem = .error c) :
    memRead addr s = raise c s := memRead_error.mpr ⟨c, h, rfl⟩

section
variable {pc0 : Addr} {n : Nat} {s : State}

theorem fetchAfter_of_busFault {c : FaultCause} (hn : pc0.toNat + n ≤ 0xFFFF)
    (h : busRead (pc0 + BitVec.ofNat 16 n) s.mem = .error c) : fetchAfter pc0 n s = raise c s := by
  simp only [fetchAfter, wordAdd_nat hn, memRead_of_busFault h]

/-- Past the top of memory nothing is read (40_fetch_decode_operands.md R90). -/
theorem fetchAfter_of_overflow (hn : 0xFFFF < pc0.toNat + n) :
    fetchAfter pc0 n s = raise (.wordOverflow pc0 n) s := by
  rw [fetchAfter, wordAdd_of_overflow hn]
  rfl

theorem fetchAfter_of_busRead {v : Byte} (hn : pc0.toNat + n ≤ 0xFFFF)
    (h : busRead (pc0 + BitVec.ofNat 16 n) s.mem = .ok v) : fetchAfter pc0 n s = .ok (v, s) :=
  fetchAfter_of_read hn (reference_read_ok.mpr ⟨h, rfl⟩)

/-- Every address of PRGWIN names a cell, so it reads (20_memory.md R59). -/
theorem fetchAfter_of_prgWindow (hlow : 0x8000 ≤ pc0.toNat) (hn : pc0.toNat + n ≤ 0xFFFF) :
    ∃ v, fetchAfter pc0 n s = .ok (v, s) := by
  have haddr : 0x8000 ≤ (pc0 + BitVec.ofNat 16 n).toNat := by
    simp only [BitVec.toNat_add, BitVec.toNat_ofNat]
    omega
  exact ⟨_, fetchAfter_of_busRead hn (busRead_of_cell (busCell_of_window (.inr (.inr haddr))) s.mem)⟩

end

/-! ## The operand fetches, by the length of the instruction (40_fetch_decode_operands.md R92) -/

theorem modeLength_cases (mode : Mode) : modeLength mode = 1 ∨ modeLength mode = 2 ∨ modeLength mode = 3 := by
  cases mode <;> decide

section
variable {mode : Mode} {pc0 : Addr} {s : State} {env : Environment}

theorem fetchOperand_of_length_one (h : modeLength mode = 1) :
    fetchOperand mode pc0 s env = .ok (.nothing, s) := by
  cases mode with
  | implied | accumulator => rfl
  | immediate | zeropage | relative | absolute | indirect => cases h

theorem fetchOperand_of_length_two (h : modeLength mode = 2) :
    fetchOperand mode pc0 s env = fetchByteOperand pc0 s env := by
  cases mode with
  | immediate | zeropage | relative => rfl
  | implied | accumulator | absolute | indirect => cases h

theorem fetchOperand_of_length_three (h : modeLength mode = 3) :
    fetchOperand mode pc0 s env = fetchWordOperand pc0 s env := by
  cases mode with
  | absolute | indirect => rfl
  | implied | accumulator | immediate | zeropage | relative => cases h

/-- The first operand byte is fetched first. -/
theorem fetchOperand_of_firstFault {f : Fault} (hlen : 2 ≤ modeLength mode)
    (h : fetchAfter pc0 1 s env = .error f) : fetchOperand mode pc0 s env = .error f := by
  rcases modeLength_cases mode with h1 | h2 | h3
  · omega
  · simp only [fetchOperand_of_length_two h2, fetchByteOperand, h]
  · simp only [fetchOperand_of_length_three h3, fetchWordOperand, h]

theorem fetchOperand_of_secondFault {b1 : Byte} {s1 : State} {f : Fault} (hlen : modeLength mode = 3)
    (h1 : fetchAfter pc0 1 s env = .ok (b1, s1)) (h2 : fetchAfter pc0 2 s1 env = .error f) :
    fetchOperand mode pc0 s env = .error f := by
  simp only [fetchOperand_of_length_three hlen, fetchWordOperand, h1, h2]

/-- Operand bytes that lie in PRGWIN, up to its last one, are fetched. -/
theorem fetchOperand_of_prgWindow (hlow : 0x8000 ≤ pc0.toNat) (htop : pc0.toNat + modeLength mode ≤ 0x10000) :
    ∃ operand, fetchOperand mode pc0 s = .ok (operand, s) := by
  rcases modeLength_cases mode with h1 | h2 | h3
  · exact ⟨_, fetchOperand_of_length_one h1⟩
  · obtain ⟨b1, hb1 : fetchAfter pc0 1 s = _⟩ := fetchAfter_of_prgWindow (n := 1) (s := s) hlow (by omega)
    exact ⟨.byte b1, by simp only [fetchOperand_of_length_two h2, fetchByteOperand, hb1]⟩
  · obtain ⟨b1, hb1 : fetchAfter pc0 1 s = _⟩ := fetchAfter_of_prgWindow (n := 1) (s := s) hlow (by omega)
    obtain ⟨b2, hb2 : fetchAfter pc0 2 s = _⟩ := fetchAfter_of_prgWindow (n := 2) (s := s) hlow (by omega)
    exact ⟨.word (wordOf b2 b1), by simp only [fetchOperand_of_length_three h3, fetchWordOperand, hb1, hb2]⟩

end

/-! ## The decode phase -/

section
variable {table : Byte → OpCode} {s : State}

theorem decodeLatch_of_opcodeFault {c : FaultCause} (h : busRead s.pc s.mem = .error c) :
    decodeLatch table s = raise c s := by
  rw [decodeLatch, memRead_of_busFault h]
  rfl

variable {b0 : Byte} (hb : busRead s.pc s.mem = .ok b0) (hu : (table b0).op ≠ .unimplemented)
include hb hu

theorem decodeLatch_of_operandFault {f : Fault} (h : fetchOperand (table b0).mode s.pc s = .error f) :
    decodeLatch table s = .error f := by
  simp only [decodeLatch, memRead_ok.mpr ⟨hb, rfl⟩, if_neg hu, h]

/-- The advance of PC is computed last, after the operand fetches (40_fetch_decode_operands.md R93, R95). -/
theorem decodeLatch_of_advanceOverflow {operand : Operand}
    (ho : fetchOperand (table b0).mode s.pc s = .ok (operand, s))
    (h : 0xFFFF < s.pc.toNat + modeLength (table b0).mode) :
    decodeLatch table s = raise (.wordOverflow s.pc (modeLength (table b0).mode)) s := by
  simp only [decodeLatch, memRead_ok.mpr ⟨hb, rfl⟩, if_neg hu, ho, wordAdd_of_overflow h]
  rfl

theorem decodePhaseWith_of_operand {operand : Operand} (hh : s.halt = none)
    (ho : fetchOperand (table b0).mode s.pc s = .ok (operand, s))
    (hroom : s.pc.toNat + modeLength (table b0).mode ≤ 0xFFFF) :
    decodePhaseWith table s =
      .next (setIR (some ⟨(table b0).op, (table b0).mode, operand⟩)
        (setPC (s.pc + BitVec.ofNat 16 (modeLength (table b0).mode)) s)) := by
  have hpc := wordAdd_ok.mp (wordAdd_nat (s := s) hroom)
  rw [decodePhaseWith_running hh]
  exact outcome_next.mpr (decodeLatch_ok.mpr ⟨b0, operand, _, hb, hu, ho, hpc, rfl⟩)

end

/-- Settles O11, length by length: the operand fetches answer the bytes read, and the latch takes their operand. -/
theorem decodePhaseLatchesAndAdvances : Obligations.DecodePhaseLatchesAndAdvances := by
  intro s b0 hh hb hu (hroom : s.pc.toNat + modeLength (optable b0).mode ≤ 0xFFFF)
  have latched {operand : Operand} (ho : fetchOperand (optable b0).mode s.pc s = .ok (operand, s)) :=
    decodePhaseWith_of_operand hb hu hh ho hroom
  refine ⟨fun (hlen : modeLength _ = 1) => ?_, fun b1 (hlen : modeLength _ = 2) h1 => ?_,
    fun b1 b2 (hlen : modeLength _ = 3) h1 h2 => ?_⟩
  · have hphase := latched (fetchOperand_of_length_one hlen)
    rwa [hlen] at hphase
  · have hanswers : Answers .reference (s.pc + 1) [b1] s.mem s.mem := ⟨_, reference_read_ok.mpr ⟨h1, rfl⟩, rfl⟩
    have hphase := latched ((fetchOperand_of_length_two hlen).trans
      (fetchByteOperand_of_answers (by omega) hanswers))
    rwa [hlen] at hphase
  · have hsecond : busRead (s.pc + 1 + 1) s.mem = .ok b2 := (BitVec.add_assoc s.pc 1 1).symm ▸ h2
    have hanswers : Answers .reference (s.pc + 1) [b1, b2] s.mem s.mem :=
      ⟨_, reference_read_ok.mpr ⟨h1, rfl⟩, _, reference_read_ok.mpr ⟨hsecond, rfl⟩, rfl⟩
    have hphase := latched ((fetchOperand_of_length_three hlen).trans
      (fetchWordOperand_of_answers (by omega) hanswers))
    rwa [hlen] at hphase

/-- Settles O10, in the order of the phase: opcode fetch, table lookup, first and second operand byte, advance of PC. At
the top of memory the bytes before the one that overflows lie in PRGWIN, so their reads complete. -/
theorem decodePhaseFaultsInOrder : Obligations.DecodePhaseFaultsInOrder := by
  intro s hh
  have raises {c : FaultCause} (h : decodeLatch optable s = raise c s) : DecodeRaises s c :=
    decodeRaises_of_decodeLatch hh h
  refine ⟨fun c hc => raises (decodeLatch_of_opcodeFault hc), fun b0 hb =>
    ⟨fun hu => raises (decodeLatch_of_unlisted hb hu), fun hu => ?_⟩⟩
  have first {c : FaultCause} (hlen : 2 ≤ instructionLength b0) (h : fetchAfter s.pc 1 s = raise c s) :
      DecodeRaises s c := raises (decodeLatch_of_operandFault hb hu (fetchOperand_of_firstFault hlen h))
  have second {b1 : Byte} {c : FaultCause} (hlen : instructionLength b0 = 3)
      (h1 : fetchAfter s.pc 1 s = .ok (b1, s)) (h2 : fetchAfter s.pc 2 s = raise c s) : DecodeRaises s c :=
    raises (decodeLatch_of_operandFault hb hu (fetchOperand_of_secondFault hlen h1 h2))
  refine ⟨fun hlen hpc => ?_, fun c hlen hpc hc => ?_, fun hlen hpc => ?_, fun b1 c hlen hpc h1 hc => ?_,
    fun (hend : s.pc.toNat + modeLength _ = 0x10000) => ?_⟩
  · have htop : s.pc.toNat = 0xFFFF := congrArg BitVec.toNat hpc
    exact hpc ▸ first hlen (fetchAfter_of_overflow (n := 1) (by omega))
  · exact first hlen (fetchAfter_of_busFault (n := 1) (succ_le_of_ne_top hpc) hc)
  · have htop : s.pc.toNat = 0xFFFE := congrArg BitVec.toNat hpc
    obtain ⟨b1, h1⟩ := fetchAfter_of_prgWindow (pc0 := s.pc) (n := 1) (s := s) (by omega) (by omega)
    exact hpc ▸ second hlen h1 (fetchAfter_of_overflow (n := 2) (by omega))
  · exact second hlen (fetchAfter_of_busRead (n := 1) (by omega) h1)
      (fetchAfter_of_busFault (n := 2) (by omega) hc)
  · have hlow : 0x8000 ≤ s.pc.toNat := by
      have := modeLength_cases (optable b0).mode
      omega
    obtain ⟨_, ho⟩ := fetchOperand_of_prgWindow (s := s) hlow hend.le
    exact raises (decodeLatch_of_advanceOverflow hb hu ho (by omega))

/-! ## The result flags -/

/-- Zero has bit 7 clear. -/
theorem not_flagN_and_flagZ_of_nzOf {r : Byte} {t : State} (h : NZOf r t) : ¬(flagN t = true ∧ flagZ t = true) := by
  rintro ⟨hn, hz⟩
  obtain ⟨hflagN, hflagZ⟩ := h
  obtain rfl : r = 0 := of_decide_eq_true (hflagZ ▸ hz)
  cases hflagN.symm.trans hn

theorem nzOf_compare (r v : Byte) (s : State) : NZOf (r - v) (setC (carryOfCompare r v) (setNZ (r - v) s)) := by
  simp [NZOf]

/-- Equal bytes do not borrow (45_compare.md R145; log 6). -/
theorem carryOfCompare_of_sub_eq_zero {r v : Byte} (h : r - v = 0) : carryOfCompare r v = true := by
  obtain rfl : r = v := sub_eq_zero.mp h
  exact decide_eq_true le_rfl

theorem flagC_of_flagZ_compare {r v : Byte} {s : State}
    (hz : flagZ (setC (carryOfCompare r v) (setNZ (r - v) s)) = true) :
    flagC (setC (carryOfCompare r v) (setNZ (r - v) s)) = true := by
  rw [flagZ_setC, flagZ_setNZ] at hz
  rw [flagC_setC, carryOfCompare_of_sub_eq_zero (of_decide_eq_true hz)]

/-- Settles O22, by what each instruction goes on to: N and Z are those of one result byte. `nofun` stands where the
instruction does not set N and Z, and where it is no compare. -/
theorem resultFlagsAreConsistent : Obligations.ResultFlagsAreConsistent := by
  intro i s t h
  have hgoes := exec_goesOn h
  cases i with
  | aslAcc | lsrAcc | inx | dex | iny | dey | tax =>
    obtain rfl := hgoes
    exact ⟨fun _ => not_flagN_and_flagZ_of_nzOf (nzOf_setNZ _ _), nofun⟩
  | andImm | andZp | andAbs | ldaImm | ldaZp | ldaAbs | ldxImm | ldxZp | ldxAbs | ldyImm | ldyZp | ldyAbs | incZp
  | incAbs | decZp | decAbs =>
    obtain ⟨_, rfl⟩ := hgoes
    exact ⟨fun _ => not_flagN_and_flagZ_of_nzOf (nzOf_setNZ _ _), nofun⟩
  | cmpImm | cmpZp | cmpAbs | cpxImm | cpxZp | cpxAbs | cpyImm | cpyZp | cpyAbs =>
    obtain ⟨v, rfl⟩ := hgoes
    exact ⟨fun _ => not_flagN_and_flagZ_of_nzOf (nzOf_compare _ v s), fun _ => flagC_of_flagZ_compare⟩
  | staZp | staAbs | stxZp | stxAbs | styZp | styAbs | bcc | bcs | beq | bne | bpl | jmpAbs | jmpInd | jsr | rts | pha
  | cld | sei | txs | unimplemented => exact ⟨nofun, nofun⟩

/-! ## A pair outside the matrix -/

/-- Row by row of the matrix of 30_encoding.md R76: a mode outside the row gives no instruction with any operand. -/
theorem instrOfIr_of_foreignPair {op : Operation} {mode : Mode} (h : populatedPair op mode = false)
    (operand : Operand) : instrOfIr ⟨op, mode, operand⟩ = none := by
  cases op with
  | and | cmp | cpx | cpy | lda | ldx | ldy =>
    cases mode with
    | immediate | zeropage | absolute => cases h
    | accumulator | implied | indirect | relative => rfl
  | dec | inc | sta | stx | sty =>
    cases mode with
    | zeropage | absolute => cases h
    | immediate | accumulator | implied | indirect | relative => rfl
  | asl | lsr =>
    cases mode with
    | accumulator => cases h
    | immediate | zeropage | absolute | implied | indirect | relative => rfl
  | bcc | bcs | beq | bne | bpl =>
    cases mode with
    | relative => cases h
    | immediate | zeropage | absolute | accumulator | implied | indirect => rfl
  | cld | sei | tax | txs | pha | rts | dex | dey | inx | iny =>
    cases mode with
    | implied => cases h
    | immediate | zeropage | absolute | accumulator | indirect | relative => rfl
  | jmp =>
    cases mode with
    | absolute | indirect => cases h
    | immediate | zeropage | accumulator | implied | relative => rfl
  | jsr =>
    cases mode with
    | absolute => cases h
    | immediate | zeropage | accumulator | implied | indirect | relative => rfl
  | unimplemented => rfl

/-- Resolver misuse changes nothing but HALT (40_fetch_decode_operands.md R98). -/
theorem executeIr_of_foreignPair {op : Operation} {mode : Mode} (hu : op ≠ .unimplemented)
    (h : populatedPair op mode = false) (operand : Operand) (s : State) (env : Environment) :
    executeIr ⟨op, mode, operand⟩ s env = outcome (raise (.resolverMisuse op mode) s) := by
  simp only [executeIr, if_neg hu, instrOfIr_of_foreignPair h operand]

/-- Settles O49: the step executes the latched pair after the decode phase has advanced PC and execute emptied IR. -/
theorem foreignPairIsResolverMisuse : Obligations.ForeignPairIsResolverMisuse := by
  intro table s t b hh hb hu hpair hlatch
  obtain ⟨b0, operand, pc', hb0, _, ho, hpc, rfl⟩ := decodeLatch_ok.mp hlatch
  cases hb.symm.trans hb0
  rw [stepWith_of_fetch hh hb hu ho hpc, executeIr_of_foreignPair hu hpair]
  rfl

end Sys2Proof.Machine
end

section
/-! PROOFS. The family 41_control_transfer.md: the branches (O37), the two jumps (O38, O39), JSR (O40), RTS (O42) and
the return from a call (O43). -/

namespace Sys2Proof.Machine

/-! ## Branches -/

theorem address_relative_of_target {b : Byte} {s : State} {target : Addr}
    (h : (target.toNat : Int) = s.pc.toNat + b.toInt) (op : Operation) :
    address ⟨op, .relative, .byte b⟩ s = .ok (target, s) := by
  rw [address_relative, sext16_eq_toInt, wordAdd_ok.mpr h]
  rfl

theorem address_relative_of_overflow {b : Byte} {s : State}
    (h : (s.pc.toNat : Int) + b.toInt < 0 ∨ 0xFFFF < (s.pc.toNat : Int) + b.toInt) (op : Operation) :
    address ⟨op, .relative, .byte b⟩ s = raise (.wordOverflow s.pc b.toInt) s := by
  rw [address_relative, sext16_eq_toInt, wordAdd_error.mpr ⟨h, rfl⟩]
  rfl

/-- An instruction whose meaning is `Branch(cond)` (41_control_transfer.md R110). -/
theorem branchesWhen_of_branch {i : Byte → Instr} {cond : State → Bool} (op : Operation)
    (hi : ∀ b s, exec (i b) s = outcome (branch (cond s) ⟨op, .relative, .byte b⟩ s)) : BranchesWhen i cond := by
  refine fun b s => ⟨fun hc => ?_, fun hc target htarget => ?_, fun hc hout => ?_⟩ <;> rw [hi]
  · exact outcome_next.mpr (branch_ok.mpr (.inl ⟨hc, rfl⟩))
  · exact outcome_next.mpr (branch_ok.mpr (.inr ⟨hc, target, s, address_relative_of_target htarget op, rfl⟩))
  · exact outcome_fault.mpr (branch_error.mpr ⟨hc, address_relative_of_overflow hout op⟩)

/-- Settles O37: the five meanings are `Branch` of their condition. -/
theorem branchesTestTheirFlag : Obligations.BranchesTestTheirFlag :=
  ⟨branchesWhen_of_branch .bcc fun _ _ => rfl, branchesWhen_of_branch .bcs fun _ _ => rfl,
    branchesWhen_of_branch .beq fun _ _ => rfl, branchesWhen_of_branch .bne fun _ _ => rfl,
    branchesWhen_of_branch .bpl fun _ _ => rfl⟩

/-! ## Jumps -/

/-- Settles O38: the absolute operand is the target. -/
theorem jmpAbsoluteSetsPC : Obligations.JmpAbsoluteSetsPC :=
  fun w => ⟨rfl, fun s => outcome_next.mpr (jump_ok.mpr ⟨w, s, address_absolute .jmp w s .reference, rfl⟩)⟩

/-- The byte at 0xFFFF reads, in PRGWIN, but there is no address after it (40_fetch_decode_operands.md R100). -/
theorem indirectTarget_of_top (s : State) : indirectTarget 0xFFFF s = raise (.wordOverflow 0xFFFF 1) s := by
  have hlow := memRead_of_cell (busCell_of_window (addr := 0xFFFF) (.inr (.inr (by decide)))) s
  have hnext : wordAdd 0xFFFF 1 s = raise (.wordOverflow 0xFFFF 1) s := wordAdd_of_overflow (n := 1) (by decide) s
  simp only [indirectTarget, hlow, hnext]
  rfl

/-- Settles O39: the pointer reads of JMP indirect, in the environment whose reads leave the cells. -/
theorem jmpIndirectFollowsThePointer : Obligations.JmpIndirectFollowsThePointer := by
  intro ptr s
  obtain ⟨hfirst, hsecond⟩ := jmpInd_jumpsThrough ptr .reference s
  simp only [execIn_reference] at hfirst hsecond
  refine ⟨fun lo hi hptr hlo hhi => ?_, fun c hc => hfirst c (reference_read_error.mpr hc), ?_,
    fun lo c hptr hlo hc => ?_⟩
  · exact (hsecond lo s.mem hptr (reference_read_ok.mpr ⟨hlo, rfl⟩)).2 hi s.mem (reference_read_ok.mpr ⟨hhi, rfl⟩)
  · rintro rfl
    have htop : address ⟨.jmp, .indirect, .word 0xFFFF⟩ s = raise (.wordOverflow 0xFFFF 1) s :=
      indirectTarget_of_top s
    exact outcome_fault.mpr (jump_error.mpr htop)
  · exact (hsecond lo s.mem hptr (reference_read_ok.mpr ⟨hlo, rfl⟩)).1 c (reference_read_error.mpr hc)

/-! ## JSR -/

theorem toNat_sub_one_add_one {w : Addr} (h : 1 ≤ w.toNat) : (w - 1).toNat + 1 = w.toNat := by bv_omega

/-- Different values of SP designate different cells (10_state.md R24). -/
theorem busCell_stackAddr_ne {p q : Byte} (h : p ≠ q) : busCell (stackAddr p) ≠ busCell (stackAddr q) := by
  simpa [BitVec.toNat_inj] using h

/-- A push stores its byte in the cell SP designates (42_stack.md R126). -/
theorem storedOnly_of_push {v : Byte} {s t : State} (h : push v s = .ok t) : StoredOnly (stackAddr s.sp) v s t := by
  obtain ⟨m, hwrite, rfl⟩ := push_env_ok.mp h
  have hstored : StoredOnly (stackAddr s.sp) v s (setMem m s) :=
    storedOnly_of_memWrite (memWrite_env_ok.mpr ⟨m, hwrite, rfl⟩)
  exact hstored

/-- Settles O40: the two pushes of PC - 1 lie in different cells, so the second leaves the first. -/
theorem jsrPushesTheReturnAddress : Obligations.JsrPushesTheReturnAddress := by
  intro w s hpc
  have hret : wordAdd s.pc (-1) s = .ok (s.pc - 1) := by
    rw [wordAdd_ok, ← toNat_sub_one_add_one hpc]
    omega
  have hpush1 := push_eq (highByte (s.pc - 1)) s
  have hpush2 := push_eq (lowByte (s.pc - 1)) 
    (setSP (s.sp - 1) (setMem (cellSet s.mem (0x100 + s.sp.toNat) (highByte (s.pc - 1))) s))
  obtain ⟨hhigh, hframe1⟩ := storedOnly_of_push hpush1
  obtain ⟨hlow, hframe2⟩ := storedOnly_of_push hpush2
  have hcells : busCell (stackAddr s.sp) ≠ busCell (stackAddr (s.sp - 1)) := busCell_stackAddr_ne (by bv_omega)
  refine ⟨_, outcome_next.mpr (callSubroutine_env_ok.mpr ⟨_, _, _, hret, hpush1, hpush2, rfl⟩), rfl, ?_,
    fun a ha => ?_, hlow, fun a ha1 ha2 => (hframe2 a ha2).trans (hframe1 a ha1), rfl, rfl, rfl, rfl, rfl, rfl⟩
  · simp only [setPC_sp, setSP_sp]
    bv_omega
  · exact (hframe2 a (ha.trans_ne hcells)).trans (hhigh a ha)

/-! ## RTS -/

/-- A read of the stack never faults (20_memory.md R52). -/
theorem stackAddr_reads (sp : Byte) (m : Memory) : ∃ v, busRead (stackAddr sp) m = .ok v :=
  ⟨_, busRead_of_cell (busCell_stackAddr sp) m⟩

theorem pop_of_busRead {v : Byte} {s : State} (h : busRead (stackAddr (s.sp + 1)) s.mem = .ok v) :
    pop s = .ok (v, setSP (s.sp + 1) s) := memRead_ok.mpr ⟨h, rfl⟩

/-- RTS pops the low byte, then the high byte, and returns past their Word (41_control_transfer.md R119). -/
theorem exec_rts_of_busReads {lo hi : Byte} {s : State} (hlo : busRead (stackAddr (s.sp + 1)) s.mem = .ok lo)
    (hhi : busRead (stackAddr (s.sp + 2)) s.mem = .ok hi) :
    exec .rts s =
      outcome ((wordAdd (wordOf hi lo) 1 (setSP (s.sp + 2) s)).map (setPC · (setSP (s.sp + 2) s))) := by
  have hsp : s.sp + 1 + 1 = s.sp + 2 := BitVec.add_assoc s.sp 1 1
  have hpop : pop (setSP (s.sp + 1) s) = .ok (hi, setSP (s.sp + 2) s) := hsp ▸ pop_of_busRead (hsp ▸ hhi)
  simp only [exec, execRts, returnFromSubroutine, pop_of_busRead hlo, hpop]
  cases wordAdd (wordOf hi lo) 1 (setSP (s.sp + 2) s) <;> rfl

/-- Settles O42: both pops read the stack page, which never faults; only the sum can. -/
theorem rtsReturnsPastThePoppedAddress : Obligations.RtsReturnsPastThePoppedAddress := by
  intro s
  obtain ⟨lo, hlo⟩ := stackAddr_reads (s.sp + 1) s.mem
  obtain ⟨hi, hhi⟩ := stackAddr_reads (s.sp + 2) s.mem
  refine ⟨lo, hi, hlo, hhi, fun hne => ?_, fun htop => ?_⟩ <;> rw [exec_rts_of_busReads hlo hhi]
  · have hnext : wordAdd (wordOf hi lo) 1 (setSP (s.sp + 2) s) = .ok (wordOf hi lo + 1) :=
      wordAdd_nat (n := 1) (succ_le_of_ne_top hne)
    rw [hnext]
    exact ⟨_, rfl, Int.ofNat.inj (wordAdd_ok.mp hnext), BitVec.toNat_add _ _, rfl, rfl, rfl, rfl, ⟨rfl, rfl⟩,
      fun _ => rfl⟩
  · have hover : wordAdd 0xFFFF 1 (setSP (s.sp + 2) s) = raise (.wordOverflow 0xFFFF 1) (setSP (s.sp + 2) s) :=
      wordAdd_of_overflow (n := 1) (by decide) _
    rw [htop, hover]
    rfl

/-- Settles O43: RTS pops from the two cells that JSR pushed to, and the Word there is one below the JSR's next byte. -/
theorem rtsAfterJsrResumesAfterTheCall : Obligations.RtsAfterJsrResumesAfterTheCall := by
  intro s t u w hpc hjsr hsp hread1 hread2
  obtain ⟨t', hjsr', _, hsp', hhigh, hlow, _⟩ := jsrPushesTheReturnAddress w s hpc
  obtain rfl : t' = t := Host.Outcome.next.inj (hjsr'.symm.trans hjsr)
  have hsp1 : u.sp + 1 = s.sp - 1 := by bv_omega
  have hsp2 : u.sp + 2 = s.sp := by bv_omega
  have hlo := hread1.trans (hlow _ (by rw [hsp1]))
  have hhi := hread2.trans (hhigh _ (by rw [hsp2]))
  have hresume : wordAdd (s.pc - 1) 1 (setSP s.sp u) = .ok s.pc := by
    rw [wordAdd_ok, ← toNat_sub_one_add_one hpc]
    rfl
  rw [exec_rts_of_busReads hlo hhi, wordOf_high_low, hsp2, hresume]
  rfl

end Sys2Proof.Machine
end

section
/-! PROOFS. The family 42_stack.md: Push and Pop (O28), PHA (O44), and PHA, JSR and RTS in any memory environment
(O58). -/

namespace Sys2Proof.Machine

/-! ## Push and Pop, in the reference environment -/

/-- The stack page is page 1 (10_state.md R24). -/
theorem stackAddr_toNat (sp : Byte) : (stackAddr sp).toNat = 0x0100 + sp.toNat := wordOf_toNat 0x01 sp

/-- Pop reads the cell that Push wrote, once SP is back on it (42_stack.md R126, R127). -/
theorem pop_of_push {v : Byte} {s t : State} (h : push v s = .ok t) : pop t = .ok (v, setSP s.sp t) := by
  obtain ⟨m, _, ht⟩ := push_env_ok.mp h
  have hsp : t.sp + 1 = s.sp := ht ▸ BitVec.sub_add_cancel s.sp 1
  have hread : busRead (stackAddr (t.sp + 1)) t.mem = .ok v := (storedOnly_of_push h).1 _ (by rw [hsp])
  exact hsp ▸ pop_of_busRead hread

/-- Settles O28: one cell is written, SP moves down, and Pop moves it up again before it reads. -/
theorem popAfterPushReturnsTheByte : Obligations.PopAfterPushReturnsTheByte := fun v s =>
  have hpush := push_eq v s
  ⟨_, _, hpush, stackAddr_toNat s.sp, storedOnly_of_push hpush, decrement_toNat s.sp, rfl, rfl, rfl, rfl, rfl,
    ⟨rfl, rfl⟩, pop_of_push hpush, rfl⟩

/-- Settles O44: PHA is `Push(A)`. -/
theorem phaPushesA : Obligations.PhaPushesA := by
  intro s
  obtain ⟨t, _, hpush, _, hstored, hsp, ha, hx, hy, hstatus, hpc, hlatches, _⟩ := popAfterPushReturnsTheByte s.a s
  exact ⟨t, outcome_next.mpr hpush, hstored, hsp, ha, hx, hy, hstatus, hpc, hlatches⟩

/-! ## JSR and RTS, in any memory environment -/

/-- Every Word but 0 has one below it (40_fetch_decode_operands.md R90). -/
theorem wordAdd_neg_one {w : Addr} (hw : 1 ≤ w.toNat) (s : State) : wordAdd w (-1) s = .ok (w - 1) := by
  rw [wordAdd_ok, ← toNat_sub_one_add_one hw]
  omega

theorem sub_one_sub_one (sp : Byte) : sp - 1 - 1 = sp - 2 := by bv_omega

theorem add_one_add_one (sp : Byte) : sp + 1 + 1 = sp + 2 := BitVec.add_assoc sp 1 1

section
variable {env : Environment} {s : State}

/-- A fault of JSR's first push leaves SP (41_control_transfer.md R118). -/
theorem execIn_jsr_of_highFault {c : FaultCause} (w : Addr) (hpc : 1 ≤ s.pc.toNat)
    (hhigh : env.write (stackAddr s.sp) (highByte (s.pc - 1)) s.mem = .error c) :
    execIn (.jsr w) s env = .fault (.raised c (setHalt (some c) s)) :=
  outcome_fault.mpr (callSubroutine_env_error.mpr
    (.inr ⟨_, wordAdd_neg_one hpc s, .inl (push_env_error.mpr ⟨c, hhigh, rfl⟩)⟩))

/-- A fault of JSR's second push leaves the first one done. -/
theorem execIn_jsr_of_lowFault {m : Memory} {c : FaultCause} (w : Addr) (hpc : 1 ≤ s.pc.toNat)
    (hhigh : env.write (stackAddr s.sp) (highByte (s.pc - 1)) s.mem = .ok m)
    (hlow : env.write (stackAddr (s.sp - 1)) (lowByte (s.pc - 1)) m = .error c) :
    execIn (.jsr w) s env = .fault (.raised c (setHalt (some c) (setSP (s.sp - 1) (setMem m s)))) :=
  outcome_fault.mpr (callSubroutine_env_error.mpr
    (.inr ⟨_, wordAdd_neg_one hpc s, .inr ⟨_, push_env_ok.mpr ⟨m, hhigh, rfl⟩, push_env_error.mpr ⟨c, hlow, rfl⟩⟩⟩))

theorem execIn_jsr_of_writes {m m' : Memory} (w : Addr) (hpc : 1 ≤ s.pc.toNat)
    (hhigh : env.write (stackAddr s.sp) (highByte (s.pc - 1)) s.mem = .ok m)
    (hlow : env.write (stackAddr (s.sp - 1)) (lowByte (s.pc - 1)) m = .ok m') :
    execIn (.jsr w) s env = .next (setPC w (setSP (s.sp - 2) (setMem m' s))) := by
  rw [← sub_one_sub_one]
  exact outcome_next.mpr (callSubroutine_env_ok.mpr
    ⟨_, _, _, wordAdd_neg_one hpc s, push_env_ok.mpr ⟨m, hhigh, rfl⟩, push_env_ok.mpr ⟨m', hlow, rfl⟩, rfl⟩)

/-- A fault of RTS's first pop has moved SP once (41_control_transfer.md R119). -/
theorem execIn_rts_of_lowFault {c : FaultCause} (hlow : env.read (stackAddr (s.sp + 1)) s.mem = .error c) :
    execIn .rts s env = .fault (.raised c (setHalt (some c) (setSP (s.sp + 1) s))) :=
  outcome_fault.mpr (returnFromSubroutine_env_error.mpr (.inl (pop_env_error.mpr ⟨c, hlow, rfl⟩)))

/-- A fault of RTS's second pop has moved SP twice. -/
theorem execIn_rts_of_highFault {lo : Byte} {m : Memory} {c : FaultCause}
    (hlow : env.read (stackAddr (s.sp + 1)) s.mem = .ok (lo, m))
    (hhigh : env.read (stackAddr (s.sp + 2)) m = .error c) :
    execIn .rts s env = .fault (.raised c (setHalt (some c) (setSP (s.sp + 2) (setMem m s)))) := by
  rw [← add_one_add_one] at hhigh ⊢
  exact outcome_fault.mpr (returnFromSubroutine_env_error.mpr
    (.inr ⟨lo, _, pop_env_ok.mpr ⟨m, hlow, rfl⟩, .inl (pop_env_error.mpr ⟨c, hhigh, rfl⟩)⟩))

theorem execIn_rts_of_reads {lo hi : Byte} {m m' : Memory} (hlow : env.read (stackAddr (s.sp + 1)) s.mem = .ok (lo, m))
    (hhigh : env.read (stackAddr (s.sp + 2)) m = .ok (hi, m')) (hne : wordOf hi lo ≠ 0xFFFF) :
    execIn .rts s env = .next (setPC (wordOf hi lo + 1) (setSP (s.sp + 2) (setMem m' s))) := by
  rw [← add_one_add_one] at hhigh ⊢
  exact outcome_next.mpr (returnFromSubroutine_env_ok.mpr
    ⟨lo, hi, _, _, _, pop_env_ok.mpr ⟨m, hlow, rfl⟩, pop_env_ok.mpr ⟨m', hhigh, rfl⟩,
      wordAdd_nat (n := 1) (succ_le_of_ne_top hne), rfl⟩)

end

/-- Settles O58: PHA is one push, JSR two pushes, RTS two pops; what each leaves is what the accesses before the fault
have done. -/
theorem stackAccessesGoThroughTheEnvironment : Obligations.StackAccessesGoThroughTheEnvironment := fun _ _ =>
  ⟨fun m hwrite => outcome_next.mpr (push_env_ok.mpr ⟨m, hwrite, rfl⟩),
    fun c hwrite => outcome_fault.mpr (push_env_error.mpr ⟨c, hwrite, rfl⟩),
    fun w _ => execIn_jsr_of_highFault w, fun w _ _ => execIn_jsr_of_lowFault w, fun w _ _ => execIn_jsr_of_writes w,
    fun _ => execIn_rts_of_lowFault, fun _ _ _ => execIn_rts_of_highFault, fun _ _ _ _ => execIn_rts_of_reads⟩

end Sys2Proof.Machine
end

section
/-! PROOFS. The family 43_shift_logic.md: AND in its three modes (O31) and the two shifts of A (O29, O30). -/

namespace Sys2Proof.Machine

/-! ## The three forms of a value operand, from the immediate one -/

/-- In the reference environment, whose reads change no cell, the data read comes before the work of the immediate
form (40_fetch_decode_operands.md R96). -/
theorem readsThen_of_readsThrough {i : Instr} {imm : Byte → Instr} {addr : Addr} {effect : Byte → State → State → Prop}
    (himm : ∀ b s, ∃ t, exec (imm b) s = .next t ∧ effect b s t) (h : ReadsThrough i imm addr) :
    ReadsThen i addr effect := by
  intro s
  obtain ⟨hok, herr⟩ := h .reference s
  simp only [execIn_reference] at hok herr
  refine ⟨fun v hread => ?_, fun c hread => herr c (reference_read_error.mpr hread)⟩
  rw [hok v s.mem (reference_read_ok.mpr ⟨hread, rfl⟩)]
  exact himm v s

/-- The zero page is page 0 (30_encoding.md R73). -/
theorem zeroPageAddr_toNat (b : Byte) : (zeroPageAddr b).toNat = b.toNat := by simp [zeroPageAddr, wordOf_toNat]

theorem valueForms_of_readsThrough {imm zp : Byte → Instr} {abs : Addr → Instr} {effect : Byte → State → State → Prop}
    (himm : ∀ b s, ∃ t, exec (imm b) s = .next t ∧ effect b s t) (h : BothForms zp abs (ReadsThrough · imm)) :
    ValueForms imm zp abs effect := by
  obtain ⟨hzp, habs⟩ := h
  exact ⟨himm, fun b => ⟨zeroPageAddr_toNat b, readsThen_of_readsThrough himm (hzp b)⟩,
    fun w => readsThen_of_readsThrough himm (habs w)⟩

/-! ## AND -/

/-- What SetNZ leaves; a register written beside it is no part of the effect. -/
theorem resultEffect_setNZ (v : Byte) (s : State) : ResultEffect v s (setNZ v s) :=
  ⟨nzOf_setNZ v s, sameFlagsExcept_setNZ v s, rfl, ⟨rfl, rfl⟩, fun _ => rfl⟩

theorem exec_andImm (b : Byte) (s : State) :
    exec (.andImm b) s = .next (setNZ (s.a &&& b) (setA (s.a &&& b) s)) :=
  outcome_next.mpr (andA_ok.mpr ⟨b, s, value_immediate .and b s .reference, rfl⟩)

/-- Settles O31: the read forms are the immediate form after one data read. -/
theorem andMasksA : Obligations.AndMasksA := by
  obtain ⟨hreads, _⟩ := dataAccessesGoThroughTheEnvironment
  refine valueForms_of_readsThrough (fun b s => ?_) hreads
  exact ⟨_, exec_andImm b s, fun _ => BitVec.getLsbD_and, rfl, rfl, rfl, resultEffect_setNZ (s.a &&& b) s⟩

/-! ## The shifts -/

/-- A is no memory operand: the shift of the accumulator always completes (40_fetch_decode_operands.md R96). -/
theorem exec_aslAcc (s : State) :
    exec .aslAcc s = .next (setNZ (s.a <<< 1) (setA (s.a <<< 1) (setC (carryOfLeftShift s.a) s))) := rfl

theorem exec_lsrAcc (s : State) :
    exec .lsrAcc s = .next (setNZ (s.a >>> 1) (setA (s.a >>> 1) (setC (carryOfRightShift s.a) s))) := rfl

theorem shiftLeft_one_toNat (v : Byte) : (v <<< 1).toNat = (2 * v.toNat) % 256 := by
  rw [BitVec.toNat_shiftLeft, Nat.shiftLeft_eq, Nat.mul_comm]

theorem shiftRight_one_toNat (v : Byte) : (v >>> 1).toNat = v.toNat / 2 := by
  rw [BitVec.toNat_ushiftRight, Nat.shiftRight_one]

/-- A byte shifted right has bit 7 clear. -/
theorem shiftRight_one_getLsbD_seven (v : Byte) : (v >>> 1).getLsbD 7 = false := by
  rw [BitVec.getLsbD_ushiftRight, BitVec.getLsbD_of_ge _ _ (by decide)]

/-- A shift writes bits 7, 1 and 0 of S and no other, and of the registers A alone (43_shift_logic.md R130, R131). -/
theorem sameFlagsExcept_shift (v : Byte) (c : Bool) (s : State) :
    SameFlagsExcept [0, 1, 7] s (setNZ v (setA v (setC c s))) := by
  intro j hj
  obtain ⟨h0, h1, h7⟩ : j ≠ 0 ∧ j ≠ 1 ∧ j ≠ 7 := by simpa using hj
  rw [setNZ_bit, if_neg h1, if_neg h7, setA_status, setC_bit, if_neg h0]

theorem flagC_shift (v : Byte) (c : Bool) (s : State) : flagC (setNZ v (setA v (setC c s))) = c := by
  rw [flagC_setNZ, flagC_setA, flagC_setC]

/-- Settles O29: the bit shifted out is the carry, and the result sets N and Z. -/
theorem aslShiftsALeft : Obligations.AslShiftsALeft := fun s =>
  ⟨_, exec_aslAcc s, shiftLeft_one_toNat s.a, flagC_shift _ _ s, nzOf_setNZ _ _, sameFlagsExcept_shift _ _ s,
    rfl, rfl, rfl, rfl, ⟨rfl, rfl⟩, fun _ => rfl⟩

/-- Settles O30, likewise; N is the bit 7 that the shift has cleared. -/
theorem lsrShiftsARight : Obligations.LsrShiftsARight := fun s =>
  ⟨_, exec_lsrAcc s, shiftRight_one_toNat s.a, flagC_shift _ _ s,
    (flagN_setNZ _ _).trans (shiftRight_one_getLsbD_seven s.a), nzOf_setNZ _ _, sameFlagsExcept_shift _ _ s,
    rfl, rfl, rfl, rfl, ⟨rfl, rfl⟩, fun _ => rfl⟩

end Sys2Proof.Machine
end

section
/-! PROOFS. The family 44_load_store.md: the three loads (O32) and the three stores (O33). -/

namespace Sys2Proof.Machine

/-! ## Loads -/

/-- The immediate form reads no memory, so it completes in every state (40_fetch_decode_operands.md R96). -/
theorem loadInto_immediate (write : Byte → State → State) (op : Operation) (b : Byte) (s : State) :
    outcome (loadInto write ⟨op, .immediate, .byte b⟩ s) = .next (write b (setNZ b s)) :=
  outcome_next.mpr (loadInto_ok.mpr ⟨b, s, value_immediate op b s .reference, rfl⟩)

/-- Settles O32: the read forms are the immediate form after one data read, and the register written after SetNZ is no
part of its effect. -/
theorem loadsFillTheirRegister : Obligations.LoadsFillTheirRegister := by
  obtain ⟨_, _, _, _, hlda, hldx, hldy, _⟩ := dataAccessesGoThroughTheEnvironment
  refine ⟨valueForms_of_readsThrough (fun b s => ?lda) hlda, valueForms_of_readsThrough (fun b s => ?ldx) hldx,
    valueForms_of_readsThrough (fun b s => ?ldy) hldy⟩
  case lda => exact ⟨_, loadInto_immediate setA .lda b s, rfl, rfl, rfl, rfl, resultEffect_setNZ b s⟩
  case ldx => exact ⟨_, loadInto_immediate setX .ldx b s, rfl, rfl, rfl, rfl, resultEffect_setNZ b s⟩
  case ldy => exact ⟨_, loadInto_immediate setY .ldy b s, rfl, rfl, rfl, rfl, resultEffect_setNZ b s⟩

/-! ## Stores -/

/-- In the reference environment the address alone decides whether the one write completes (20_memory.md R51), and a
write that does changes one cell. -/
theorem storesAt_of_storesThrough {i : Instr} {instr : Ir} {addr : Addr} {reg : State → Byte}
    (haddr : ∀ s, address instr s = .ok (addr, s)) (h : StoresThrough i addr reg) : StoresAt i instr addr reg := by
  intro s
  obtain ⟨hok, herr⟩ := h .reference s
  simp only [execIn_reference, reference_write] at hok herr
  refine ⟨haddr s, fun k hk => ?_, fun c hc => herr c (bus_faults hc (reg s) s.mem).2⟩
  have hwrite := memWrite_of_cell hk (reg s) s
  exact ⟨_, hok _ (busWrite_of_cell hk (reg s) s.mem), storedOnly_of_memWrite hwrite, memWrite_keeps hwrite⟩

theorem storeForms_of_storesThrough {zp : Byte → Instr} {abs : Addr → Instr} {reg : State → Byte} (op : Operation)
    (h : BothForms zp abs (StoresThrough · · reg)) : StoreForms zp abs op reg := by
  obtain ⟨hzp, habs⟩ := h
  exact ⟨fun b => ⟨zeroPageAddr_toNat b, storesAt_of_storesThrough (address_zeropage op b · .reference) (hzp b)⟩,
    fun w => storesAt_of_storesThrough (address_absolute op w · .reference) (habs w)⟩

/-- Settles O33: a store is one data write at the resolved address. -/
theorem storesWriteTheirRegister : Obligations.StoresWriteTheirRegister := by
  obtain ⟨_, _, _, _, _, _, _, hsta, hstx, hsty, _⟩ := dataAccessesGoThroughTheEnvironment
  exact ⟨storeForms_of_storesThrough .sta hsta, storeForms_of_storesThrough .stx hstx,
    storeForms_of_storesThrough .sty hsty⟩

end Sys2Proof.Machine
end

section
/-! PROOFS. The family 45_compare.md: the three compares (O34). -/

namespace Sys2Proof.Machine

/-- The difference modulo 256 (45_compare.md R145). -/
theorem sub_toNat (r v : Byte) : (r - v).toNat = (r.toNat + (256 - v.toNat)) % 256 := by
  rw [BitVec.toNat_sub, Nat.add_comm]

/-- Z of the difference says the two bytes are equal (45_compare.md R145). -/
theorem flagZ_compare (r v : Byte) (s : State) :
    flagZ (setC (carryOfCompare r v) (setNZ (r - v) s)) = decide (r = v) := by
  rw [flagZ_setC, flagZ_setNZ]
  exact decide_eq_decide.mpr sub_eq_zero

/-- A compare writes bits 7, 1 and 0 of S and no other (45_compare.md R145). -/
theorem sameFlagsExcept_compare (v : Byte) (c : Bool) (s : State) :
    SameFlagsExcept [0, 1, 7] s (setC c (setNZ v s)) := by
  intro j hj
  obtain ⟨h0, h1, h7⟩ : j ≠ 0 ∧ j ≠ 1 ∧ j ≠ 7 := by simpa using hj
  rw [setC_bit, if_neg h0, setNZ_bit, if_neg h1, if_neg h7]

theorem compareEffect_compare (reg : State → Byte) (v : Byte) (s : State) :
    CompareEffect reg v s (setC (carryOfCompare (reg s) v) (setNZ (reg s - v) s)) :=
  ⟨⟨_, sub_toNat (reg s) v, nzOf_compare (reg s) v s⟩, flagZ_compare (reg s) v s, flagC_setC _ _,
    sameFlagsExcept_compare _ _ s, ⟨rfl, rfl, rfl, rfl⟩, rfl, ⟨rfl, rfl⟩, fun _ => rfl⟩

/-- The immediate form reads no memory, so it completes in every state (40_fetch_decode_operands.md R96). -/
theorem compareWith_immediate (r : Byte) (op : Operation) (b : Byte) (s : State) :
    outcome (compareWith r ⟨op, .immediate, .byte b⟩ s) = .next (setC (carryOfCompare r b) (setNZ (r - b) s)) :=
  outcome_next.mpr (compareWith_ok.mpr ⟨b, s, value_immediate op b s .reference, rfl⟩)

/-- Settles O34: the read forms are the immediate form after one data read, and the three compares differ in the
register alone. -/
theorem comparesSetFlagsOnly : Obligations.ComparesSetFlagsOnly := by
  obtain ⟨_, hcmp, hcpx, hcpy, _⟩ := dataAccessesGoThroughTheEnvironment
  refine ⟨valueForms_of_readsThrough (fun b s => ?cmp) hcmp, valueForms_of_readsThrough (fun b s => ?cpx) hcpx,
    valueForms_of_readsThrough (fun b s => ?cpy) hcpy⟩
  case cmp => exact ⟨_, compareWith_immediate s.a .cmp b s, compareEffect_compare State.a b s⟩
  case cpx => exact ⟨_, compareWith_immediate s.x .cpx b s, compareEffect_compare State.x b s⟩
  case cpy => exact ⟨_, compareWith_immediate s.y .cpy b s, compareEffect_compare State.y b s⟩

end Sys2Proof.Machine
end

section
/-! PROOFS. The family 46_incdec.md: INC and DEC in memory (O35), and the four steps of an index register (O36). -/

namespace Sys2Proof.Machine

/-! ## INC and DEC -/

/-- In the reference environment a read that completes names a cell, so the write after it completes too and changes
that cell alone (20_memory.md R51). -/
theorem modifiesAt_of_modifiesThrough {i : Instr} {instr : Ir} {addr : Addr} {delta : Nat}
    (haddr : ∀ s, address instr s = .ok (addr, s)) (h : ModifiesThrough i addr delta) :
    ModifiesAt i instr addr delta := by
  intro s
  obtain ⟨herr, hok⟩ := h .reference s
  simp only [execIn_reference, reference_write] at herr hok
  refine ⟨haddr s, fun v hread => ?_, fun c hread => herr c (reference_read_error.mpr hread)⟩
  obtain ⟨k, hk, _⟩ := busRead_eq_ok.mp hread
  have hr : (BitVec.ofNat 8 (v.toNat + delta)).toNat = (v.toNat + delta) % 256 := BitVec.toNat_ofNat _ _
  have hnext := (hok v _ s.mem (reference_read_ok.mpr ⟨hread, rfl⟩) hr).1 _ (busWrite_of_cell hk _ s.mem)
  have hwrite := memWrite_of_cell hk (BitVec.ofNat 8 (v.toNat + delta)) s
  obtain ⟨hstored, hothers⟩ := storedOnly_of_memWrite hwrite
  obtain ⟨hregisters, _, hpc, hlatches⟩ := memWrite_keeps hwrite
  exact ⟨_, _, hnext, hr, ⟨hstored, hothers⟩, nzOf_setNZ _ _, sameFlagsExcept_setNZ _ _, hregisters, hpc, hlatches⟩

theorem modifyForms_of_modifiesThrough {zp : Byte → Instr} {abs : Addr → Instr} {delta : Nat} (op : Operation)
    (h : BothForms zp abs (ModifiesThrough · · delta)) : ModifyForms zp abs op delta := by
  obtain ⟨hzp, habs⟩ := h
  exact ⟨fun b => ⟨zeroPageAddr_toNat b, modifiesAt_of_modifiesThrough (address_zeropage op b · .reference) (hzp b)⟩,
    fun w => modifiesAt_of_modifiesThrough (address_absolute op w · .reference) (habs w)⟩

/-- Settles O35: INC and DEC are one data read, then one data write at the same address. -/
theorem incAndDecModifyMemory : Obligations.IncAndDecModifyMemory := by
  obtain ⟨_, _, _, _, _, _, _, _, _, _, hinc, hdec, _⟩ := dataAccessesGoThroughTheEnvironment
  exact ⟨modifyForms_of_modifiesThrough .inc hinc, modifyForms_of_modifiesThrough .dec hdec⟩

/-! ## The index registers -/

theorem exec_inx (s : State) : exec .inx s = .next (setNZ (increment s.x) (setX (increment s.x) s)) := rfl

theorem exec_dex (s : State) : exec .dex s = .next (setNZ (decrement s.x) (setX (decrement s.x) s)) := rfl

theorem exec_iny (s : State) : exec .iny s = .next (setNZ (increment s.y) (setY (increment s.y) s)) := rfl

theorem exec_dey (s : State) : exec .dey s = .next (setNZ (decrement s.y) (setY (decrement s.y) s)) := rfl

/-- Settles O36: the register written before SetNZ is no part of its effect. -/
theorem indexRegistersStepByOne : Obligations.IndexRegistersStepByOne := by
  refine ⟨fun s => ?inx, fun s => ?dex, fun s => ?iny, fun s => ?dey⟩
  case inx => exact ⟨_, exec_inx s, increment_toNat s.x, rfl, rfl, rfl, resultEffect_setNZ (increment s.x) s⟩
  case dex => exact ⟨_, exec_dex s, decrement_toNat s.x, rfl, rfl, rfl, resultEffect_setNZ (decrement s.x) s⟩
  case iny => exact ⟨_, exec_iny s, increment_toNat s.y, rfl, rfl, rfl, resultEffect_setNZ (increment s.y) s⟩
  case dey => exact ⟨_, exec_dey s, decrement_toNat s.y, rfl, rfl, rfl, resultEffect_setNZ (decrement s.y) s⟩

end Sys2Proof.Machine
end

section
/-! PROOFS. The family 47_flag_transfer.md: CLD and SEI (O45), TAX (O46) and TXS (O47). -/

namespace Sys2Proof.Machine

theorem exec_cld (s : State) : exec .cld s = .next (setD false s) := rfl

theorem exec_sei (s : State) : exec .sei s = .next (setI true s) := rfl

theorem exec_tax (s : State) : exec .tax s = .next (setNZ s.a (setX s.a s)) := rfl

theorem exec_txs (s : State) : exec .txs s = .next (setSP s.x s) := rfl

theorem sameFlagsExcept_setD (b : Bool) (s : State) : SameFlagsExcept [3] s (setD b s) := by
  intro j hj
  rw [setD_bit, if_neg (List.ne_of_not_mem_cons hj)]

theorem sameFlagsExcept_setI (b : Bool) (s : State) : SameFlagsExcept [2] s (setI b s) := by
  intro j hj
  rw [setI_bit, if_neg (List.ne_of_not_mem_cons hj)]

/-- Settles O45: each is one bit write, which no register, latch or cell sees. -/
theorem cldAndSeiWriteOneFlag : Obligations.CldAndSeiWriteOneFlag := by
  refine ⟨fun s => ?cld, fun s => ?sei⟩
  case cld =>
    exact ⟨_, exec_cld s, flagD_setD false s, sameFlagsExcept_setD false s, ⟨rfl, rfl, rfl, rfl⟩, rfl, ⟨rfl, rfl⟩,
      fun _ => rfl⟩
  case sei =>
    exact ⟨_, exec_sei s, flagI_setI true s, sameFlagsExcept_setI true s, ⟨rfl, rfl, rfl, rfl⟩, rfl, ⟨rfl, rfl⟩,
      fun _ => rfl⟩

/-- Settles O46: X, written before SetNZ, is no part of its effect. -/
theorem taxCopiesAToX : Obligations.TaxCopiesAToX :=
  fun s => ⟨_, exec_tax s, rfl, rfl, rfl, rfl, resultEffect_setNZ s.a s⟩

/-- Settles O47: the one register write is the whole meaning. -/
theorem txsCopiesXToSP : Obligations.TxsCopiesXToSP :=
  fun s => ⟨_, exec_txs s, rfl, rfl, rfl, rfl, rfl, rfl, ⟨rfl, rfl⟩, fun _ => rfl⟩

end Sys2Proof.Machine
end

section
/-! PROOFS. The family 60_exceptions.md: what the two phases answer in any environment, what a fault leaves (O14), the
host between the phases (O15), and JSR at PC 0 (O41). -/

namespace Sys2Proof.Machine

/-! ## The step, from the answer of its decode phase -/

section
variable {table : Byte → OpCode} {s t : State} {env : Environment}

theorem halt_of_decodePhaseWith_next (h : decodePhaseWith table s env = .next t) : s.halt = none := by
  cases hh : s.halt with
  | none => rfl
  | some c => simp only [decodePhaseWith, hh, reduceCtorEq] at h

/-- A fault of the decode phase is the step's, a halted core's too (00_scope.md R11). -/
theorem stepWith_of_decodePhaseWith_fault {f : Fault} (h : decodePhaseWith table s env = .fault f) :
    stepWith table s env = .fault f := by
  cases hh : s.halt with
  | some c =>
    rw [stepWith_halted hh, ← h]
    simp only [decodePhaseWith, hh]
  | none =>
    rw [decodePhaseWith_running hh] at h
    rw [stepWith_running hh, outcome_fault.mp h]

/-- What the decode phase latched, execute runs (00_scope.md R11). -/
theorem stepWith_of_decodePhaseWith_next (h : decodePhaseWith table s env = .next t) :
    stepWith table s env = executePhase t env := by
  have hh := halt_of_decodePhaseWith_next h
  rw [decodePhaseWith_running hh] at h
  rw [stepWith_running hh, outcome_next.mp h]

/-- Execute consumes the latch (10_state.md R33). -/
theorem executePhase_of_latch {instr : Ir} (hh : s.halt = none) (hir : s.ir = some instr) :
    executePhase s env = executeIr instr (setIR none s) env := by
  simp only [executePhase, hh, hir]

end

/-- A running core's step faults in its decode phase, which has only read, or is an execute phase (00_scope.md R11,
40_fetch_decode_operands.md R95). -/
theorem stepWith_env_cases {s : State} (hh : s.halt = none) (table : Byte → OpCode) (env : Environment) :
    (∃ c u, AfterReads env s u ∧ stepWith table s env = .fault (.raised c (setHalt (some c) u))) ∨
    (∃ instr pc' u, AfterReads env s u ∧ decodePhaseWith table s env = .next (setIR (some instr) (setPC pc' u)) ∧
      stepWith table s env = executeIr instr (setIR none (setPC pc' u)) env) := by
  cases hd : decodeLatch table s env with
  | error f =>
    obtain ⟨c, u, hu, rfl⟩ := decodeLatch_env_error hd
    exact .inl ⟨c, u, hu, by rw [stepWith_running hh, hd]⟩
  | ok t =>
    obtain ⟨instr, pc', u, hu, rfl⟩ := decodeLatch_reads hd
    exact .inr ⟨instr, pc', u, hu, by rw [decodePhaseWith_running hh, hd, outcome_ok], stepWith_of_latch hh hu hd⟩

/-! ## What a fault leaves -/

/-- Settles O14: in the reference environment the decode phase's reads leave the state, and an execute phase that
faults leaves what the decode phase left, but for HALT and the two pops of an RTS. -/
theorem faultLeavesRegistersAndMemory : Obligations.FaultLeavesRegistersAndMemory := by
  intro s t c (h : stepWith optable s = .fault (.raised c t))
  have hh : s.halt = none := by
    cases hh : s.halt with
    | none => rfl
    | some d => cases (stepWith_halted hh).symm.trans h
  obtain ⟨d, u, hu, hfault⟩ | ⟨instr, pc', u, hu, hdecode, hexec⟩ := stepWith_env_cases hh optable .reference
  · obtain rfl := hu.reference
    cases hfault.symm.trans h
    exact .inl rfl
  · obtain rfl := hu.reference
    obtain ⟨d, v, hf, hv⟩ := executeIr_fault (hexec.symm.trans h)
    cases hf
    refine .inr ⟨_, hdecode, ?_⟩
    obtain rfl | ⟨rfl, rfl⟩ := hv
    · exact ⟨rfl, rfl, rfl, rfl, rfl, rfl, rfl, fun hsp => absurd rfl hsp⟩
    · exact ⟨rfl, rfl, rfl, rfl, rfl, rfl, rfl, fun _ => ⟨0xFFFF, rfl, rfl, add_one_add_one u.sp⟩⟩

/-! ## The host between the phases -/

theorem fetchByteOperand_variant {pc0 : Addr} {s t : State} {env : Environment} {operand : Operand}
    (h : fetchByteOperand pc0 s env = .ok (operand, t)) : ∃ b, operand = .byte b := by
  unfold fetchByteOperand at h
  split at h
  · cases h
  · cases h
    exact ⟨_, rfl⟩

theorem fetchWordOperand_variant {pc0 : Addr} {s t : State} {env : Environment} {operand : Operand}
    (h : fetchWordOperand pc0 s env = .ok (operand, t)) : ∃ w, operand = .word w := by
  unfold fetchWordOperand at h
  split at h
  · cases h
  · split at h
    · cases h
    · cases h
      exact ⟨_, rfl⟩

/-- The operand fetched is the variant of the mode, so whether there is an instruction rests on the pair alone
(30_encoding.md R72, R76). -/
theorem instrOfIr_isSome_of_fetchOperand {mode : Mode} {pc0 : Addr} {s t : State} {env : Environment}
    {operand : Operand} (h : fetchOperand mode pc0 s env = .ok (operand, t)) (op : Operation) :
    (instrOfIr ⟨op, mode, operand⟩).isSome = populatedPair op mode := by
  cases mode with
  | implied | accumulator =>
    cases h
    cases op <;> rfl
  | immediate | zeropage | relative =>
    obtain ⟨b, rfl⟩ := fetchByteOperand_variant h
    cases op <;> rfl
  | absolute | indirect =>
    obtain ⟨w, rfl⟩ := fetchWordOperand_variant h
    cases op <;> rfl

/-- Every row of the default table is a pair of the matrix (30_encoding.md R76, R79). -/
theorem populatedPair_of_optable {b : Byte} (hu : (optable b).op ≠ .unimplemented) :
    populatedPair (optable b).op (optable b).mode = true := by
  have hrows : ∀ row ∈ optableRows, populatedPair row.2.op row.2.mode = true := by decide
  exact hrows _ (optable_mem hu)

/-- Under the default table what the decode phase latches is an instruction (30_encoding.md R76, R79). -/
theorem latch_of_decodePhaseWith_optable {s t : State} (h : decodePhaseWith optable s = .next t) :
    ∃ instr i, t.ir = some instr ∧ t.halt = none ∧ instr.op ≠ .unimplemented ∧ instrOfIr instr = some i := by
  have hh := halt_of_decodePhaseWith_next h
  rw [decodePhaseWith_running hh] at h
  obtain ⟨b0, operand, pc', _, hu, ho, _, rfl⟩ := decodeLatch_ok.mp (outcome_next.mp h)
  obtain ⟨i, hi⟩ := Option.isSome_iff_exists.mp
    ((instrOfIr_isSome_of_fetchOperand ho _).trans (populatedPair_of_optable hu))
  exact ⟨_, i, rfl, hh, hu, hi⟩

/-- Settles O15: the latch alone names the instruction that execute runs, on the state it then finds. -/
theorem hostMayActBetweenThePhases : Obligations.HostMayActBetweenThePhases := by
  refine fun s => ⟨fun _ hdecode => stepWith_of_decodePhaseWith_fault hdecode,
    fun t (hdecode : decodePhaseWith optable s = .next t) => ?_⟩
  obtain ⟨instr, i, hir, hh, hu, hi⟩ := latch_of_decodePhaseWith_optable hdecode
  have runs {u : State} (hsame : u.ir = t.ir) (hrunning : u.halt = none) :
      executePhase u = exec i (setIR none u) := by
    rw [executePhase_of_latch hrunning (hsame.trans hir), executeIr_of_instr hu hi, execIn_reference]
  have hstep : step s = executePhase t := stepWith_of_decodePhaseWith_next hdecode
  exact ⟨hstep.symm, i, hstep.trans (runs rfl hh), fun _ => runs⟩

/-! ## JSR at PC 0 -/

/-- Settles O41: the return address is computed before the first push. -/
theorem jsrWithPCZeroOverflows : Obligations.JsrWithPCZeroOverflows := by
  intro w s hpc
  have hbelow : wordAdd s.pc (-1) s = raise (.wordOverflow 0 (-1)) s :=
    hpc ▸ (wordAddIsExactOrOverflows 0 (-1) s).2 (.inl (by decide))
  exact outcome_fault.mpr (callSubroutine_env_error.mpr (.inl hbelow))

end Sys2Proof.Machine
end

section
/-! PROOFS. The family 70_reset_and_hazards.md: the step is total, in any environment (O59) and so in the reference one
(O13), the end of a run (O51), and which images launch (O53). -/

namespace Sys2Proof.Machine

/-! ## The step is total -/

/-- What an execute phase keeps when it raises, and what it can have done to SP and the cells
(60_exceptions.md R172). -/
theorem reachedBeforeFault_keeps {i : Instr} {s u : State} {env : Environment} (h : ReachedBeforeFault i s env u) :
    u.a = s.a ∧ u.x = s.x ∧ u.y = s.y ∧ u.status = s.status ∧ u.pc = s.pc ∧
      (((u.sp = s.sp ∨ u.sp = s.sp + 1 ∨ u.sp = s.sp + 2) ∧ (env.ReadsArePure → u.mem = s.mem)) ∨
        (u.sp = s.sp - 1 ∧ ∃ v, env.write (stackAddr s.sp) v s.mem = .ok u.mem)) := by
  obtain ⟨m, rfl, hm⟩ | ⟨w, m, _, hwrite, rfl⟩ | ⟨_, v, ⟨m, rfl, hm⟩, rfl | rfl⟩ := h
  · exact ⟨rfl, rfl, rfl, rfl, rfl, .inl ⟨.inl rfl, hm⟩⟩
  · exact ⟨rfl, rfl, rfl, rfl, rfl, .inr ⟨rfl, _, hwrite⟩⟩
  · exact ⟨rfl, rfl, rfl, rfl, rfl, .inl ⟨.inr (.inl rfl), hm⟩⟩
  · exact ⟨rfl, rfl, rfl, rfl, rfl, .inl ⟨.inr (.inr (add_one_add_one s.sp)), hm⟩⟩

theorem executeIr_env_next {instr : Ir} {s t : State} {env : Environment} (h : executeIr instr s env = .next t) :
    t.ir = s.ir ∧ t.halt = s.halt := by
  obtain ⟨i, hi, _⟩ | ⟨_, _, hmisuse⟩ := executeIr_env_cases instr s env
  · exact execIn_keeps (hi ▸ h)
  · cases hmisuse.symm.trans h

theorem executeIr_env_fault {instr : Ir} {s : State} {env : Environment} {f : Fault}
    (h : executeIr instr s env = .fault f) :
    ∃ i c u, f = .raised c (setHalt (some c) u) ∧ ReachedBeforeFault i s env u := by
  obtain ⟨i, hi, _⟩ | ⟨_, _, hmisuse⟩ := executeIr_env_cases instr s env
  · exact ⟨i, execIn_fault (hi ▸ h)⟩
  · cases hmisuse.symm.trans h
    exact ⟨.unimplemented 0, _, s, rfl, .inl (.refl env s)⟩

/-- Settles O59: the decode phase raises after reads alone; the execute phase goes on, or raises in a state it can have
reached, and never refuses. -/
theorem stepIsTotalInAnyEnvironment : Obligations.StepIsTotalInAnyEnvironment := by
  intro table env s hh
  obtain ⟨c, u, ⟨m, rfl, hm⟩, hfault⟩ | ⟨instr, pc', u, ⟨m, rfl, hm⟩, hdecode, hexec⟩ :=
    stepWith_env_cases hh table env
  · exact .inr ⟨c, _, hfault, rfl, rfl, rfl, rfl, rfl, .inl ⟨rfl, rfl, rfl, hm⟩⟩
  · rw [hexec]
    cases hanswer : executeIr instr (setIR none (setPC pc' (setMem m s))) env with
    | next t =>
      obtain ⟨hir, hhalt⟩ := executeIr_env_next hanswer
      exact .inl ⟨t, rfl, hhalt.trans hh, hir⟩
    | fault f =>
      obtain ⟨i, c, v, rfl, hreached⟩ := executeIr_env_fault hanswer
      obtain ⟨ha, hx, hy, hstatus, hpc, hrest⟩ := reachedBeforeFault_keeps hreached
      exact .inr ⟨c, _, rfl, rfl, ha, hx, hy, hstatus, .inr ⟨_, hdecode, hpc,
        hrest.imp (fun ⟨hsp, hmem⟩ => ⟨hsp, fun hpure => (hmem hpure).trans (hm hpure)⟩) id⟩⟩
    | refused q => exact absurd hanswer (executeIr_not_refused _ _ _ q)

/-- Settles O13: the statement about every table and environment, at the defaults. -/
theorem stepAnswersANextStateOrARaisedFault : Obligations.StepAnswersANextStateOrARaisedFault := by
  intro s hh
  obtain ⟨t, hnext, hhalt, _⟩ | ⟨c, t, hfault, hhalt, _⟩ := stepIsTotalInAnyEnvironment optable .reference s hh
  · exact .inl ⟨t, hnext, hhalt⟩
  · exact .inr ⟨c, t, hfault, hhalt⟩

/-! ## The end of a run -/

/-- The JMP at an end state goes where PC is (70_reset_and_hazards.md R195). -/
theorem step_of_ended {s : State} (h : Ended s) : step s = .next s := by
  obtain ⟨hh, hir, hroom, hopcode, hlow, hhigh⟩ := h
  have hhigh' : busRead (s.pc + 1 + 1) s.mem = .ok (highByte s.pc) := (BitVec.add_assoc s.pc 1 1).symm ▸ hhigh
  have hanswers : Answers .reference s.pc [0x4C, lowByte s.pc, highByte s.pc] s.mem s.mem :=
    ⟨_, reference_read_ok.mpr ⟨hopcode, rfl⟩, _, reference_read_ok.mpr ⟨hlow, rfl⟩, _,
      reference_read_ok.mpr ⟨hhigh', rfl⟩, rfl⟩
  have hstep : step s = _ :=
    (attestedInstructionsRunUnderAnyTable optable .reference s rfl rfl hh).2 _ _ _ (by omega) hanswers
  rw [hstep, wordOf_high_low, ← hir]
  rfl

/-- A step that answers its own state can be taken again. -/
theorem runsFor_of_step_self {s : State} (h : step s = .next s) (n : Nat) : RunsFor n s := by
  induction n with
  | zero => trivial
  | succ n ih => exact ⟨s, h, ih⟩

/-- Settles O51: the step answers the same state, and so does every later one. -/
theorem endedRunStaysEnded : Obligations.EndedRunStaysEnded :=
  fun _ h => ⟨step_of_ended h, runsFor_of_step_self (step_of_ended h)⟩

/-! ## The images that launch -/

theorem prgWindow_eq_none {prg : List Byte} :
    prgWindow prg = none ↔ prg.length ≠ 0x4000 ∧ prg.length ≠ 0x8000 := by
  unfold prgWindow
  split_ifs with h32 h16
  · simp [h32]
  · simp [h16]
  · simp [h32, h16]

theorem launchState_eq_none {l : Launch} : launchState l = none ↔ prgWindow l.prg = none := by
  cases h : prgWindow l.prg <;> simp [launchState, h]

/-- Settles O53: the image's size alone decides whether there is a launch state, and reset answers it. -/
theorem onlyLegalImagesLaunch : Obligations.OnlyLegalImagesLaunch := by
  refine fun l s => ⟨fun h16 h32 => ?_, fun hlegal => ?_⟩
  · have hnone : launchState l = none := launchState_eq_none.mpr (prgWindow_eq_none.mpr ⟨h16, h32⟩)
    exact ⟨hnone, by simp only [hostMove, hnone]⟩
  · cases hlaunch : launchState l with
    | none =>
      obtain ⟨h16, h32⟩ := prgWindow_eq_none.mp (launchState_eq_none.mp hlaunch)
      exact absurd hlegal (not_or.mpr ⟨h16, h32⟩)
    | some t =>
      have hinv := inv_of_launchState hlaunch
      exact ⟨t, rfl, hostMove_reset.mpr hlaunch, hinv.running, hinv.noLatch⟩

end Sys2Proof.Machine
end
